-- ==== Sys2Proof/Word.lean ====
section
/-! DEFINITION. The two word sizes of the engine (R6): a byte of the code buffer or of data memory, and a
16-bit word (registers, addresses, displacements, immediates). -/

namespace Sys2Proof

/-- One byte: an instruction-stream byte, a data-memory byte, an 8-bit register half. -/
abbrev Byte := BitVec 8

/-- A 16-bit value: a general or segment register, a data address, a displacement, an immediate (R6). -/
abbrev Word := BitVec 16

end Sys2Proof
end

