-- ==== Sys2Proof/Syntax.lean ====
section
/-! DEFINITION. The abstract syntax: one constructor of Instr per row of spec/opcode_table.json (R74), the
operand forms an instruction carries, and the operands the executor sees (R90). -/

namespace Sys2Proof

/-- Operand width W of a record: 8 when w = 0, 16 when w = 1 (R89). -/
inductive Width where
  | w8
  | w16
deriving DecidableEq, Repr

/-- The five actions of the catalog (R2, R70). -/
inductive Action where
  | move
  | add
  | subtract
  | compare
  | jump
deriving DecidableEq, Repr

/-- The eight base expressions of an effective address, in the order of their rm codes (R91). -/
inductive Base where
  | bxSi
  | bxDi
  | bpSi
  | bpDi
  | si
  | di
  | bp
  | bx
deriving DecidableEq, Repr

/-- The displacement bytes of a register-based address: none (mod 00), one byte (mod 01), two bytes
(mod 10), by R84. -/
inductive Disp where
  | none
  | byte (v : Byte)
  | word (v : Word)
deriving DecidableEq, Repr

/-- The register-or-memory operand of the encoding (R84, R92). -/
inductive Rm where
  /-- mod = 11: a register, by its 3-bit code. -/
  | reg (code : BitVec 3)
  /-- mod = 00 and rm = 110: the two displacement bytes are an absolute address. -/
  | direct (addr : Word)
  /-- any other mod: a base expression with a displacement. -/
  | mem (base : Base) (disp : Disp)
deriving DecidableEq, Repr

/-- An immediate of a form without an s field: one byte when w = 0, two bytes when w = 1 (R86). -/
inductive Imm where
  | byte (v : Byte)
  | word (v : Word)
deriving DecidableEq, Repr

/-- An immediate of the forms 0x80 to 0x83, which have an s and a w field (R86). -/
inductive ArithImm where
  /-- w = 0: one byte; s is ignored but kept, since 0x82 and 0x80 are two encodings (R106). -/
  | byte (s : Bool) (v : Byte)
  /-- w = 1, s = 0: two bytes. -/
  | word (v : Word)
  /-- w = 1, s = 1: one byte, sign-extended to 16 bits. -/
  | signed (v : Byte)
deriving DecidableEq, Repr

/-- The 36 descriptors of the catalog (R74), in its order. `d` is the direction bit (true: the reg field is
the destination), `inc` the signed increment byte of a jump. -/
inductive Instr where
  -- move, ids 1 to 7
  | movRmR (d : Bool) (w : Width) (reg : BitVec 3) (rm : Rm)
  | movImmRm (rm : Rm) (imm : Imm)
  | movImmR (reg : BitVec 3) (imm : Imm)
  | movAccMem (w : Width) (addr : Word)
  | movMemAcc (w : Width) (addr : Word)
  | movRmSr (sr : BitVec 2) (rm : Rm)
  | movSrRm (sr : BitVec 2) (rm : Rm)
  -- add, ids 8 to 10
  | addRmR (d : Bool) (w : Width) (reg : BitVec 3) (rm : Rm)
  | addImmRm (rm : Rm) (imm : ArithImm)
  | addImmAcc (imm : Imm)
  -- subtract, ids 11 to 13
  | subRmR (d : Bool) (w : Width) (reg : BitVec 3) (rm : Rm)
  | subImmRm (rm : Rm) (imm : ArithImm)
  | subImmAcc (imm : Imm)
  -- compare, ids 14 to 16
  | cmpRmR (d : Bool) (w : Width) (reg : BitVec 3) (rm : Rm)
  | cmpImmRm (rm : Rm) (imm : ArithImm)
  | cmpImmAcc (imm : Imm)
  -- conditional jumps, ids 17 to 32
  | jo (inc : Byte)
  | jno (inc : Byte)
  | jb (inc : Byte)
  | jnb (inc : Byte)
  | je (inc : Byte)
  | jne (inc : Byte)
  | jbe (inc : Byte)
  | ja (inc : Byte)
  | js (inc : Byte)
  | jns (inc : Byte)
  | jp (inc : Byte)
  | jnp (inc : Byte)
  | jl (inc : Byte)
  | jnl (inc : Byte)
  | jle (inc : Byte)
  | jg (inc : Byte)
  -- the loop family and JCXZ, ids 33 to 36
  | loopnz (inc : Byte)
  | loopz (inc : Byte)
  | loop (inc : Byte)
  | jcxz (inc : Byte)
deriving DecidableEq, Repr

/-- The operand kinds of the timing key (R12, R231). -/
inductive OperandKind where
  | reg
  | sreg
  | mem
  | imm
  | abs
  | jmp
  | none
deriving DecidableEq, Repr

/-- The closed operand variant of R90, as the executor reads and writes it. -/
inductive Operand where
  /-- REG(code, W). -/
  | reg (code : BitVec 3) (w : Width)
  /-- SREG(code). -/
  | sreg (code : BitVec 2)
  /-- MEM(base, disp, W), `disp` the 16-bit pattern of R85. -/
  | mem (base : Base) (disp : Word) (w : Width)
  /-- IMM(value, W). -/
  | imm (value : Word) (w : Width)
  /-- ABS(addr, W). -/
  | abs (addr : Word) (w : Width)
  /-- JMP(inc, len). -/
  | jmp (inc : Byte) (len : Nat)
  /-- NONE, the empty source of a jump. -/
  | none
deriving DecidableEq, Repr

/-- The kind of an operand (R12). -/
def Operand.kind : Operand → OperandKind
  | .reg _ _ => .reg
  | .sreg _ => .sreg
  | .mem _ _ _ => .mem
  | .imm _ _ => .imm
  | .abs _ _ => .abs
  | .jmp _ _ => .jmp
  | .none => .none

end Sys2Proof
end

