-- ==== Sys2Proof/WellFormed.lean ====
section
/-! DEFINITION. Which instructions have an encoding. The types carry every other bound; the one term they
admit and the encoding does not is the base BP without a displacement: mod = 00 with rm = 110 is the
direct address (R84, R91 "BP (mod ≠ 00 only)"). -/

namespace Sys2Proof

/-- R91: base BP needs a displacement; its mod = 00 pattern is the direct address. -/
def Rm.wf : Rm → Bool
  | .mem .bp .none => false
  | .mem _ _ => true
  | .reg _ => true
  | .direct _ => true

/-- The register-or-memory operand an instruction encodes, where it has one (R72). -/
def Instr.rm? : Instr → Option Rm
  | .movRmR _ _ _ rm | .addRmR _ _ _ rm | .subRmR _ _ _ rm | .cmpRmR _ _ _ rm => some rm
  | .movImmRm rm _ => some rm
  | .addImmRm rm _ | .subImmRm rm _ | .cmpImmRm rm _ => some rm
  | .movRmSr _ rm | .movSrRm _ rm => some rm
  | .movImmR _ _ | .movAccMem _ _ | .movMemAcc _ _ => none
  | .addImmAcc _ | .subImmAcc _ | .cmpImmAcc _ => none
  | .jo _ | .jno _ | .jb _ | .jnb _ | .je _ | .jne _ | .jbe _ | .ja _ => none
  | .js _ | .jns _ | .jp _ | .jnp _ | .jl _ | .jnl _ | .jle _ | .jg _ => none
  | .loopnz _ | .loopz _ | .loop _ | .jcxz _ => none

/-- An instruction is well formed when its register-or-memory operand has an encoding. -/
def Instr.wf (i : Instr) : Bool :=
  match i.rm? with
  | some rm => rm.wf
  | none => true

end Sys2Proof
end

