-- ==== Sys2Proof/Decode.lean ====
section
/-! DEFINITION. The bitfield extractor (R64 to R69), the instruction catalog (R70 to R75), the opcode matcher
(R76 to R78), the decoder of one instruction (R81 to R89, R93) and, after it, the encoder, both driven by the
same catalog. The decode pass over the whole buffer, which adds offsets and clocks, is Machine/Load.lean. -/

namespace Sys2Proof

/-! ## Bit-field and byte helpers (R8) -/

/-- The concatenation of a high and a low byte (R8). -/
def joinBytes (hi lo : Byte) : Word := hi ++ lo

/-- Bits 7..0 of a word. -/
def loByte (v : Word) : Byte := v.setWidth 8

/-- Bits 15..8 of a word. -/
def hiByte (v : Word) : Byte := (v >>> 8).setWidth 8

/-- sext_8 of R8: the 16-bit pattern of a signed byte. -/
def sext8 (v : Byte) : Word := v.signExtend 16

/-- zext of R8: a byte as a 16-bit pattern with a zero high byte. -/
def zext8 (v : Byte) : Word := v.setWidth 16

/-- The number of bits of an operand width (R89). -/
def Width.bits : Width → Nat
  | .w8 => 8
  | .w16 => 16

/-- The number of bytes of an operand width (R56). -/
def Width.bytes : Width → Nat
  | .w8 => 1
  | .w16 => 2

/-- w = 1 selects 16 bits (R89). -/
def Width.ofBit (w : Bool) : Width := if w then .w16 else .w8

/-- The w field of a width (R89). -/
def Width.bit : Width → Bool
  | .w8 => false
  | .w16 => true

/-- The rm code of a base expression (R91). -/
def Base.code : Base → BitVec 3
  | .bxSi => 0b000
  | .bxDi => 0b001
  | .bpSi => 0b010
  | .bpDi => 0b011
  | .si => 0b100
  | .di => 0b101
  | .bp => 0b110
  | .bx => 0b111

/-- The base expression an rm code selects (R91). -/
def Base.ofCode (rm : BitVec 3) : Base :=
  match rm with
  | 0b000 => .bxSi
  | 0b001 => .bxDi
  | 0b010 => .bpSi
  | 0b011 => .bpDi
  | 0b100 => .si
  | 0b101 => .di
  | 0b110 => .bp
  | 0b111 => .bx

/-! ## Bitfield extractor -/

/-- The BitField kinds of R67. -/
inductive FieldKind where
  | opcodeLiteral
  | sign
  | wordSize
  | direction
  | mod
  | register
  | segmentRegister
  | registerOrMemory
  | displacementPresent
  | immediateDataPresent
  | absoluteAddressPresent
  | shortJumpPresent
deriving DecidableEq, Repr

/-- The presence markers: they select trailing bytes and are not extracted in step 1 (R69). -/
def FieldKind.isMarker : FieldKind → Bool
  | .displacementPresent | .immediateDataPresent | .absoluteAddressPresent | .shortJumpPresent => true
  | .opcodeLiteral | .sign | .wordSize | .direction | .mod | .register | .segmentRegister
  | .registerOrMemory => false

/-- A BitField (R64). -/
structure BitField where
  kind : FieldKind
  byteIndex : Nat
  shiftRight : Nat
  mask : Byte
deriving DecidableEq, Repr

/-- An OpcodeMatch (R68). -/
structure OpcodeMatch where
  location : BitField
  expectedValue : Byte
deriving DecidableEq, Repr

/-- Why one instruction cannot be decoded: the decode-structural conditions of R262 before they are given
their offset. -/
inductive DecodeError where
  /-- no descriptor matches; the bytes at the instruction's offset (R77). -/
  | unmatchedOpcode (bytes : List Byte)
  /-- the matched descriptor fits no operand shape (R93). -/
  | unmatchedShape (id : Nat)
  /-- a byte of the instruction lies at or beyond the end of the buffer (R65). -/
  | truncated
  /-- a field the descriptor does not declare is extracted (R66). -/
  | noField (id : Nat) (kind : FieldKind)
deriving DecidableEq, Repr

/-- Byte `k` of the instruction whose bytes start the list, with the bounds check of R65. -/
def byteAt (bs : List Byte) (k : Nat) : Except DecodeError Byte :=
  match bs[k]? with
  | some b => .ok b
  | none => .error .truncated

/-- The Bitfield Extractor (R64). -/
def BitField.extract (bf : BitField) (bs : List Byte) : Except DecodeError Byte := do
  let b ← byteAt bs bf.byteIndex
  return (b >>> bf.shiftRight) &&& bf.mask

/-- An OpcodeMatch holds when its location extracts to the expected value (R68). -/
def OpcodeMatch.holds (m : OpcodeMatch) (bs : List Byte) : Except DecodeError Bool := do
  let v ← m.location.extract bs
  return v == m.expectedValue

/-! ## Instruction catalog -/

/-- A descriptor: one row of the catalog (R70). `fields` holds at most one BitField of each kind. -/
structure Descriptor where
  id : Nat
  mnemonic : String
  action : Action
  primaryMatch : OpcodeMatch
  secondaryMatch : Option OpcodeMatch
  fields : List BitField
  isAccumulatorSource : Bool
  isAccumulatorDestination : Bool
  forcesDestinationSizePrefix : Bool
deriving DecidableEq, Repr

/-- The descriptor's BitField of a kind, where it declares one (R70). -/
def Descriptor.field (e : Descriptor) (k : FieldKind) : Option BitField :=
  e.fields.find? (fun bf => bf.kind == k)

/-- Whether the descriptor declares a field of a kind (R69, R83). -/
def Descriptor.declares (e : Descriptor) (k : FieldKind) : Bool := (e.field k).isSome

/-- A presence marker: it declares trailing bytes and is never extracted (R69). -/
def marker (k : FieldKind) : BitField := ⟨k, 0, 0, 0⟩

/-- An OpcodeMatch written as in R74: (byteIndex, shiftRight, mask) = value. -/
def opcodeMatch (byteIndex shiftRight : Nat) (mask value : Byte) : OpcodeMatch :=
  ⟨⟨.opcodeLiteral, byteIndex, shiftRight, mask⟩, value⟩

/-- The mod and rm fields of byte 1 (R72). -/
def modRmFields : List BitField := [⟨.mod, 1, 6, 3⟩, ⟨.registerOrMemory, 1, 0, 7⟩]

/-- The fields of format RM (R72). -/
def fieldsRM : List BitField :=
  [⟨.direction, 0, 1, 1⟩, ⟨.wordSize, 0, 0, 1⟩, ⟨.register, 1, 3, 7⟩, marker .displacementPresent] ++ modRmFields

/-- The fields of format IMMRM without an s field (R72, descriptor 2). -/
def fieldsIMMRM : List BitField :=
  [⟨.wordSize, 0, 0, 1⟩, marker .displacementPresent, marker .immediateDataPresent] ++ modRmFields

/-- The fields of format IMMRM for 0x80 to 0x83, which have an s field (R72). -/
def fieldsIMMRMs : List BitField := ⟨.sign, 0, 1, 1⟩ :: fieldsIMMRM

/-- The fields of format IMMREG (R72). -/
def fieldsIMMREG : List BitField :=
  [⟨.wordSize, 0, 3, 1⟩, ⟨.register, 0, 0, 7⟩, marker .immediateDataPresent]

/-- The fields of format ACCMEM (R72). -/
def fieldsACCMEM : List BitField := [⟨.wordSize, 0, 0, 1⟩, marker .absoluteAddressPresent]

/-- The fields of format ACCIMM (R72). -/
def fieldsACCIMM : List BitField := [⟨.wordSize, 0, 0, 1⟩, marker .immediateDataPresent]

/-- The fields of format SR (R72). -/
def fieldsSR : List BitField :=
  [⟨.direction, 0, 1, 1⟩, ⟨.segmentRegister, 1, 3, 3⟩, marker .displacementPresent] ++ modRmFields

/-- The fields of format JMP (R72). -/
def fieldsJMP : List BitField := [marker .shortJumpPresent]

/-- A row of format RM: primary match on bits 7..2 of byte 0 (R74). -/
def rowRM (id : Nat) (mnemonic : String) (action : Action) (prim : Byte) : Descriptor :=
  ⟨id, mnemonic, action, opcodeMatch 0 2 0x3F prim, none, fieldsRM, false, false, false⟩

/-- A row of the forms 0x80 to 0x83: the sub field of byte 1 is the secondary match (R73, R74). -/
def rowIMMRM (id : Nat) (mnemonic : String) (action : Action) (sub : Byte) : Descriptor :=
  ⟨id, mnemonic, action, opcodeMatch 0 2 0x3F 0x20, some (opcodeMatch 1 3 7 sub), fieldsIMMRMs, false, false, true⟩

/-- A row of format ACCIMM: primary match on bits 7..1 of byte 0 (R74). -/
def rowACCIMM (id : Nat) (mnemonic : String) (action : Action) (prim : Byte) : Descriptor :=
  ⟨id, mnemonic, action, opcodeMatch 0 1 0x7F prim, none, fieldsACCIMM, false, true, false⟩

/-- A row of format SR: byte 0 whole, and byte 1 bit 5 must be 0 (R73, R74). -/
def rowSR (id : Nat) (prim : Byte) : Descriptor :=
  ⟨id, "mov", .move, opcodeMatch 0 0 0xFF prim, some (opcodeMatch 1 5 1 0), fieldsSR, false, false, false⟩

/-- A row of format JMP: byte 0 whole (R74). -/
def rowJMP (id : Nat) (mnemonic : String) (prim : Byte) : Descriptor :=
  ⟨id, mnemonic, .jump, opcodeMatch 0 0 0xFF prim, none, fieldsJMP, false, false, false⟩

/-- The descriptor of an instruction: its row of the catalog (R74). -/
def Instr.descriptor : Instr → Descriptor
  | .movRmR _ _ _ _ => rowRM 1 "mov" .move 0x22
  | .movImmRm _ _ =>
    ⟨2, "mov", .move, opcodeMatch 0 1 0x7F 0x63, some (opcodeMatch 1 3 7 0), fieldsIMMRM, false, false, false⟩
  | .movImmR _ _ => ⟨3, "mov", .move, opcodeMatch 0 4 0x0F 0x0B, none, fieldsIMMREG, false, false, false⟩
  | .movAccMem _ _ => ⟨4, "mov", .move, opcodeMatch 0 1 0x7F 0x50, none, fieldsACCMEM, false, true, false⟩
  | .movMemAcc _ _ => ⟨5, "mov", .move, opcodeMatch 0 1 0x7F 0x51, none, fieldsACCMEM, true, false, false⟩
  | .movRmSr _ _ => rowSR 6 0x8E
  | .movSrRm _ _ => rowSR 7 0x8C
  | .addRmR _ _ _ _ => rowRM 8 "add" .add 0x00
  | .addImmRm _ _ => rowIMMRM 9 "add" .add 0
  | .addImmAcc _ => rowACCIMM 10 "add" .add 0x02
  | .subRmR _ _ _ _ => rowRM 11 "sub" .subtract 0x0A
  | .subImmRm _ _ => rowIMMRM 12 "sub" .subtract 5
  | .subImmAcc _ => rowACCIMM 13 "sub" .subtract 0x16
  | .cmpRmR _ _ _ _ => rowRM 14 "cmp" .compare 0x0E
  | .cmpImmRm _ _ => rowIMMRM 15 "cmp" .compare 7
  | .cmpImmAcc _ => rowACCIMM 16 "cmp" .compare 0x1E
  | .jo _ => rowJMP 17 "jo" 0x70
  | .jno _ => rowJMP 18 "jno" 0x71
  | .jb _ => rowJMP 19 "jb" 0x72
  | .jnb _ => rowJMP 20 "jnb" 0x73
  | .je _ => rowJMP 21 "je" 0x74
  | .jne _ => rowJMP 22 "jne" 0x75
  | .jbe _ => rowJMP 23 "jbe" 0x76
  | .ja _ => rowJMP 24 "ja" 0x77
  | .js _ => rowJMP 25 "js" 0x78
  | .jns _ => rowJMP 26 "jns" 0x79
  | .jp _ => rowJMP 27 "jp" 0x7A
  | .jnp _ => rowJMP 28 "jnp" 0x7B
  | .jl _ => rowJMP 29 "jl" 0x7C
  | .jnl _ => rowJMP 30 "jnl" 0x7D
  | .jle _ => rowJMP 31 "jle" 0x7E
  | .jg _ => rowJMP 32 "jg" 0x7F
  | .loopnz _ => rowJMP 33 "loopnz" 0xE0
  | .loopz _ => rowJMP 34 "loopz" 0xE1
  | .loop _ => rowJMP 35 "loop" 0xE2
  | .jcxz _ => rowJMP 36 "jcxz" 0xE3

/-- One instruction of each descriptor, in catalog order; only its constructor matters. -/
def oneOfEach : List Instr :=
  [.movRmR false .w8 0 (.reg 0), .movImmRm (.reg 0) (.byte 0), .movImmR 0 (.byte 0), .movAccMem .w8 0,
   .movMemAcc .w8 0, .movRmSr 0 (.reg 0), .movSrRm 0 (.reg 0)] ++
  [.addRmR false .w8 0 (.reg 0), .addImmRm (.reg 0) (.byte false 0), .addImmAcc (.byte 0),
   .subRmR false .w8 0 (.reg 0), .subImmRm (.reg 0) (.byte false 0), .subImmAcc (.byte 0),
   .cmpRmR false .w8 0 (.reg 0), .cmpImmRm (.reg 0) (.byte false 0), .cmpImmAcc (.byte 0)] ++
  [.jo 0, .jno 0, .jb 0, .jnb 0, .je 0, .jne 0, .jbe 0, .ja 0, .js 0, .jns 0, .jp 0, .jnp 0, .jl 0, .jnl 0,
   .jle 0, .jg 0] ++
  [.loopnz 0, .loopz 0, .loop 0, .jcxz 0]

/-- The catalog in declared (scan) order (R74). -/
def catalog : List Descriptor := oneOfEach.map Instr.descriptor

/-- The catalog id of an instruction (R74). -/
def Instr.id (i : Instr) : Nat := i.descriptor.id

/-- The mnemonic of an instruction (R74). -/
def Instr.mnemonic (i : Instr) : String := i.descriptor.mnemonic

/-- The action of an instruction (R74). -/
def Instr.action (i : Instr) : Action := i.descriptor.action

/-- The longest instruction in bytes (R6, R88). -/
def maxLength : Nat := 6

/-! ## Opcode matcher -/

/-- The matcher's scan (R76): the first descriptor whose primary match holds and whose secondary match, if
declared, holds too; none is UNMATCHED_OPCODE (R77), which reports the bytes at the offset, at most the six
that R100 lets a decode depend on (log entry 6). -/
def matchIn (bs : List Byte) : List Descriptor → Except DecodeError Descriptor
  | [] => .error (.unmatchedOpcode (bs.take maxLength))
  | e :: es => do
    if ← e.primaryMatch.holds bs then
      match e.secondaryMatch with
      | none => return e
      | some m => if ← m.holds bs then return e else matchIn bs es
    else matchIn bs es

/-- The Opcode Matcher over the whole catalog (R76). -/
def matchOpcode (bs : List Byte) : Except DecodeError Descriptor := matchIn bs catalog

/-! ## Field extraction, trailing data and length -/

/-- The raw field values of a decoded record (R37), each present or absent per the descriptor. -/
structure RawFields where
  d : Option Bool
  s : Option Bool
  w : Option Bool
  mod : Option (BitVec 2)
  reg : Option (BitVec 3)
  sr : Option (BitVec 2)
  rm : Option (BitVec 3)
  disp : Option Word
  data : Option Word
  addr : Option Word
  inc : Option Byte
deriving DecidableEq, Repr

/-- No field present. -/
def RawFields.empty : RawFields := ⟨none, none, none, none, none, none, none, none, none, none, none⟩

/-- Extract a field only when the descriptor declares it (R81, R83). -/
def extractField (e : Descriptor) (k : FieldKind) (bs : List Byte) : Except DecodeError (Option Byte) :=
  match e.field k with
  | none => .ok none
  | some bf => do
    let v ← bf.extract bs
    return some v

/-- A one-bit field's value as a flag. -/
def bitFlag (v : Byte) : Bool := v != 0

/-- Step 1 of decodeOne: every declared field but the presence markers (R81). -/
def extractDeclared (e : Descriptor) (bs : List Byte) : Except DecodeError RawFields := do
  let d ← extractField e .direction bs
  let s ← extractField e .sign bs
  let w ← extractField e .wordSize bs
  let mod ← extractField e .mod bs
  let reg ← extractField e .register bs
  let sr ← extractField e .segmentRegister bs
  let rm ← extractField e .registerOrMemory bs
  return { RawFields.empty with
    d := d.map bitFlag, s := s.map bitFlag, w := w.map bitFlag,
    mod := mod.map (·.setWidth 2), reg := reg.map (·.setWidth 3),
    sr := sr.map (·.setWidth 2), rm := rm.map (·.setWidth 3) }

/-- The locations that count toward the opcode bytes: the matches and the declared fields but the presence
markers (R81). -/
def Descriptor.locations (e : Descriptor) : List BitField :=
  e.primaryMatch.location :: (e.secondaryMatch.map (·.location)).toList ++
    e.fields.filter (fun bf => !bf.kind.isMarker)

/-- The opcode-byte count: the maximum byteIndex + 1 (R81). -/
def Descriptor.opcodeBytes (e : Descriptor) : Nat :=
  e.locations.foldl (fun n bf => max n (bf.byteIndex + 1)) 0

/-- Displacement length by mod and rm (R84). -/
def dispLength (mod : BitVec 2) (rm : BitVec 3) : Nat :=
  match mod with
  | 0b11 => 0
  | 0b00 => if rm = 0b110 then 2 else 0
  | 0b01 => 1
  | 0b10 => 2

/-- The displacement bytes a record has: those of its mod and rm where it declares a displacement (R84). -/
def dispBytes (e : Descriptor) (F : RawFields) : Nat :=
  if e.declares .displacementPresent then
    match F.mod, F.rm with
    | some mod, some rm => dispLength mod rm
    | _, _ => 0
  else 0

/-- The immediate bytes a record has: two when w = 1 and s = 0, else one (R86, R88); an absent s reads 0 and
an absent w is width 16 (R83). -/
def dataBytes (e : Descriptor) (F : RawFields) : Nat :=
  if e.declares .immediateDataPresent then
    if F.w.getD true && !(F.s.getD false) then 2 else 1
  else 0

/-- The absolute-address bytes a record has (R87). -/
def addrBytes (e : Descriptor) : Nat := if e.declares .absoluteAddressPresent then 2 else 0

/-- The short-jump bytes a record has (R87). -/
def incBytes (e : Descriptor) : Nat := if e.declares .shortJumpPresent then 1 else 0

/-- "Total consumed bytes = opcode bytes + extension bytes" (R88). -/
def recordLength (e : Descriptor) (F : RawFields) : Nat :=
  e.opcodeBytes + dispBytes e F + dataBytes e F + addrBytes e + incBytes e

/-- A little-endian word of the instruction stream (R53, R87). -/
def wordAt (bs : List Byte) (k : Nat) : Except DecodeError Word := do
  let lo ← byteAt bs k
  let hi ← byteAt bs (k + 1)
  return joinBytes hi lo

/-- The displacement value at byte `k` (R85): sign-extended when it is one byte, a 16-bit pattern when it is
two, else 0. -/
def readDisp (bs : List Byte) (k n : Nat) : Except DecodeError Word :=
  match n with
  | 0 => .ok 0
  | 1 => do
    let b ← byteAt bs k
    return sext8 b
  | _ => wordAt bs k

/-- The immediate value at byte `k` (R86). -/
def readData (bs : List Byte) (k n : Nat) (w s : Bool) : Except DecodeError Word := do
  if n = 2 then wordAt bs k
  else
    let b ← byteAt bs k
    return if w && s then sext8 b else zext8 b

/-- Steps 2 to 4 of decodeOne: the trailing displacement, immediate, absolute address and increment, in that
order (R82, R84 to R87). -/
def extractTrailing (e : Descriptor) (F : RawFields) (bs : List Byte) : Except DecodeError RawFields := do
  let k := e.opcodeBytes
  let disp ← if e.declares .displacementPresent then (do
      let v ← readDisp bs k (dispBytes e F)
      return some v) else .ok none
  let data ← if e.declares .immediateDataPresent then (do
      let v ← readData bs (k + dispBytes e F) (dataBytes e F) (F.w.getD true) (F.s.getD false)
      return some v) else .ok none
  let addr ← if e.declares .absoluteAddressPresent then (do
      let v ← wordAt bs k
      return some v) else .ok none
  let inc ← if e.declares .shortJumpPresent then (do
      let v ← byteAt bs k
      return some v) else .ok none
  return { F with disp := disp, data := data, addr := addr, inc := inc }

/-! ## Shape and assembly -/

/-- The record shapes of R93. -/
inductive Shape where
  | shortJump
  | accumulatorAbsolute
  | segmentRm
  | registerRm
  | immediateRm
  | immediateRegister
deriving DecidableEq, Repr

/-- The fixed shape priority, first match wins (R93). -/
def Descriptor.shape (e : Descriptor) : Option Shape :=
  if e.declares .shortJumpPresent then some .shortJump
  else if e.declares .absoluteAddressPresent then some .accumulatorAbsolute
  else if e.declares .segmentRegister then some .segmentRm
  else if e.declares .register && e.declares .registerOrMemory then some .registerRm
  else if e.declares .immediateDataPresent && e.declares .displacementPresent then some .immediateRm
  else if e.declares .immediateDataPresent && (e.declares .register || e.isAccumulatorDestination) then
    some .immediateRegister
  else none

/-- A field the record must have; asking for one the descriptor lacks is NO_FIELD (R66). -/
def need {α : Type} (e : Descriptor) (k : FieldKind) (v : Option α) : Except DecodeError α :=
  match v with
  | some a => .ok a
  | none => .error (.noField e.id k)

/-- The register-or-memory operand of mod, rm and the displacement (R84, R85, R92). -/
def Rm.ofFields (mod : BitVec 2) (rm : BitVec 3) (disp : Word) : Rm :=
  match mod with
  | 0b11 => .reg rm
  | 0b00 => if rm = 0b110 then .direct disp else .mem (Base.ofCode rm) .none
  | 0b01 => .mem (Base.ofCode rm) (.byte (loByte disp))
  | 0b10 => .mem (Base.ofCode rm) (.word disp)

/-- An immediate of a form without an s field (R86). -/
def Imm.ofFields (w : Bool) (data : Word) : Imm := if w then .word data else .byte (loByte data)

/-- An immediate of the forms 0x80 to 0x83 (R86). -/
def ArithImm.ofFields (s w : Bool) (data : Word) : ArithImm :=
  if w then (if s then .signed (loByte data) else .word data) else .byte s (loByte data)

/-- The width of a record's w field. -/
def needWidth (e : Descriptor) (F : RawFields) : Except DecodeError Width := do
  let w ← need e .wordSize F.w
  return Width.ofBit w

/-- The register-or-memory operand of a record. -/
def needRm (e : Descriptor) (F : RawFields) : Except DecodeError Rm := do
  let mod ← need e .mod F.mod
  let rm ← need e .registerOrMemory F.rm
  let disp ← need e .displacementPresent F.disp
  return Rm.ofFields mod rm disp

/-- The immediate of a record without an s field. -/
def needImm (e : Descriptor) (F : RawFields) : Except DecodeError Imm := do
  let w ← need e .wordSize F.w
  let data ← need e .immediateDataPresent F.data
  return Imm.ofFields w data

/-- The immediate of a record with an s field. -/
def needArithImm (e : Descriptor) (F : RawFields) : Except DecodeError ArithImm := do
  let s ← need e .sign F.s
  let w ← need e .wordSize F.w
  let data ← need e .immediateDataPresent F.data
  return ArithImm.ofFields s w data

/-- A constructor of format RM from the record's fields. -/
def buildRM (mk : Bool → Width → BitVec 3 → Rm → Instr) (e : Descriptor) (F : RawFields) :
    Except DecodeError Instr := do
  let d ← need e .direction F.d
  let w ← needWidth e F
  let reg ← need e .register F.reg
  let rm ← needRm e F
  return mk d w reg rm

/-- A constructor of format IMMRM with an s field from the record's fields. -/
def buildIMMRM (mk : Rm → ArithImm → Instr) (e : Descriptor) (F : RawFields) : Except DecodeError Instr := do
  let rm ← needRm e F
  let imm ← needArithImm e F
  return mk rm imm

/-- A constructor of format ACCMEM from the record's fields. -/
def buildACCMEM (mk : Width → Word → Instr) (e : Descriptor) (F : RawFields) : Except DecodeError Instr := do
  let w ← needWidth e F
  let addr ← need e .absoluteAddressPresent F.addr
  return mk w addr

/-- A constructor of format ACCIMM from the record's fields. -/
def buildACCIMM (mk : Imm → Instr) (e : Descriptor) (F : RawFields) : Except DecodeError Instr := do
  let imm ← needImm e F
  return mk imm

/-- A constructor of format SR from the record's fields. -/
def buildSR (mk : BitVec 2 → Rm → Instr) (e : Descriptor) (F : RawFields) : Except DecodeError Instr := do
  let sr ← need e .segmentRegister F.sr
  let rm ← needRm e F
  return mk sr rm

/-- A constructor of format JMP from the record's fields. -/
def buildJMP (mk : Byte → Instr) (e : Descriptor) (F : RawFields) : Except DecodeError Instr := do
  let inc ← need e .shortJumpPresent F.inc
  return mk inc

/-- The instruction of a descriptor with its raw field values: the typed form of R37's record. -/
def Instr.ofFields (e : Descriptor) (F : RawFields) : Except DecodeError Instr :=
  match e.id with
  | 1 => buildRM .movRmR e F
  | 2 => do
    let rm ← needRm e F
    let imm ← needImm e F
    return .movImmRm rm imm
  | 3 => do
    let reg ← need e .register F.reg
    let imm ← needImm e F
    return .movImmR reg imm
  | 4 => buildACCMEM .movAccMem e F
  | 5 => buildACCMEM .movMemAcc e F
  | 6 => buildSR .movRmSr e F
  | 7 => buildSR .movSrRm e F
  | 8 => buildRM .addRmR e F
  | 9 => buildIMMRM .addImmRm e F
  | 10 => buildACCIMM .addImmAcc e F
  | 11 => buildRM .subRmR e F
  | 12 => buildIMMRM .subImmRm e F
  | 13 => buildACCIMM .subImmAcc e F
  | 14 => buildRM .cmpRmR e F
  | 15 => buildIMMRM .cmpImmRm e F
  | 16 => buildACCIMM .cmpImmAcc e F
  | 17 => buildJMP .jo e F
  | 18 => buildJMP .jno e F
  | 19 => buildJMP .jb e F
  | 20 => buildJMP .jnb e F
  | 21 => buildJMP .je e F
  | 22 => buildJMP .jne e F
  | 23 => buildJMP .jbe e F
  | 24 => buildJMP .ja e F
  | 25 => buildJMP .js e F
  | 26 => buildJMP .jns e F
  | 27 => buildJMP .jp e F
  | 28 => buildJMP .jnp e F
  | 29 => buildJMP .jl e F
  | 30 => buildJMP .jnl e F
  | 31 => buildJMP .jle e F
  | 32 => buildJMP .jg e F
  | 33 => buildJMP .loopnz e F
  | 34 => buildJMP .loopz e F
  | 35 => buildJMP .loop e F
  | 36 => buildJMP .jcxz e F
  | _ => .error (.unmatchedShape e.id)

/-- A descriptor that fits no shape is UNMATCHED_SHAPE (R93). -/
def Descriptor.needShape (e : Descriptor) : Except DecodeError Shape :=
  match e.shape with
  | some sh => .ok sh
  | none => .error (.unmatchedShape e.id)

/-- The decoder of one instruction, on the bytes from its offset on: match (R76), fields (R81), trailing data
(R82 to R87), shape (R93), assembly. Total on any bytes; a refusal names its reason. -/
def decodeInstr (bs : List Byte) : Except DecodeError Instr := do
  let e ← matchOpcode bs
  let F₀ ← extractDeclared e bs
  let F ← extractTrailing e F₀ bs
  let _ ← e.needShape
  Instr.ofFields e F

/-! ## The encoder -/

/-- The mod field of a register-or-memory operand (R84). -/
def Rm.mod : Rm → BitVec 2
  | .reg _ => 0b11
  | .direct _ => 0b00
  | .mem _ .none => 0b00
  | .mem _ (.byte _) => 0b01
  | .mem _ (.word _) => 0b10

/-- The rm field of a register-or-memory operand (R84, R91). -/
def Rm.code : Rm → BitVec 3
  | .reg c => c
  | .direct _ => 0b110
  | .mem b _ => b.code

/-- The 16-bit pattern of a displacement (R85). -/
def Disp.value : Disp → Word
  | .none => 0
  | .byte v => sext8 v
  | .word v => v

/-- The disp value of a record (R85). -/
def Rm.disp : Rm → Word
  | .reg _ => 0
  | .direct a => a
  | .mem _ dp => dp.value

/-- The width of an immediate (R89). -/
def Imm.width : Imm → Width
  | .byte _ => .w8
  | .word _ => .w16

/-- The data value of an immediate (R86). -/
def Imm.value : Imm → Word
  | .byte v => zext8 v
  | .word v => v

/-- The width of an immediate of 0x80 to 0x83 (R89). -/
def ArithImm.width : ArithImm → Width
  | .byte _ _ => .w8
  | .word _ => .w16
  | .signed _ => .w16

/-- The s field of an immediate of 0x80 to 0x83 (R86). -/
def ArithImm.s : ArithImm → Bool
  | .byte s _ => s
  | .word _ => false
  | .signed _ => true

/-- The data value of an immediate of 0x80 to 0x83 (R86): one byte is sign-extended when s = 1 and w = 1. -/
def ArithImm.value : ArithImm → Word
  | .byte _ v => zext8 v
  | .word v => v
  | .signed v => sext8 v

/-- The mod, rm and disp fields of a register-or-memory operand. -/
def fieldsOfRm (rm : Rm) : RawFields :=
  { RawFields.empty with mod := some rm.mod, rm := some rm.code, disp := some rm.disp }

/-- The raw fields of an instruction of format RM. -/
def fieldsOfRM (d : Bool) (w : Width) (reg : BitVec 3) (rm : Rm) : RawFields :=
  { fieldsOfRm rm with d := some d, w := some w.bit, reg := some reg }

/-- The raw fields of an instruction of format IMMRM with an s field. -/
def fieldsOfIMMRM (rm : Rm) (imm : ArithImm) : RawFields :=
  { fieldsOfRm rm with s := some imm.s, w := some imm.width.bit, data := some imm.value }

/-- The w and data fields of an immediate. -/
def fieldsOfImm (imm : Imm) : RawFields :=
  { RawFields.empty with w := some imm.width.bit, data := some imm.value }

/-- The raw fields of an instruction of format ACCMEM. -/
def fieldsOfACCMEM (w : Width) (addr : Word) : RawFields :=
  { RawFields.empty with w := some w.bit, addr := some addr }

/-- The raw fields of an instruction of format SR; d stands in the opcode byte. -/
def fieldsOfSR (d : Bool) (sr : BitVec 2) (rm : Rm) : RawFields :=
  { fieldsOfRm rm with d := some d, sr := some sr }

/-- The raw fields of a jump. -/
def fieldsOfJMP (inc : Byte) : RawFields := { RawFields.empty with inc := some inc }

/-- The raw field values of an instruction (R37). -/
def Instr.fields : Instr → RawFields
  | .movRmR d w reg rm => fieldsOfRM d w reg rm
  | .movImmRm rm imm => { fieldsOfRm rm with w := some imm.width.bit, data := some imm.value }
  | .movImmR reg imm => { fieldsOfImm imm with reg := some reg }
  | .movAccMem w addr => fieldsOfACCMEM w addr
  | .movMemAcc w addr => fieldsOfACCMEM w addr
  | .movRmSr sr rm => fieldsOfSR true sr rm
  | .movSrRm sr rm => fieldsOfSR false sr rm
  | .addRmR d w reg rm => fieldsOfRM d w reg rm
  | .addImmRm rm imm => fieldsOfIMMRM rm imm
  | .addImmAcc imm => fieldsOfImm imm
  | .subRmR d w reg rm => fieldsOfRM d w reg rm
  | .subImmRm rm imm => fieldsOfIMMRM rm imm
  | .subImmAcc imm => fieldsOfImm imm
  | .cmpRmR d w reg rm => fieldsOfRM d w reg rm
  | .cmpImmRm rm imm => fieldsOfIMMRM rm imm
  | .cmpImmAcc imm => fieldsOfImm imm
  | .jo inc | .jno inc | .jb inc | .jnb inc | .je inc | .jne inc | .jbe inc | .ja inc => fieldsOfJMP inc
  | .js inc | .jns inc | .jp inc | .jnp inc | .jl inc | .jnl inc | .jle inc | .jg inc => fieldsOfJMP inc
  | .loopnz inc | .loopz inc | .loop inc | .jcxz inc => fieldsOfJMP inc

/-- The byte length of an instruction (R88). -/
def Instr.len (i : Instr) : Nat := recordLength i.descriptor i.fields

/-- A flag as a one-bit field's value. -/
def flagByte (b : Bool) : Byte := if b then 1 else 0

/-- The value a field kind holds in the opcode bytes; 0 where it is absent or a presence marker. -/
def RawFields.value (F : RawFields) : FieldKind → Byte
  | .direction => flagByte (F.d.getD false)
  | .sign => flagByte (F.s.getD false)
  | .wordSize => flagByte (F.w.getD false)
  | .mod => (F.mod.getD 0).setWidth 8
  | .register => (F.reg.getD 0).setWidth 8
  | .segmentRegister => (F.sr.getD 0).setWidth 8
  | .registerOrMemory => (F.rm.getD 0).setWidth 8
  | .opcodeLiteral | .displacementPresent | .immediateDataPresent | .absoluteAddressPresent
  | .shortJumpPresent => 0

/-- A value laid into byte `k` at a BitField's position: the inverse of the extractor. -/
def BitField.place (bf : BitField) (v : Byte) (k : Nat) : Byte :=
  if bf.byteIndex = k then (v &&& bf.mask) <<< bf.shiftRight else 0

/-- Opcode byte `k`: the match values and the field values, each at its position (R72, R74). -/
def opcodeByte (e : Descriptor) (F : RawFields) (k : Nat) : Byte :=
  let lit := e.primaryMatch.location.place e.primaryMatch.expectedValue k
  let sec := match e.secondaryMatch with
    | some m => m.location.place m.expectedValue k
    | none => 0
  e.fields.foldl (fun acc bf => acc ||| bf.place (F.value bf.kind) k) (lit ||| sec)

/-- The first `n` bytes of a word, low byte first (R53, R87). -/
def leBytes (n : Nat) (v : Word) : List Byte := [loByte v, hiByte v].take n

/-- The encoder: the opcode bytes of the catalog row with its fields in place, then displacement, immediate,
absolute address and increment (R72, R82). -/
def encode (i : Instr) : List Byte :=
  let e := i.descriptor
  let F := i.fields
  (List.range e.opcodeBytes).map (opcodeByte e F) ++
    leBytes (dispBytes e F) (F.disp.getD 0) ++
    leBytes (dataBytes e F) (F.data.getD 0) ++
    leBytes (addrBytes e) (F.addr.getD 0) ++
    (F.inc.toList.take (incBytes e))

/-! ## The host's question -/

/-- The bytes of an instruction whose bits are `w`, numbered as spec/opcode_table.json numbers them: byte `k`
is bits 8k+7..8k; every bit at or above `nbits` is 0. -/
def tableBytes (nbits w : Nat) : List Byte :=
  (List.range maxLength).map (fun k => BitVec.ofNat 8 ((w % 2 ^ nbits) >>> (8 * k)))

/-- The instruction the decoder reads from an opcode-table word. -/
def decodeTableWord (nbits w : Nat) : Option Instr :=
  match decodeInstr (tableBytes nbits w) with
  | .ok i => some i
  | .error _ => none

end Sys2Proof
end

