-- ==== Sys2Proof/Machine/State.lean ====
section
/-! DEFINITION. The engine's state as plain data (10_state.md), the fault codes (R262), the refusals, and the
state at reset (R42). -/

namespace Sys2Proof.Machine

/-- The eight 16-bit general registers, in the order of their codes (R20, R21). -/
structure Regs where
  AX : Word
  CX : Word
  DX : Word
  BX : Word
  SP : Word
  BP : Word
  SI : Word
  DI : Word
deriving DecidableEq, Repr

/-- The four 16-bit segment registers, in the order of their codes (R27). -/
structure Segs where
  ES : Word
  CS : Word
  SS : Word
  DS : Word
deriving DecidableEq, Repr

/-- The nine named flag bits (R28). -/
structure Flags where
  CF : Bool
  PF : Bool
  AF : Bool
  ZF : Bool
  SF : Bool
  TF : Bool
  IF : Bool
  DF : Bool
  OF : Bool
deriving DecidableEq, Repr

/-- Data memory (R38): the bytes that differ from 0x00, the value every byte has at reset (R42), as (address,
byte) pairs with the addresses strictly rising. -/
structure Memory where
  cells : List Host.Cell
deriving DecidableEq, Repr

/-- The run state (R40). -/
inductive RunState where
  | notStarted
  | running
  | halted
  | aborted
deriving DecidableEq, Repr

/-- A decoded record (R37): the instruction with its raw fields, its offset in the code buffer, and the three
clock components. Every other field of R37 is a function of the instruction: id, action, mnemonic, len,
fields (Decode.lean), src, dst (Operands.lean), text (Text.lean). -/
structure Record where
  instr : Instr
  off : Nat
  baseClocks : Nat
  eaClocks : Nat
  alignClocks : Nat
deriving DecidableEq, Repr

/-- The host-written configuration, latched before the run and constant during it (R39): the code buffer
(its length is L_code), the two switches, and DUMP_RANGE as (start, count). -/
structure HostInputs where
  code : List Byte
  shouldDisassemble : Bool
  shouldExecute : Bool
  dumpRange : Option (Word × Nat)
deriving DecidableEq, Repr

/-- The fault codes of R262 with the info each records. Each ends the run (R260); each is safe: the spec says
the machine stops there. -/
inductive Fault where
  /-- 1 UNMATCHED_OPCODE: raised by the matcher in the decode pass (R77); safe. -/
  | unmatchedOpcode (off : Nat) (bytes : List Byte)
  /-- 2 UNMATCHED_SHAPE: raised by the decoder for a descriptor without a shape (R93); safe. -/
  | unmatchedShape (off id : Nat)
  /-- 3 MISSING_CLOCK_ROW: raised by the clock estimator in the decode pass (R230); safe. -/
  | missingClockRow (off id : Nat) (src dst : OperandKind)
  /-- 4 TRUNCATED: raised by the extractor at the end of the buffer (R65); safe. -/
  | truncated (off : Nat)
  /-- 5 NO_FIELD: raised by the decoder for a field the descriptor lacks (R66); safe. -/
  | noField (off id : Nat) (kind : FieldKind)
  /-- 6 EXEC_INVARIANT: raised by the executor for an operand with no meaning (R127); safe. -/
  | execInvariant (idx id : Nat)
  /-- 7 JUMP_MISALIGNED: raised by a taken jump into a record, with its text and increment (R199); safe. -/
  | jumpMisaligned (text : String) (inc : Int)
  /-- 8 JUMP_OVERRUN: raised by a taken jump out of the program (R199); safe. -/
  | jumpOverrun (text : String) (inc : Int)
  /-- 9 CAPACITY: raised by the load (the buffer's length) or the decode pass (the offset) (R80, R282); safe. -/
  | capacity (n : Nat)
deriving DecidableEq, Repr

/-- The fault code's number (R262); 0 is NONE, the absence of a fault. -/
def Fault.code : Fault → Nat
  | .unmatchedOpcode _ _ => 1
  | .unmatchedShape _ _ => 2
  | .missingClockRow _ _ _ _ => 3
  | .truncated _ => 4
  | .noField _ _ _ => 5
  | .execInvariant _ _ => 6
  | .jumpMisaligned _ _ => 7
  | .jumpOverrun _ _ => 8
  | .capacity _ => 9

/-- Why a step is refused. -/
inductive Refusal where
  /-- An instruction without a meaning in this model, by its mnemonic; no arm of exec raises it. Safe. -/
  | notModelled (mnemonic : String)
  /-- A byte-width ADD, SUB or CMP under BYTE_ARITH_POLICY = refuse (R10, R166), raised by the arithmetic
  step; the default policy never raises it. Safe. -/
  | byteArithmetic (id : Nat)
  /-- A step asked of a halted engine, which takes none (R128), raised by step. Safe. -/
  | runHalted
  /-- A step asked of an aborted engine, which takes none (R260), raised by step. Safe. -/
  | runAborted
deriving DecidableEq, Repr

/-- The engine's whole state (10_state.md). -/
structure State where
  regs : Regs
  segs : Segs
  flags : Flags
  mem : Memory
  /-- The authoritative instruction pointer: an index into `store` (R32). -/
  idx : Nat
  /-- The same pointer as a byte offset, kept equal to off(idx) (R32). -/
  ipOffset : Nat
  /-- The running clock counter, unbounded (R35). -/
  clocks : Nat
  /-- The decoded-instruction store D[0 .. n-1] (R36). -/
  store : List Record
  runState : RunState
  /-- The latched fault code and info; none is NONE (R41, R42). -/
  fault : Option Fault
  /-- The host's latched inputs (R39). -/
  host : HostInputs
deriving DecidableEq, Repr

/-- All general registers zero (R42). -/
def Regs.zero : Regs := ⟨0, 0, 0, 0, 0, 0, 0, 0⟩

/-- All segment registers zero (R42). -/
def Segs.zero : Segs := ⟨0, 0, 0, 0⟩

/-- All flags false (R42). -/
def Flags.zero : Flags := ⟨false, false, false, false, false, false, false, false, false⟩

/-- No byte differs from 0x00 (R42). -/
def Memory.zero : Memory := ⟨[]⟩

/-- No program given yet. The host's inputs are not engine state and have no reset value in the spec (R281):
these values are the model's own (log entry 1). -/
def HostInputs.none : HostInputs := ⟨[], false, false, Option.none⟩

/-- The engine at run start, with the host's inputs latched (R42, R280). -/
def State.atRunStart (h : HostInputs) : State where
  regs := .zero
  segs := .zero
  flags := .zero
  mem := .zero
  idx := 0
  ipOffset := 0
  clocks := 0
  store := []
  runState := .notStarted
  fault := Option.none
  host := h

/-- The engine right after reset (R42, R280), before the host has given a program. -/
def State.reset : State := State.atRunStart .none

end Sys2Proof.Machine
end

