-- ==== Sys2Proof/Machine/Flags.lean ====
section
/-! DEFINITION. The flag computations: the two ALU operations with their six flags (R163 to R165), the flag
write-back (R170), the packed presentation of the flags (R31) and the jump predicates (R195, R196). -/

namespace Sys2Proof.Machine

/-- The six flags an ALU operation computes (R163, R164). -/
structure ArithFlags where
  CF : Bool
  PF : Bool
  AF : Bool
  ZF : Bool
  SF : Bool
  OF : Bool
deriving DecidableEq, Repr

/-- The number of set bits of the low byte. -/
def popcountLow (v : Word) : Nat := ((List.range 8).filter (fun k => v.getLsbD k)).length

/-- PF: the low byte has an even number of set bits, whatever W (R165). -/
def parity (v : Word) : Bool := popcountLow v % 2 == 0

/-- The top bit of a W-bit value, bit W - 1 (R163). -/
def topBit (w : Width) (v : Word) : Bool := v.getLsbD (w.bits - 1)

/-- ALU_ADD (R163): the exact sum of two W-bit values, narrowed to W bits, with carry out of the top bit,
carry out of bit 3, and the same-sign overflow test. -/
def aluAdd (old src : Word) (w : Width) : Word × ArithFlags :=
  let sum := old.toNat + src.toNat
  let res : Word := BitVec.ofNat 16 (sum % 2 ^ w.bits)
  (res,
    { CF := decide (2 ^ w.bits ≤ sum)
      PF := parity res
      AF := decide (old.toNat % 16 + src.toNat % 16 > 0xF)
      ZF := res == 0
      SF := topBit w res
      OF := (topBit w old == topBit w src) && (topBit w res != topBit w old) })

/-- ALU_SUB (R164): the difference modulo 2^W, with the unsigned borrow, the borrow from bit 4, and the
different-sign overflow test. -/
def aluSub (old src : Word) (w : Width) : Word × ArithFlags :=
  let res : Word := BitVec.ofNat 16 ((old.toNat + 2 ^ w.bits - src.toNat) % 2 ^ w.bits)
  (res,
    { CF := decide (src.toNat > old.toNat)
      PF := parity res
      AF := decide (src.toNat % 16 > old.toNat % 16)
      ZF := res == 0
      SF := topBit w res
      OF := (topBit w old != topBit w src) && (topBit w res != topBit w old) })

/-- writeFlags: the six arithmetic flags are written, TF, IF and DF kept (R170). -/
def Flags.writeArith (f : Flags) (a : ArithFlags) : Flags :=
  { f with CF := a.CF, PF := a.PF, AF := a.AF, ZF := a.ZF, SF := a.SF, OF := a.OF }

/-- A flag at its bit position of the packed word. -/
def flagBit (b : Bool) (k : Nat) : Word := if b then 1#16 <<< k else 0

/-- The packed FLAGS word of the final-state output (R31); no instruction reads or writes it. -/
def Flags.pack (f : Flags) : Word :=
  flagBit f.CF 0 ||| flagBit f.PF 2 ||| flagBit f.AF 4 ||| flagBit f.ZF 6 ||| flagBit f.SF 7 |||
    flagBit f.TF 8 ||| flagBit f.IF 9 ||| flagBit f.DF 10 ||| flagBit f.OF 11

/-! ## Jump predicates (R195, R196)

The negated conditional jumps (jno, jnb, jne, ja, jns, jnp, jnl, jg) are taken exactly when their partner is
not. -/

/-- jo: OF = 1 (R195). -/
def takenO (f : Flags) : Bool := f.OF

/-- jb: CF = 1 (R195). -/
def takenB (f : Flags) : Bool := f.CF

/-- je: ZF = 1 (R195). -/
def takenE (f : Flags) : Bool := f.ZF

/-- jbe: CF = 1 or ZF = 1 (R195). -/
def takenBE (f : Flags) : Bool := f.CF || f.ZF

/-- js: SF = 1 (R195). -/
def takenS (f : Flags) : Bool := f.SF

/-- jp: PF = 1 (R195). -/
def takenP (f : Flags) : Bool := f.PF

/-- jl: SF ≠ OF (R195). -/
def takenL (f : Flags) : Bool := f.SF != f.OF

/-- jle: ZF = 1 or SF ≠ OF (R195). -/
def takenLE (f : Flags) : Bool := f.ZF || (f.SF != f.OF)

/-- loopnz: CX ≠ 0 and ZF = 0, on the decremented CX (R196). -/
def takenLoopnz (f : Flags) (cx : Word) : Bool := (cx != 0) && !f.ZF

/-- loopz: CX ≠ 0 and ZF = 1, on the decremented CX (R196). -/
def takenLoopz (f : Flags) (cx : Word) : Bool := (cx != 0) && f.ZF

/-- loop: CX ≠ 0, on the decremented CX (R196). -/
def takenLoop (cx : Word) : Bool := cx != 0

/-- jcxz: CX = 0 (R196). -/
def takenCxz (cx : Word) : Bool := cx == 0

end Sys2Proof.Machine
end

