-- ==== Sys2Proof/Config.lean ====
section
/-! DEFINITION. The engine's named parameters (R7). The OPEN ones are constants without a body, so that no
proof can know their value (log entries 3, 4 and 14); BYTE_ARITH_POLICY stands at the spec's default. The default
BASE_CLOCKS table is Machine.baseClocksTable; DUMP_RANGE, shouldDisassemble and shouldExecute are host
inputs and stand in State. -/

namespace Sys2Proof

/-- BYTE_ARITH_POLICY (R7, R166): compute byte arithmetic at the operand width, or refuse it. -/
inductive ByteArithPolicy where
  | operandWidth
  | refuse
deriving DecidableEq, Repr

/-- One row of the timing table (R230): the key (id, source kind, destination kind), the base clocks, and
whether effective-address clocks are added. -/
structure TimingRow where
  id : Nat
  src : OperandKind
  dst : OperandKind
  base : Nat
  needsEA : Bool
deriving DecidableEq, Repr

/-- The parameters the load and the decode pass take as arguments (R7). -/
structure Params where
  codeCapacityBytes : Nat
  maxInstructions : Nat
  timing : List TimingRow
deriving DecidableEq, Repr

/-- MEM_SIZE (R7, R38). -/
def Config.memSize : Nat := 65536

/-- Free: CODE_CAPACITY_BYTES less one (R7 leaves it OPEN, "a positive natural number"). -/
opaque Config.codeCapacityPred : Nat

/-- Free: MAX_INSTRUCTIONS less one (R7 leaves it OPEN, "a positive natural number"). -/
opaque Config.maxInstructionsPred : Nat

/-- CODE_CAPACITY_BYTES: any positive natural number (R7, D21). -/
def Config.codeCapacityBytes : Nat := Config.codeCapacityPred + 1

/-- MAX_INSTRUCTIONS: any positive natural number (R7, D21). -/
def Config.maxInstructions : Nat := Config.maxInstructionsPred + 1

/-- Free: jumpBaseClocks(id), one natural number per jump descriptor (R7, R236, D13). -/
opaque Config.jumpBaseClocks : Nat → Nat

/-- Free: the 16-bit ipOffset output (R292) of a pointer at 65536 or beyond, which does not fit it: the pointer
itself does not wrap (R34), and no rule says what the output then holds (log entry 14). -/
opaque Config.wideOffset : Nat → Word

/-- BYTE_ARITH_POLICY at the spec's default, operand_width (R7, R166). -/
def Config.byteArithPolicy : ByteArithPolicy := .operandWidth

end Sys2Proof
end

