-- ==== Sys2Proof/Machine/Ops.lean ====
section
/-! DEFINITION. The named operations over registers, memory, the decoded store and the run state that every
instruction shares: register access with byte aliasing (R21 to R27), little-endian memory (R51, R52), record
offsets (R32), raising a fault (R260), the jump walk (R197) and the end of a run (R40). -/

namespace Sys2Proof.Machine

/-! ## General registers -/

/-- reg16[i] (R21). -/
def Regs.get16 (r : Regs) (i : BitVec 3) : Word :=
  match i with
  | 0b000 => r.AX
  | 0b001 => r.CX
  | 0b010 => r.DX
  | 0b011 => r.BX
  | 0b100 => r.SP
  | 0b101 => r.BP
  | 0b110 => r.SI
  | 0b111 => r.DI

/-- reg16[i] <- v (R21). -/
def Regs.set16 (r : Regs) (i : BitVec 3) (v : Word) : Regs :=
  match i with
  | 0b000 => { r with AX := v }
  | 0b001 => { r with CX := v }
  | 0b010 => { r with DX := v }
  | 0b011 => { r with BX := v }
  | 0b100 => { r with SP := v }
  | 0b101 => { r with BP := v }
  | 0b110 => { r with SI := v }
  | 0b111 => { r with DI := v }

/-- The code of the 16-bit register that owns the 8-bit register `i`: i for the low halves AL to BL, i - 4 for
the high halves AH to BH (R23). -/
def parent (i : BitVec 3) : BitVec 3 := i &&& 0b011

/-- Whether the 8-bit register `i` is a high half: i ≥ 4 (R23). -/
def isHigh (i : BitVec 3) : Bool := i.getLsbD 2

/-- reg8[i] (R23). -/
def Regs.get8 (r : Regs) (i : BitVec 3) : Byte :=
  if isHigh i then hiByte (r.get16 (parent i)) else loByte (r.get16 (parent i))

/-- reg8[i] <- v: the other half of the parent is kept (R23, R24). -/
def Regs.set8 (r : Regs) (i : BitVec 3) (v : Byte) : Regs :=
  let old := r.get16 (parent i)
  if isHigh i then r.set16 (parent i) (joinBytes v (loByte old))
  else r.set16 (parent i) (joinBytes (hiByte old) v)

/-! ## Segment registers -/

/-- sreg[i] (R27). -/
def Segs.get (g : Segs) (i : BitVec 2) : Word :=
  match i with
  | 0b00 => g.ES
  | 0b01 => g.CS
  | 0b10 => g.SS
  | 0b11 => g.DS

/-- sreg[i] <- v (R27). -/
def Segs.set (g : Segs) (i : BitVec 2) (v : Word) : Segs :=
  match i with
  | 0b00 => { g with ES := v }
  | 0b01 => { g with CS := v }
  | 0b10 => { g with SS := v }
  | 0b11 => { g with DS := v }

/-! ## Data memory -/

/-- The byte an unlisted address reads as: memory is zeroed at run start (R42). -/
def unlistedByte : Byte := 0

/-- The byte a cell list holds at an address. -/
def cellsRead (a : Nat) : List Host.Cell → Byte
  | [] => unlistedByte
  | c :: cs => if c.1 = a then c.2 else cellsRead a cs

/-- The cell list with one byte changed, kept in canonical form: addresses strictly rising, no entry equal to
what an unlisted address reads as. -/
def cellsWrite (a : Nat) (v : Byte) : List Host.Cell → List Host.Cell
  | [] => if v = unlistedByte then [] else [(a, v)]
  | c :: cs =>
    if a < c.1 then (if v = unlistedByte then c :: cs else (a, v) :: c :: cs)
    else if c.1 = a then (if v = unlistedByte then cs else (a, v) :: cs)
    else c :: cellsWrite a v cs

/-- The canonical form of a cell list above a lower bound: every address is at least `lo` and below 65536
(R48), the addresses rise strictly, and no listed byte is the unlisted one. -/
def cellsWf (lo : Nat) : List Host.Cell → Bool
  | [] => true
  | c :: cs => decide (lo ≤ c.1) && decide (c.1 < Config.memSize) && (c.2 != unlistedByte) && cellsWf (c.1 + 1) cs

/-- Data memory is in canonical form. -/
def Memory.wf (m : Memory) : Bool := cellsWf 0 m.cells

/-- mem[a] (R51): every 16-bit address names a byte (R48). -/
def Memory.read (m : Memory) (a : Word) : Byte := cellsRead a.toNat m.cells

/-- mem[a] <- v (R52). -/
def Memory.write (m : Memory) (a : Word) (v : Byte) : Memory := ⟨cellsWrite a.toNat v m.cells⟩

/-- MemRead(a, n), little-endian; the high byte of a word at 0xFFFF is at 0x0000 (R51). A byte is
zero-extended. -/
def memRead (m : Memory) (a : Word) (w : Width) : Word :=
  match w with
  | .w8 => zext8 (m.read a)
  | .w16 => joinBytes (m.read (a + 1)) (m.read a)

/-- MemWrite(a, n, v), with the same byte order and wrap (R52). -/
def memWrite (m : Memory) (a : Word) (w : Width) (v : Word) : Memory :=
  match w with
  | .w8 => m.write a (loByte v)
  | .w16 => (m.write a (loByte v)).write (a + 1) (hiByte v)

/-- The addresses a store of width `w` at `a` writes (R52). -/
def storedBytes (a : Word) (w : Width) : List Word :=
  match w with
  | .w8 => [a]
  | .w16 => [a, a + 1]

/-! ## The decoded store -/

/-- The byte length of a record (R37). -/
def Record.len (r : Record) : Nat := r.instr.len

/-- off(j): the sum of the byte lengths of records 0 .. j-1 (R12, R32). -/
def offsetOf (store : List Record) (j : Nat) : Nat := ((store.take j).map Record.len).sum

/-- The record being executed, D[idx] (R33). -/
def State.current (s : State) : Option Record := s.store[s.idx]?

/-- The base and effective-address clocks of the record being executed (R121, R244). -/
def State.recordClocks (s : State) : Nat :=
  match s.current with
  | some r => r.baseClocks + r.eaClocks
  | none => 0

/-- A record with its alignment clocks patched, the one field execution changes (R245). -/
def Record.withAlign (r : Record) (align : Nat) : Record := { r with alignClocks := align }

/-! ## Faults and the run state -/

/-- raise Fault(code, info): the run state becomes aborted and the fault is latched for the host; nothing else
is saved and control goes nowhere (R260). -/
def State.raise (f : Fault) (s : State) : State := { s with runState := .aborted, fault := some f }

/-- reset() at the start of a run: every piece of engine state at its reset value, the host's inputs kept
(R280, R282). -/
def State.restart (s : State) : State := State.atRunStart s.host

/-- The run loop's exit: running becomes halted when idx has reached n (R40, R120). -/
def State.haltIfDone (s : State) : State :=
  if s.idx < s.store.length then s else { s with runState := .halted }

/-! ## The jump walk -/

/-- Why a walk fails (R199). -/
inductive WalkFault where
  | misaligned
  | overrun
deriving DecidableEq, Repr

/-- The loop of R197 over the records in the walk's direction: add byte lengths until the sum reaches `goal`;
running out of records is an overrun, overshooting it a misaligned target. Answers how many records were
passed. -/
def walk (goal : Nat) : List Record → Nat → Nat → Except WalkFault Nat
  | [], acc, k =>
    if acc < goal then .error .overrun else if acc = goal then .ok k else .error .misaligned
  | r :: rs, acc, k =>
    if acc < goal then walk goal rs (acc + r.len) (k + 1)
    else if acc = goal then .ok k
    else .error .misaligned

/-- landing(i, inc) (R197): forward from record i + 1, or backward from record i itself, whose own length
counts because the increment is relative to the end of the jump. -/
def landing (store : List Record) (i : Nat) (inc : Int) : Except WalkFault Nat :=
  if 0 ≤ inc then
    match walk inc.toNat (store.drop (i + 1)) 0 0 with
    | .ok k => .ok (i + 1 + k)
    | .error e => .error e
  else
    match walk (-inc).toNat (store.take (i + 1)).reverse 0 0 with
    | .ok k => .ok (i + 1 - k)
    | .error e => .error e

end Sys2Proof.Machine
end

