-- ==== Sys2Proof/Machine/Operands.lean ====
section
/-! DEFINITION. Operand construction (R90 to R96), effective addresses (R91, R97, R98) and operand reads and
writes (R125, R126). -/

namespace Sys2Proof.Machine

/-! ## Source and destination of a record -/

/-- A record's content by shape (R93, R94): the operands it names, before a side is chosen. -/
inductive Form where
  | shortJump (inc : Byte)
  | accumulatorAbsolute (isSource : Bool) (w : Width) (addr : Word)
  | segmentRm (d : Bool) (sr : BitVec 2) (rm : Rm)
  | registerRm (d : Bool) (w : Width) (reg : BitVec 3) (rm : Rm)
  | immediateRm (w : Width) (data : Word) (rm : Rm)
  | immediateRegister (w : Width) (data : Word) (reg : BitVec 3)
deriving DecidableEq, Repr

/-- The shape a form has (R93). -/
def Form.shape : Form → Shape
  | .shortJump _ => .shortJump
  | .accumulatorAbsolute _ _ _ => .accumulatorAbsolute
  | .segmentRm _ _ _ => .segmentRm
  | .registerRm _ _ _ _ => .registerRm
  | .immediateRm _ _ _ => .immediateRm
  | .immediateRegister _ _ _ => .immediateRegister

/-- The accumulator: fixed register 0 (R96). -/
def accumulator : BitVec 3 := 0

/-- The form of an instruction: its shape (R93) with its fields. MOV_RM_SR has d = 1, MOV_SR_RM d = 0. -/
def form : Instr → Form
  | .movRmR d w reg rm => .registerRm d w reg rm
  | .movImmRm rm imm => .immediateRm imm.width imm.value rm
  | .movImmR reg imm => .immediateRegister imm.width imm.value reg
  | .movAccMem w addr => .accumulatorAbsolute false w addr
  | .movMemAcc w addr => .accumulatorAbsolute true w addr
  | .movRmSr sr rm => .segmentRm true sr rm
  | .movSrRm sr rm => .segmentRm false sr rm
  | .addRmR d w reg rm => .registerRm d w reg rm
  | .addImmRm rm imm => .immediateRm imm.width imm.value rm
  | .addImmAcc imm => .immediateRegister imm.width imm.value accumulator
  | .subRmR d w reg rm => .registerRm d w reg rm
  | .subImmRm rm imm => .immediateRm imm.width imm.value rm
  | .subImmAcc imm => .immediateRegister imm.width imm.value accumulator
  | .cmpRmR d w reg rm => .registerRm d w reg rm
  | .cmpImmRm rm imm => .immediateRm imm.width imm.value rm
  | .cmpImmAcc imm => .immediateRegister imm.width imm.value accumulator
  | .jo inc | .jno inc | .jb inc | .jnb inc | .je inc | .jne inc | .jbe inc | .ja inc => .shortJump inc
  | .js inc | .jns inc | .jp inc | .jnp inc | .jl inc | .jnl inc | .jle inc | .jg inc => .shortJump inc
  | .loopnz inc | .loopz inc | .loop inc | .jcxz inc => .shortJump inc

/-- rmOperand(): the register-or-memory operand at a width (R92). -/
def rmOperand (rm : Rm) (w : Width) : Operand :=
  match rm with
  | .reg c => .reg c w
  | .direct a => .abs a w
  | .mem b dp => .mem b dp.value w

/-- The source operand by shape (R94); the segment moves are at width 16 (R89). -/
def Form.src : Form → Operand
  | .shortJump _ => .none
  | .accumulatorAbsolute isSource w addr => if isSource then .reg accumulator w else .abs addr w
  | .segmentRm d sr rm => if d then rmOperand rm .w16 else .sreg sr
  | .registerRm d w reg rm => if d then rmOperand rm w else .reg reg w
  | .immediateRm w data _ => .imm data w
  | .immediateRegister w data _ => .imm data w

/-- The destination operand by shape (R94); a jump's is the relative target with its length, two bytes. -/
def Form.dst : Form → Operand
  | .shortJump inc => .jmp inc 2
  | .accumulatorAbsolute isSource w addr => if isSource then .abs addr w else .reg accumulator w
  | .segmentRm d sr rm => if d then .sreg sr else rmOperand rm .w16
  | .registerRm d w reg rm => if d then .reg reg w else rmOperand rm w
  | .immediateRm w _ rm => rmOperand rm w
  | .immediateRegister w _ reg => .reg reg w

/-- A record's source operand (R37, R94). -/
def src (i : Instr) : Operand := (form i).src

/-- A record's destination operand (R37, R94). -/
def dst (i : Instr) : Operand := (form i).dst

/-- A record is memory-indirect when its r/m operand is MEM or ABS, mod ≠ 11 (R95). -/
def memoryIndirect (i : Instr) : Bool :=
  match i.rm? with
  | some rm => rm.mod != 0b11
  | none => false

/-- dst.prefix (R95): only the immediate/register-or-memory shape sets one. -/
def dstPrefix (i : Instr) : Bool :=
  match form i with
  | .immediateRm _ _ _ => i.descriptor.forcesDestinationSizePrefix && memoryIndirect i
  | _ => false

/-- src.prefix (R95). -/
def srcPrefix (i : Instr) : Bool :=
  match form i with
  | .immediateRm _ _ _ => !i.descriptor.forcesDestinationSizePrefix && memoryIndirect i
  | _ => false

/-! ## Effective addresses -/

/-- The base value of an effective address (R91). -/
def baseValue (r : Regs) : Base → Word
  | .bxSi => r.BX + r.SI
  | .bxDi => r.BX + r.DI
  | .bpSi => r.BP + r.SI
  | .bpDi => r.BP + r.DI
  | .si => r.SI
  | .di => r.DI
  | .bp => r.BP
  | .bx => r.BX

/-- The effective address of a memory operand: base plus displacement modulo 2^16 (R97), or the constant of an
absolute address (R98). Segment registers are not added. -/
def effectiveAddress (r : Regs) : Operand → Option Word
  | .mem b disp _ => some (baseValue r b + disp)
  | .abs a _ => some a
  | .reg _ _ | .sreg _ | .imm _ _ | .jmp _ _ | .none => none

/-- The width of an operand that has one (R89, R90); a segment register is 16 bits. -/
def operandWidth : Operand → Option Width
  | .reg _ w | .mem _ _ w | .imm _ w | .abs _ w => some w
  | .sreg _ => some .w16
  | .jmp _ _ | .none => none

/-- The addresses a write of an operand stores to, from the registers before the step (R97, R123). -/
def operandStores (r : Regs) (op : Operand) : List Word :=
  match effectiveAddress r op, operandWidth op with
  | some a, some w => storedBytes a w
  | _, _ => []

/-! ## Reading and writing operands -/

/-- An immediate's value at its width: v[W-1:0] (R125). -/
def immValue (v : Word) : Width → Word
  | .w8 => zext8 (loByte v)
  | .w16 => v

/-- readOp (R125), a byte value zero-extended; none stands for its raise of EXEC_INVARIANT. -/
def readOp (op : Operand) (s : State) : Option Word :=
  match op with
  | .reg c .w16 => some (s.regs.get16 c)
  | .reg c .w8 => some (zext8 (s.regs.get8 c))
  | .sreg c => some (s.segs.get c)
  | .mem b disp w => some (memRead s.mem (baseValue s.regs b + disp) w)
  | .abs a w => some (memRead s.mem a w)
  | .imm v w => some (immValue v w)
  | .jmp inc _ => some (sext8 inc)
  | .none => none

/-- writeOp (R126); none stands for its raise of EXEC_INVARIANT. -/
def writeOp (op : Operand) (v : Word) (s : State) : Option State :=
  match op with
  | .reg c .w16 => some { s with regs := s.regs.set16 c v }
  | .reg c .w8 => some { s with regs := s.regs.set8 c (loByte v) }
  | .sreg c => some { s with segs := s.segs.set c v }
  | .mem b disp w => some { s with mem := memWrite s.mem (baseValue s.regs b + disp) w v }
  | .abs a w => some { s with mem := memWrite s.mem a w v }
  | .imm _ _ | .jmp _ _ | .none => none

end Sys2Proof.Machine
end

