-- ==== Sys2Proof/Machine/Clocks.lean ====
section
/-! DEFINITION. The clock estimator (44_clocks.md): the default timing table, the effective-address table, the
alignment penalty, and the end of a step, which charges the clocks and moves the pointer (R121). -/

namespace Sys2Proof.Machine

/-! ## Timing table -/

/-- Two rows with the same values, one for MEM and one for ABS as the source (R234). -/
def rowsSrcMem (id : Nat) (dst : OperandKind) (base : Nat) : List TimingRow :=
  [⟨id, .mem, dst, base, true⟩, ⟨id, .abs, dst, base, true⟩]

/-- Two rows with the same values, one for MEM and one for ABS as the destination (R234). -/
def rowsDstMem (id : Nat) (src : OperandKind) (base : Nat) : List TimingRow :=
  [⟨id, src, .mem, base, true⟩, ⟨id, src, .abs, base, true⟩]

/-- The rows of the seven moves (R234). -/
def moveRows : List TimingRow :=
  [⟨1, .reg, .reg, 2, false⟩] ++ rowsSrcMem 1 .reg 8 ++ rowsDstMem 1 .reg 9 ++
  [⟨2, .imm, .reg, 4, false⟩] ++ rowsDstMem 2 .imm 10 ++
  [⟨3, .imm, .reg, 4, false⟩, ⟨4, .abs, .reg, 10, false⟩, ⟨5, .reg, .abs, 10, false⟩] ++
  [⟨6, .reg, .sreg, 2, false⟩] ++ rowsSrcMem 6 .sreg 8 ++
  [⟨7, .sreg, .reg, 2, false⟩] ++ rowsDstMem 7 .sreg 9

/-- The rows of ADD, or of SUB, whose three descriptors start at `id` (R234). -/
def addSubRows (id : Nat) : List TimingRow :=
  [⟨id, .reg, .reg, 3, false⟩] ++ rowsSrcMem id .reg 9 ++ rowsDstMem id .reg 16 ++
  [⟨id + 1, .imm, .reg, 4, false⟩] ++ rowsDstMem (id + 1) .imm 17 ++
  [⟨id + 2, .imm, .reg, 4, false⟩]

/-- The rows of CMP (R234). -/
def cmpRows : List TimingRow :=
  [⟨14, .reg, .reg, 3, false⟩] ++ rowsSrcMem 14 .reg 9 ++ rowsDstMem 14 .reg 9 ++
  [⟨15, .imm, .reg, 4, false⟩] ++ rowsDstMem 15 .imm 10 ++
  [⟨16, .imm, .reg, 4, false⟩]

/-- The rows of the twenty jumps: one open value per descriptor, taken or not (R236). -/
def jumpRows : List TimingRow :=
  (List.range 20).map (fun k => ⟨17 + k, .none, .jmp, Config.jumpBaseClocks (17 + k), false⟩)

/-- BASE_CLOCKS, the default timing table (R234). -/
def baseClocksTable : List TimingRow := moveRows ++ addSubRows 8 ++ addSubRows 11 ++ cmpRows ++ jumpRows

/-- The row of a key (R230). -/
def timingRow (table : List TimingRow) (id : Nat) (sk dk : OperandKind) : Option TimingRow :=
  table.find? (fun r => r.id == id && r.src == sk && r.dst == dk)

/-- The timing row of an instruction: the key is its id with the kinds of its operands (R230, R231). -/
def rowOf (table : List TimingRow) (i : Instr) : Option TimingRow :=
  timingRow table i.id (src i).kind (dst i).kind

/-! ## Effective-address table -/

/-- The mod = 00 column of the table, by rm; rm = 110 is the direct address (R237). -/
def eaColumnPlain (rm : BitVec 3) : Nat :=
  match rm with
  | 0b000 => 7
  | 0b001 => 8
  | 0b010 => 8
  | 0b011 => 7
  | 0b100 => 5
  | 0b101 => 5
  | 0b110 => 6
  | 0b111 => 5

/-- The mod = 01 and mod = 10 column of the table, by rm (R237). -/
def eaColumnDisp (rm : BitVec 3) : Nat :=
  match rm with
  | 0b000 => 11
  | 0b001 => 12
  | 0b010 => 12
  | 0b011 => 11
  | 0b100 => 9
  | 0b101 => 9
  | 0b110 => 9
  | 0b111 => 9

/-- The 16-path table keyed by (mod, rm) (R237), with its one data-dependent entry, BP with a zero 8-bit
displacement (R238). Register-direct mod has no path: no row with needsEA has a register as its r/m operand. -/
def eaTable (mod : BitVec 2) (rm : BitVec 3) (disp : Word) : Nat :=
  match mod with
  | 0b00 => eaColumnPlain rm
  | 0b01 => if rm = 0b110 ∧ disp = 0 then 5 else eaColumnDisp rm
  | 0b10 => eaColumnDisp rm
  | 0b11 => 0

/-- The EA clocks of a register-or-memory operand: the table at its mod, rm and displacement (R230). -/
def eaClocks (rm : Rm) : Nat := eaTable rm.mod rm.code rm.disp

/-! ## Alignment penalty -/

/-- Whether an operand is a word in memory at an odd effective address (R240). -/
def oddWord (r : Regs) (op : Operand) : Bool :=
  match effectiveAddress r op with
  | some a => (operandWidth op == some .w16) && a.getLsbD 0
  | none => false

/-- alignClocks(I), from the registers before the step: 4 once per instruction (R240). -/
def alignClocks (i : Instr) (r : Regs) : Nat := if oddWord r (src i) || oddWord r (dst i) then 4 else 0

/-- Whether an operand is a word at an odd absolute address (R242). -/
def oddAbsWord : Operand → Bool
  | .abs a .w16 => a.getLsbD 0
  | _ => false

/-- alignAtDecode(I): exact for an ABS word operand, else 0 (R243). -/
def alignAtDecode (i : Instr) : Nat := if oddAbsWord (src i) || oddAbsWord (dst i) then 4 else 0

/-- clockDecode(I): the record of an instruction at an offset, its clocks looked up in the timing table
(R230); a missing row is MISSING_CLOCK_ROW. A row that asks for EA clocks of a record without mod and rm
extracts a field its descriptor lacks, which is NO_FIELD (R66); the default table has no such row. -/
def clockDecode (table : List TimingRow) (i : Instr) (off : Nat) : Except Fault Record :=
  match rowOf table i with
  | none => .error (.missingClockRow off i.id (src i).kind (dst i).kind)
  | some row =>
    if row.needsEA then
      match i.rm? with
      | some rm => .ok ⟨i, off, row.base, eaClocks rm, alignAtDecode i⟩
      | none => .error (.noField off i.id .mod)
    else .ok ⟨i, off, row.base, 0, alignAtDecode i⟩

/-! ## The end of a step -/

/-- The last three lines of R121's step, after the instruction's writes have made `t`: the alignment clocks,
computed from the state before the step, are patched into the record (R245); base, EA and alignment clocks
are added to the counter (R244); the pointer moves to `next` (R33). -/
def retire (i : Instr) (before : State) (next : Nat) (t : State) : State :=
  let align := alignClocks i before.regs
  { t with
    store := t.store.modify t.idx (fun r => r.withAlign align)
    clocks := t.clocks + t.recordClocks + align
    idx := next
    ipOffset := offsetOf t.store next }

end Sys2Proof.Machine
end

