-- ==== Sys2Proof/Machine/Move.lean ====
section
/-! DEFINITION. The move family (41_move.md, ids 1 to 7): one definition per descriptor over the shared step
of R140. -/

namespace Sys2Proof.Machine

/-- EXEC_INVARIANT for the record being executed (R127). -/
def execInvariant (i : Instr) (s : State) : Host.Outcome State Fault Refusal :=
  .fault (.execInvariant s.idx i.id)

/-- execMove(I) (R140): READ_SRC, WRITE_DST, then the end of the step (R121). No flag changes. -/
def moveStep (i : Instr) (s : State) : Host.Outcome State Fault Refusal :=
  match readOp (src i) s with
  | none => execInvariant i s
  | some v =>
    match writeOp (dst i) v s with
    | none => execInvariant i s
    | some t => .next (retire i s (s.idx + 1) t)

/-- MOV_RM_R (R141). -/
def execMovRmR (d : Bool) (w : Width) (reg : BitVec 3) (rm : Rm) (s : State) : Host.Outcome State Fault Refusal :=
  moveStep (.movRmR d w reg rm) s

/-- MOV_IMM_RM (R142). -/
def execMovImmRm (rm : Rm) (imm : Imm) (s : State) : Host.Outcome State Fault Refusal :=
  moveStep (.movImmRm rm imm) s

/-- MOV_IMM_R (R143). -/
def execMovImmR (reg : BitVec 3) (imm : Imm) (s : State) : Host.Outcome State Fault Refusal :=
  moveStep (.movImmR reg imm) s

/-- MOV_ACC_MEM (R144). -/
def execMovAccMem (w : Width) (addr : Word) (s : State) : Host.Outcome State Fault Refusal :=
  moveStep (.movAccMem w addr) s

/-- MOV_MEM_ACC (R145). -/
def execMovMemAcc (w : Width) (addr : Word) (s : State) : Host.Outcome State Fault Refusal :=
  moveStep (.movMemAcc w addr) s

/-- MOV_RM_SR (R146). -/
def execMovRmSr (sr : BitVec 2) (rm : Rm) (s : State) : Host.Outcome State Fault Refusal :=
  moveStep (.movRmSr sr rm) s

/-- MOV_SR_RM (R147). -/
def execMovSrRm (sr : BitVec 2) (rm : Rm) (s : State) : Host.Outcome State Fault Refusal :=
  moveStep (.movSrRm sr rm) s

end Sys2Proof.Machine
end

