-- ==== Sys2Proof/Machine/Arith.lean ====
section
/-! DEFINITION. The arithmetic family (42_arith.md, ids 8 to 16): one definition per descriptor over the shared
step of R160 to R162, which takes BYTE_ARITH_POLICY as an argument (R166). -/

namespace Sys2Proof.Machine

/-- The ALU operation an arithmetic action runs (R124). -/
inductive AluOp where
  | add
  | sub
deriving DecidableEq, Repr

/-- ALU_ADD or ALU_SUB (R163, R164). -/
def alu (op : AluOp) (old source : Word) (w : Width) : Word × ArithFlags :=
  match op with
  | .add => aluAdd old source w
  | .sub => aluSub old source w

/-- Whether the policy declines a record of this width (R166). -/
def byteRefused (policy : ByteArithPolicy) (w : Width) : Bool :=
  match policy, w with
  | .refuse, .w8 => true
  | .refuse, .w16 => false
  | .operandWidth, _ => false

/-- The arithmetic step (R160 to R162): READ_DST, READ_SRC, the ALU, WRITE_DST unless it is a compare,
WRITE_FLAGS, then the end of the step (R121). Under BYTE_ARITH_POLICY = refuse a byte record is refused. -/
def arithStep (policy : ByteArithPolicy) (op : AluOp) (writesBack : Bool) (w : Width) (i : Instr) (s : State) :
    Host.Outcome State Fault Refusal :=
  if byteRefused policy w then .refused (.byteArithmetic i.id)
  else
    match readOp (dst i) s, readOp (src i) s with
    | some old, some source =>
      let r := alu op old source w
      match (if writesBack then writeOp (dst i) r.1 s else some s) with
      | none => execInvariant i s
      | some t => .next (retire i s (s.idx + 1) { t with flags := t.flags.writeArith r.2 })
    | _, _ => execInvariant i s

/-- execAdd(I) (R160). -/
def addStep (w : Width) (i : Instr) (s : State) : Host.Outcome State Fault Refusal :=
  arithStep Config.byteArithPolicy .add true w i s

/-- execSub(I) (R161). -/
def subStep (w : Width) (i : Instr) (s : State) : Host.Outcome State Fault Refusal :=
  arithStep Config.byteArithPolicy .sub true w i s

/-- execCmp(I): as a subtraction, without the write-back (R162). -/
def cmpStep (w : Width) (i : Instr) (s : State) : Host.Outcome State Fault Refusal :=
  arithStep Config.byteArithPolicy .sub false w i s

/-- ADD_RM_R (R171). -/
def execAddRmR (d : Bool) (w : Width) (reg : BitVec 3) (rm : Rm) (s : State) : Host.Outcome State Fault Refusal :=
  addStep w (.addRmR d w reg rm) s

/-- ADD_IMM_RM (R172). -/
def execAddImmRm (rm : Rm) (imm : ArithImm) (s : State) : Host.Outcome State Fault Refusal :=
  addStep imm.width (.addImmRm rm imm) s

/-- ADD_IMM_ACC (R173). -/
def execAddImmAcc (imm : Imm) (s : State) : Host.Outcome State Fault Refusal :=
  addStep imm.width (.addImmAcc imm) s

/-- SUB_RM_R (R174). -/
def execSubRmR (d : Bool) (w : Width) (reg : BitVec 3) (rm : Rm) (s : State) : Host.Outcome State Fault Refusal :=
  subStep w (.subRmR d w reg rm) s

/-- SUB_IMM_RM (R175). -/
def execSubImmRm (rm : Rm) (imm : ArithImm) (s : State) : Host.Outcome State Fault Refusal :=
  subStep imm.width (.subImmRm rm imm) s

/-- SUB_IMM_ACC (R176). -/
def execSubImmAcc (imm : Imm) (s : State) : Host.Outcome State Fault Refusal :=
  subStep imm.width (.subImmAcc imm) s

/-- CMP_RM_R (R177). -/
def execCmpRmR (d : Bool) (w : Width) (reg : BitVec 3) (rm : Rm) (s : State) : Host.Outcome State Fault Refusal :=
  cmpStep w (.cmpRmR d w reg rm) s

/-- CMP_IMM_RM (R178). -/
def execCmpImmRm (rm : Rm) (imm : ArithImm) (s : State) : Host.Outcome State Fault Refusal :=
  cmpStep imm.width (.cmpImmRm rm imm) s

/-- CMP_IMM_ACC (R179). -/
def execCmpImmAcc (imm : Imm) (s : State) : Host.Outcome State Fault Refusal :=
  cmpStep imm.width (.cmpImmAcc imm) s

end Sys2Proof.Machine
end

