-- ==== Sys2Proof/Machine/Text.lean ====
section
/-! DEFINITION. The display text of a record (R102 to R105). No rule of the machine reads it; a jump fault
reports it (R199) and the listing shows it (R107). -/

namespace Sys2Proof.Machine

/-- The lower-case names of the 16-bit registers by code (R21, R103). -/
def reg16Name (c : BitVec 3) : String :=
  match c with
  | 0b000 => "ax"
  | 0b001 => "cx"
  | 0b010 => "dx"
  | 0b011 => "bx"
  | 0b100 => "sp"
  | 0b101 => "bp"
  | 0b110 => "si"
  | 0b111 => "di"

/-- The lower-case names of the 8-bit registers by code (R23, R103). -/
def reg8Name (c : BitVec 3) : String :=
  match c with
  | 0b000 => "al"
  | 0b001 => "cl"
  | 0b010 => "dl"
  | 0b011 => "bl"
  | 0b100 => "ah"
  | 0b101 => "ch"
  | 0b110 => "dh"
  | 0b111 => "bh"

/-- The segment register names by code (R27, R103). -/
def sregName (c : BitVec 2) : String :=
  match c with
  | 0b00 => "es"
  | 0b01 => "cs"
  | 0b10 => "ss"
  | 0b11 => "ds"

/-- A base expression's text (R103). -/
def baseName : Base → String
  | .bxSi => "bx + si"
  | .bxDi => "bx + di"
  | .bpSi => "bp + si"
  | .bpDi => "bp + di"
  | .si => "si"
  | .di => "di"
  | .bp => "bp"
  | .bx => "bx"

/-- A signed number in decimal, a minus sign when it is negative (R103). -/
def signedText (v : Int) : String :=
  if v < 0 then "-" ++ Nat.repr v.natAbs else Nat.repr v.natAbs

/-- A displacement's suffix: sign and magnitude, empty when it is zero (R103). -/
def dispText (v : Int) : String :=
  if v = 0 then ""
  else if v < 0 then " - " ++ Nat.repr v.natAbs
  else " + " ++ Nat.repr v.natAbs

/-- A signed increment with an explicit sign (R104). -/
def incText (v : Int) : String :=
  if v < 0 then "-" ++ Nat.repr v.natAbs else "+" ++ Nat.repr v.natAbs

/-- signed16 or signed8 of an immediate at its width (R103). -/
def immSigned (v : Word) : Width → Int
  | .w8 => (loByte v).toInt
  | .w16 => v.toInt

/-- The text of an operand by kind (R103, R104). -/
def operandText : Operand → String
  | .reg c .w16 => reg16Name c
  | .reg c .w8 => reg8Name c
  | .sreg c => sregName c
  | .mem b disp _ => "[" ++ baseName b ++ dispText disp.toInt ++ "]"
  | .imm v w => signedText (immSigned v w)
  | .abs a _ => "[" ++ Nat.repr a.toNat ++ "]"
  | .jmp inc len => "$+" ++ Nat.repr len ++ incText inc.toInt
  | .none => ""

/-- The size keyword of a width (R105). -/
def sizeWord : Width → String
  | .w8 => "byte "
  | .w16 => "word "

/-- The size keyword before an operand whose prefix flag is set (R105). -/
def prefixText (flag : Bool) (op : Operand) : String :=
  if flag then
    match operandWidth op with
    | some w => sizeWord w
    | none => ""
  else ""

/-- A record's destination text with its prefix (R105). -/
def dstText (i : Instr) : String := prefixText (dstPrefix i) (dst i) ++ operandText (dst i)

/-- A record's source text with its prefix (R105). -/
def srcText (i : Instr) : String := prefixText (srcPrefix i) (src i) ++ operandText (src i)

/-- A record's text: mnemonic, destination, and but for jumps the source (R102). -/
def text (i : Instr) : String :=
  match i.action with
  | .jump => i.mnemonic ++ " " ++ dstText i
  | _ => i.mnemonic ++ " " ++ dstText i ++ ", " ++ srcText i

end Sys2Proof.Machine
end

