-- ==== Sys2Proof/Machine/Jump.lean ====
section
/-! DEFINITION. The jump family (43_jump.md, ids 17 to 36): one definition per descriptor over the shared step
of R190. -/

namespace Sys2Proof.Machine

/-- The fault of a failed walk: the jump's text and signed increment (R199). -/
def walkFault (i : Instr) (inc : Int) : WalkFault → Fault
  | .misaligned => .jumpMisaligned (text i) inc
  | .overrun => .jumpOverrun (text i) inc

/-- execJump(I) once the predicate is known (R190): fall through to the next record, or walk to the landing
record (R197) and fault where there is none. `before` is the state at the start of the step, `t` the state
after the loop family's CX write. -/
def jumpStep (i : Instr) (inc : Byte) (taken : Bool) (before t : State) : Host.Outcome State Fault Refusal :=
  if taken then
    match landing t.store t.idx inc.toInt with
    | .ok j => .next (retire i before j t)
    | .error e => .fault (walkFault i inc.toInt e)
  else .next (retire i before (t.idx + 1) t)

/-- The code of CX (R21). -/
def cxCode : BitVec 3 := 0b001

/-- DEC_CX: CX less one, modulo 2^16, before the predicate of the loop family; no flag changes (R190, R196). -/
def decCX (s : State) : State := { s with regs := s.regs.set16 cxCode (s.regs.get16 cxCode - 1) }

/-- CX (R196). -/
def cx (s : State) : Word := s.regs.get16 cxCode

/-- JO (R200). -/
def execJo (inc : Byte) (s : State) : Host.Outcome State Fault Refusal :=
  jumpStep (.jo inc) inc (takenO s.flags) s s

/-- JNO (R201). -/
def execJno (inc : Byte) (s : State) : Host.Outcome State Fault Refusal :=
  jumpStep (.jno inc) inc (!takenO s.flags) s s

/-- JB (R202). -/
def execJb (inc : Byte) (s : State) : Host.Outcome State Fault Refusal :=
  jumpStep (.jb inc) inc (takenB s.flags) s s

/-- JNB (R203). -/
def execJnb (inc : Byte) (s : State) : Host.Outcome State Fault Refusal :=
  jumpStep (.jnb inc) inc (!takenB s.flags) s s

/-- JE (R204). -/
def execJe (inc : Byte) (s : State) : Host.Outcome State Fault Refusal :=
  jumpStep (.je inc) inc (takenE s.flags) s s

/-- JNE (R205). -/
def execJne (inc : Byte) (s : State) : Host.Outcome State Fault Refusal :=
  jumpStep (.jne inc) inc (!takenE s.flags) s s

/-- JBE (R206). -/
def execJbe (inc : Byte) (s : State) : Host.Outcome State Fault Refusal :=
  jumpStep (.jbe inc) inc (takenBE s.flags) s s

/-- JA (R207). -/
def execJa (inc : Byte) (s : State) : Host.Outcome State Fault Refusal :=
  jumpStep (.ja inc) inc (!takenBE s.flags) s s

/-- JS (R208). -/
def execJs (inc : Byte) (s : State) : Host.Outcome State Fault Refusal :=
  jumpStep (.js inc) inc (takenS s.flags) s s

/-- JNS (R209). -/
def execJns (inc : Byte) (s : State) : Host.Outcome State Fault Refusal :=
  jumpStep (.jns inc) inc (!takenS s.flags) s s

/-- JP (R210). -/
def execJp (inc : Byte) (s : State) : Host.Outcome State Fault Refusal :=
  jumpStep (.jp inc) inc (takenP s.flags) s s

/-- JNP (R211). -/
def execJnp (inc : Byte) (s : State) : Host.Outcome State Fault Refusal :=
  jumpStep (.jnp inc) inc (!takenP s.flags) s s

/-- JL (R212). -/
def execJl (inc : Byte) (s : State) : Host.Outcome State Fault Refusal :=
  jumpStep (.jl inc) inc (takenL s.flags) s s

/-- JNL (R213). -/
def execJnl (inc : Byte) (s : State) : Host.Outcome State Fault Refusal :=
  jumpStep (.jnl inc) inc (!takenL s.flags) s s

/-- JLE (R214). -/
def execJle (inc : Byte) (s : State) : Host.Outcome State Fault Refusal :=
  jumpStep (.jle inc) inc (takenLE s.flags) s s

/-- JG (R215). -/
def execJg (inc : Byte) (s : State) : Host.Outcome State Fault Refusal :=
  jumpStep (.jg inc) inc (!takenLE s.flags) s s

/-- LOOPNZ (R216). -/
def execLoopnz (inc : Byte) (s : State) : Host.Outcome State Fault Refusal :=
  jumpStep (.loopnz inc) inc (takenLoopnz s.flags (cx (decCX s))) s (decCX s)

/-- LOOPZ (R217). -/
def execLoopz (inc : Byte) (s : State) : Host.Outcome State Fault Refusal :=
  jumpStep (.loopz inc) inc (takenLoopz s.flags (cx (decCX s))) s (decCX s)

/-- LOOP (R218). -/
def execLoop (inc : Byte) (s : State) : Host.Outcome State Fault Refusal :=
  jumpStep (.loop inc) inc (takenLoop (cx (decCX s))) s (decCX s)

/-- JCXZ (R219). -/
def execJcxz (inc : Byte) (s : State) : Host.Outcome State Fault Refusal :=
  jumpStep (.jcxz inc) inc (takenCxz (cx s)) s s

end Sys2Proof.Machine
end

