-- ==== Sys2Proof/Machine/Dispatch.lean ====
section
/-! DEFINITION. The dispatch ROM (R124): one arm per descriptor of the catalog, each a call of its meaning. -/

namespace Sys2Proof.Machine

def exec (i : Instr) (s : State) : Host.Outcome State Fault Refusal :=
  match i with
  | .movRmR d w reg rm => Sys2Proof.Machine.execMovRmR d w reg rm s
  | .movImmRm rm imm => Sys2Proof.Machine.execMovImmRm rm imm s
  | .movImmR reg imm => Sys2Proof.Machine.execMovImmR reg imm s
  | .movAccMem w addr => Sys2Proof.Machine.execMovAccMem w addr s
  | .movMemAcc w addr => Sys2Proof.Machine.execMovMemAcc w addr s
  | .movRmSr sr rm => Sys2Proof.Machine.execMovRmSr sr rm s
  | .movSrRm sr rm => Sys2Proof.Machine.execMovSrRm sr rm s
  | .addRmR d w reg rm => Sys2Proof.Machine.execAddRmR d w reg rm s
  | .addImmRm rm imm => Sys2Proof.Machine.execAddImmRm rm imm s
  | .addImmAcc imm => Sys2Proof.Machine.execAddImmAcc imm s
  | .subRmR d w reg rm => Sys2Proof.Machine.execSubRmR d w reg rm s
  | .subImmRm rm imm => Sys2Proof.Machine.execSubImmRm rm imm s
  | .subImmAcc imm => Sys2Proof.Machine.execSubImmAcc imm s
  | .cmpRmR d w reg rm => Sys2Proof.Machine.execCmpRmR d w reg rm s
  | .cmpImmRm rm imm => Sys2Proof.Machine.execCmpImmRm rm imm s
  | .cmpImmAcc imm => Sys2Proof.Machine.execCmpImmAcc imm s
  | .jo inc => Sys2Proof.Machine.execJo inc s
  | .jno inc => Sys2Proof.Machine.execJno inc s
  | .jb inc => Sys2Proof.Machine.execJb inc s
  | .jnb inc => Sys2Proof.Machine.execJnb inc s
  | .je inc => Sys2Proof.Machine.execJe inc s
  | .jne inc => Sys2Proof.Machine.execJne inc s
  | .jbe inc => Sys2Proof.Machine.execJbe inc s
  | .ja inc => Sys2Proof.Machine.execJa inc s
  | .js inc => Sys2Proof.Machine.execJs inc s
  | .jns inc => Sys2Proof.Machine.execJns inc s
  | .jp inc => Sys2Proof.Machine.execJp inc s
  | .jnp inc => Sys2Proof.Machine.execJnp inc s
  | .jl inc => Sys2Proof.Machine.execJl inc s
  | .jnl inc => Sys2Proof.Machine.execJnl inc s
  | .jle inc => Sys2Proof.Machine.execJle inc s
  | .jg inc => Sys2Proof.Machine.execJg inc s
  | .loopnz inc => Sys2Proof.Machine.execLoopnz inc s
  | .loopz inc => Sys2Proof.Machine.execLoopz inc s
  | .loop inc => Sys2Proof.Machine.execLoop inc s
  | .jcxz inc => Sys2Proof.Machine.execJcxz inc s

end Sys2Proof.Machine
end

