-- ==== Sys2Proof/Machine/Load.lean ====
section
/-! DEFINITION. The load and the decode pass (R80, R282): the whole code buffer is decoded once, before any
instruction executes. -/

namespace Sys2Proof.Machine

/-- A decode error at its offset: the decode faults of R262. -/
def decodeFault (off : Nat) : DecodeError → Fault
  | .unmatchedOpcode bytes => .unmatchedOpcode off bytes
  | .unmatchedShape id => .unmatchedShape off id
  | .truncated => .truncated off
  | .noField id kind => .noField off id kind

/-- decodeOne(off) on the bytes from `off` on: the instruction (R81 to R94), then its clocks (R99). -/
def decodeOne (table : List TimingRow) (bs : List Byte) (off : Nat) : Except Fault Record :=
  match decodeInstr bs with
  | .error e => .error (decodeFault off e)
  | .ok i => clockDecode table i off

/-- The loop of decodeAll (R80), by recursion on the code buffer: `skip` bytes still belong to the record just
decoded; at `skip` = 0 the next record starts at `off`, as record number `n`. -/
def decodeFrom (p : Params) : List Byte → (skip off n : Nat) → Except Fault (List Record)
  | [], _, _, _ => .ok []
  | b :: bs, 0, off, n =>
    if n = p.maxInstructions then .error (.capacity off)
    else
      match decodeOne p.timing (b :: bs) off with
      | .error f => .error f
      | .ok r =>
        match decodeFrom p bs (r.len - 1) (off + 1) (n + 1) with
        | .error f => .error f
        | .ok rs => .ok (r :: rs)
  | _ :: bs, k + 1, off, n => decodeFrom p bs k (off + 1) n

/-- decodeAll(): the linear left-to-right pass from offset 0 until the buffer is exhausted (R80). -/
def decodeAll (p : Params) (code : List Byte) : Except Fault (List Record) := decodeFrom p code 0 0 0

/-- The engine after reset() and a fault-free decode pass (R282). -/
def loaded (s : State) (records : List Record) (r : RunState) : State :=
  { s.restart with store := records, runState := r }

/-- The start of a run (R282): reset, the capacity check (R265), the decode pass, and, when shouldExecute
holds, running, or halted at once when there is no record (R40, R120). Without shouldExecute the run state
stays not-started (R284). -/
def startRun (p : Params) (s : State) : Host.Outcome State Fault Refusal :=
  if p.codeCapacityBytes < s.host.code.length then .fault (.capacity s.host.code.length)
  else
    match decodeAll p s.host.code with
    | .error f => .fault f
    | .ok records =>
      if s.host.shouldExecute then .next (loaded s records .running).haltIfDone
      else .next (loaded s records .notStarted)

/-- The engine's own parameters (R7): the open capacities and the default timing table. -/
def params : Params where
  codeCapacityBytes := Config.codeCapacityBytes
  maxInstructions := Config.maxInstructions
  timing := baseClocksTable

/-- A one-instruction program, loaded and about to run: the bytes of `w` in the code buffer, cut to the
instruction's length, its record alone in the decoded store, the pointer at it and the run state running.
Bytes that do not decode are left in the buffer for the decode pass to fault on. -/
def loadWord (s : State) (nbits w : Nat) : State :=
  let bytes := tableBytes nbits w
  match decodeOne baseClocksTable bytes 0 with
  | .ok r =>
    { s with
      host := { s.host with code := bytes.take r.len, shouldExecute := true }
      store := [r]
      idx := 0
      ipOffset := 0
      runState := .running }
  | .error _ =>
    { s with
      host := { s.host with code := bytes, shouldExecute := true }
      runState := .notStarted }

end Sys2Proof.Machine
end

