-- ==== Sys2Proof/Machine/RunLoop.lean ====
section
/-! DEFINITION. The run loop's one turn (R120, R121), which Step.lean calls. -/

namespace Sys2Proof.Machine

/-- What follows the execution of one record: the loop's exit test (R120); a fault or a refusal ends the run. -/
def afterExec : Host.Outcome State Fault Refusal → Host.Outcome State Fault Refusal
  | .next t => .next t.haltIfDone
  | .fault f => .fault f
  | .refused r => .refused r

/-- One turn of the loop while running (R120): execute D[idx], or halt when idx has left the store. -/
def runRecord (s : State) : Host.Outcome State Fault Refusal :=
  match s.current with
  | some r => afterExec (exec r.instr s)
  | none => .next s.haltIfDone

/-- One step by run state (R40): a not-started engine starts the run (R282), a running one executes a record
(R121), a halted or aborted one takes no step (R128, R260). -/
def engineStep (p : Params) (s : State) : Host.Outcome State Fault Refusal :=
  match s.runState with
  | .notStarted => startRun p s
  | .running => runRecord s
  | .halted => .refused .runHalted
  | .aborted => .refused .runAborted

end Sys2Proof.Machine
end

