-- ==== Sys2Proof/Machine/Step.lean ====
section
/-! DEFINITION. One step of the engine, at the engine's own parameters, and the host's way to place one
instruction where the next step fetches it. -/

namespace Sys2Proof.Machine

/-- One step (R10): a next state, a fault, or a refusal. -/
def step (s : State) : Host.Outcome State Fault Refusal := engineStep params s

/-- The instruction whose bits are `w` placed as the program the next step runs (log entry 2). -/
def State.withFetchWord (s : State) (nbits w : Nat) : State := loadWord s nbits w

end Sys2Proof.Machine
end

