-- ==== Sys2Proof/Machine/Report.lean ====
section
/-! DEFINITION. The host's side of a run: a fault latched into the state (R260), a whole run (R282), and the
outputs the host reads at its end (R41, R292): the listing (R107, R285), the memory dump (R293) and the final
state. -/

namespace Sys2Proof.Machine

/-- The state after one step as the host finds it: a fault is raised into it (R260), on the reset state when
the load or the decode pass faulted (R261); an engine that takes no step stays as it is. -/
def tick (s : State) : State :=
  match step s with
  | .next t => t
  | .fault f =>
    match s.runState with
    | .notStarted => s.restart.raise f
    | .running | .halted | .aborted => s.raise f
  | .refused _ => s

/-- `k` steps of a run. -/
def runFor : Nat → State → State
  | 0, s => s
  | k + 1, s => runFor k (tick s)

/-- runProgram(code, shouldDisassemble, shouldExecute, dumpRange) from reset, for `k` steps (R282); a run has
no step bound of its own (R291). -/
def runProgram (k : Nat) (h : HostInputs) : State := runFor k (State.atRunStart h)

/-- One line of the listing (R107). -/
structure ListingLine where
  text : String
  off : Nat
  index : Nat
  len : Nat
  baseClocks : Nat
  eaClocks : Nat
  alignClocks : Nat
deriving DecidableEq, Repr

/-- The listing line of record number `k` (R107). -/
def listingLine (k : Nat) (r : Record) : ListingLine :=
  ⟨text r.instr, r.off, k, r.len, r.baseClocks, r.eaClocks, r.alignClocks⟩

/-- The listing, read from the decoded store as it stands (R285); empty unless the host asked for it. -/
def listing (s : State) : List ListingLine :=
  if s.host.shouldDisassemble then s.store.mapIdx listingLine else []

/-- The bytes of DUMP_RANGE in ascending order, modulo 2^16 (R293); empty unless the host asked for them in a
run that executes. -/
def dump (s : State) : List Byte :=
  match s.host.dumpRange with
  | some (start, count) =>
    if s.host.shouldExecute then (List.range count).map (fun k => s.mem.read (start + BitVec.ofNat 16 k)) else []
  | none => []

/-- The 16-bit ipOffset output (R292): the byte pointer where it fits, a free value where it does not (log
entry 14). -/
def outputOffset (n : Nat) : Word := if n < 65536 then BitVec.ofNat 16 n else Config.wideOffset n

/-- The final values the host reads (R41, R292). -/
structure FinalState where
  regs : Regs
  segs : Segs
  flags : Flags
  /-- The flags as one word (R31). -/
  flagsWord : Word
  idx : Nat
  /-- 16 bits; `idx` beside it is the whole pointer (R292). -/
  ipOffset : Word
  clocks : Nat
  dump : List Byte
deriving DecidableEq, Repr

/-- What the host reads at the end of a run (R292). -/
structure Report where
  runState : RunState
  fault : Option Fault
  /-- The fault code's number, 0 for NONE (R262). -/
  faultCode : Nat
  listing : List ListingLine
  /-- The final values; none after an abort, whose output values are not specified (R122, R292). -/
  final : Option FinalState
deriving DecidableEq, Repr

/-- The number of the latched fault code (R262). -/
def faultCode (f : Option Fault) : Nat :=
  match f with
  | some f => f.code
  | none => 0

/-- The final values of a state (R41). -/
def finalState (s : State) : FinalState :=
  ⟨s.regs, s.segs, s.flags, s.flags.pack, s.idx, outputOffset s.ipOffset, s.clocks, dump s⟩

/-- The report of a state (R292). -/
def report (s : State) : Report where
  runState := s.runState
  fault := s.fault
  faultCode := faultCode s.fault
  listing := listing s
  final :=
    match s.runState with
    | .aborted => none
    | .notStarted | .running | .halted => some (finalState s)

end Sys2Proof.Machine
end

