-- ==== Sys2Proof/Safety.lean ====
section
/-! DEFINITION. What a safe run is, and the terms the claims use: what a destination holds after a step, what a
step keeps, the effect of each family as the spec states it, and the invariant every step keeps. -/

namespace Sys2Proof.Machine

/-! ## Frames -/

/-- Every general register is kept but those named (R25). -/
def regsKeptBut (cs : List (BitVec 3)) (s t : State) : Prop :=
  ∀ c, c ∉ cs → t.regs.get16 c = s.regs.get16 c

/-- Every segment register is kept but those named (R27). -/
def segsKeptBut (cs : List (BitVec 2)) (s t : State) : Prop :=
  ∀ c, c ∉ cs → t.segs.get c = s.segs.get c

/-- Every byte of memory reads as before but those at the named addresses (R57). -/
def memKeptBut (addrs : List Word) (s t : State) : Prop :=
  ∀ a, a ∉ addrs → t.mem.read a = s.mem.read a

/-- The 16-bit register a destination writes: itself, or the parent of a byte half (R23). -/
def destRegs : Operand → List (BitVec 3)
  | .reg c .w16 => [c]
  | .reg c .w8 => [parent c]
  | .sreg _ | .mem _ _ _ | .imm _ _ | .abs _ _ | .jmp _ _ | .none => []

/-- The segment register a destination writes (R126). -/
def destSegs : Operand → List (BitVec 2)
  | .sreg c => [c]
  | .reg _ _ | .mem _ _ _ | .imm _ _ | .abs _ _ | .jmp _ _ | .none => []

/-- A step from `s` to `t` writes at most the destination `op`, its address computed from `s` (R123, R126). -/
def writesOnly (op : Operand) (s t : State) : Prop :=
  regsKeptBut (destRegs op) s t ∧ segsKeptBut (destSegs op) s t ∧ memKeptBut (operandStores s.regs op) s t

/-- After a step from `s` to `t` the operand `op`, located in `s`, holds `v`; a byte register keeps the other
byte halves (R24, R126). -/
def holds (op : Operand) (v : Word) (s t : State) : Prop :=
  match op with
  | .reg c .w16 => t.regs.get16 c = v
  | .reg c .w8 => zext8 (t.regs.get8 c) = v ∧ ∀ k, k ≠ c → t.regs.get8 k = s.regs.get8 k
  | .sreg c => t.segs.get c = v
  | .mem b disp w => memRead t.mem (baseValue s.regs b + disp) w = v
  | .abs a w => memRead t.mem a w = v
  | .imm _ _ | .jmp _ _ | .none => False

/-- The end of R121's step: the pointer is at `next`, the clocks of the record are charged (R244), its
alignment clocks are patched (R245), and no other record, run state or host input changes. -/
def retired (i : Instr) (next : Nat) (s t : State) : Prop :=
  t.idx = next ∧ t.ipOffset = offsetOf s.store next ∧
  t.clocks = s.clocks + s.recordClocks + alignClocks i s.regs ∧
  t.store = s.store.modify s.idx (fun r => r.withAlign (alignClocks i s.regs)) ∧
  t.runState = s.runState ∧ t.fault = s.fault ∧ t.host = s.host

/-! ## Effects by family -/

/-- A move (R140): the destination holds the source's value, nothing else and no flag changes. -/
def MovesTo (i : Instr) (source dest : Operand) (s : State) : Prop :=
  ∃ t v, exec i s = .next t ∧ readOp source s = some v ∧ holds dest v s t ∧ writesOnly dest s t ∧
    t.flags = s.flags ∧ retired i (s.idx + 1) s t

/-- TF, IF and DF are kept (R29, R170). -/
def controlFlagsKept (f g : Flags) : Prop := g.TF = f.TF ∧ g.IF = f.IF ∧ g.DF = f.DF

/-- The flags every ALU result sets (R163, R164): SF, ZF and PF. -/
def resultFlags (w : Width) (res : Word) (g : Flags) : Prop :=
  g.SF = topBit w res ∧ (g.ZF = true ↔ res = 0) ∧ (g.PF = true ↔ popcountLow res % 2 = 0)

/-- The sum of two W-bit values (R163). -/
def sumMod (w : Width) (old v : Word) : Word := BitVec.ofNat 16 ((old.toNat + v.toNat) % 2 ^ w.bits)

/-- The difference of two W-bit values (R164). -/
def diffMod (w : Width) (old v : Word) : Word :=
  BitVec.ofNat 16 (((old.toNat : Int) - (v.toNat : Int)) % ((2 ^ w.bits : Nat) : Int)).toNat

/-- The flags of an addition (R163), written from `f` to `g`. -/
def addFlags (w : Width) (old v : Word) (f g : Flags) : Prop :=
  (g.CF = true ↔ 2 ^ w.bits ≤ old.toNat + v.toNat) ∧
  (g.AF = true ↔ 0xF < old.toNat % 16 + v.toNat % 16) ∧
  (g.OF = true ↔ topBit w old = topBit w v ∧ topBit w (sumMod w old v) ≠ topBit w old) ∧
  resultFlags w (sumMod w old v) g ∧ controlFlagsKept f g

/-- The flags of a subtraction (R164), written from `f` to `g`. -/
def subFlags (w : Width) (old v : Word) (f g : Flags) : Prop :=
  (g.CF = true ↔ old.toNat < v.toNat) ∧
  (g.AF = true ↔ old.toNat % 16 < v.toNat % 16) ∧
  (g.OF = true ↔ topBit w old ≠ topBit w v ∧ topBit w (diffMod w old v) ≠ topBit w old) ∧
  resultFlags w (diffMod w old v) g ∧ controlFlagsKept f g

/-- An addition (R160). -/
def AddsTo (i : Instr) (w : Width) (source dest : Operand) (s : State) : Prop :=
  ∃ t old v, exec i s = .next t ∧ readOp dest s = some old ∧ readOp source s = some v ∧
    holds dest (sumMod w old v) s t ∧ writesOnly dest s t ∧ addFlags w old v s.flags t.flags ∧
    retired i (s.idx + 1) s t

/-- A subtraction (R161). -/
def SubtractsFrom (i : Instr) (w : Width) (source dest : Operand) (s : State) : Prop :=
  ∃ t old v, exec i s = .next t ∧ readOp dest s = some old ∧ readOp source s = some v ∧
    holds dest (diffMod w old v) s t ∧ writesOnly dest s t ∧ subFlags w old v s.flags t.flags ∧
    retired i (s.idx + 1) s t

/-- A comparison (R162): the flags of the subtraction, and no register and no byte of memory changes. -/
def Compares (i : Instr) (w : Width) (source dest : Operand) (s : State) : Prop :=
  ∃ t old v, exec i s = .next t ∧ readOp dest s = some old ∧ readOp source s = some v ∧
    subFlags w old v s.flags t.flags ∧ regsKeptBut [] s t ∧ segsKeptBut [] s t ∧ memKeptBut [] s t ∧
    retired i (s.idx + 1) s t

/-- The target of a jump of increment `inc` at record idx, as a byte offset: relative to the end of the jump
(R192). -/
def jumpTarget (s : State) (inc : Byte) : Int := (offsetOf s.store (s.idx + 1) : Int) + inc.toInt

/-- A jump that keeps every register but those named, every flag and all of memory, and ends at record
`next`. -/
def JumpsTo (i : Instr) (cs : List (BitVec 3)) (next : Nat) (s t : State) : Prop :=
  exec i s = .next t ∧ regsKeptBut cs s t ∧ segsKeptBut [] s t ∧ memKeptBut [] s t ∧ t.flags = s.flags ∧
    retired i next s t

/-- A jump that writes no CX (R190): not taken it falls through; taken it lands on the record, or the end of
the program, whose offset is the target (R198), wherever there is one. -/
def JumpsWhen (i : Instr) (inc : Byte) (taken : Prop) (s : State) : Prop :=
  (¬taken → ∃ t, JumpsTo i [] (s.idx + 1) s t) ∧
  (taken → ∀ j, j ≤ s.store.length → (offsetOf s.store j : Int) = jumpTarget s inc →
    ∃ t, JumpsTo i [] j s t)

/-- A jump of the loop family (R190, R196): CX is decremented first, modulo 2^16, and the predicate is over the
decremented CX. -/
def LoopsWhen (i : Instr) (inc : Byte) (taken : Word → Prop) (s : State) : Prop :=
  let cx' := s.regs.CX - 1
  (¬taken cx' → ∃ t, JumpsTo i [cxCode] (s.idx + 1) s t ∧ t.regs.CX = cx') ∧
  (taken cx' → ∀ j, j ≤ s.store.length → (offsetOf s.store j : Int) = jumpTarget s inc →
    ∃ t, JumpsTo i [cxCode] j s t ∧ t.regs.CX = cx')

/-- The increment of a jump (R37); none for the other actions. -/
def jumpIncrement : Instr → Option Byte
  | .jo inc | .jno inc | .jb inc | .jnb inc | .je inc | .jne inc | .jbe inc | .ja inc => some inc
  | .js inc | .jns inc | .jp inc | .jnp inc | .jl inc | .jnl inc | .jle inc | .jg inc => some inc
  | .loopnz inc | .loopz inc | .loop inc | .jcxz inc => some inc
  | .movRmR _ _ _ _ | .movImmRm _ _ | .movImmR _ _ | .movAccMem _ _ | .movMemAcc _ _ | .movRmSr _ _
  | .movSrRm _ _ => none
  | .addRmR _ _ _ _ | .addImmRm _ _ | .addImmAcc _ | .subRmR _ _ _ _ | .subImmRm _ _ | .subImmAcc _ => none
  | .cmpRmR _ _ _ _ | .cmpImmRm _ _ | .cmpImmAcc _ => none

/-- The tables of R195 and R196: when a jump is taken, over the flags and CX as they stand before the step (the
loop family's own decrement is applied here); false of the other actions. -/
def jumpTaken (f : Flags) (cx : Word) : Instr → Prop
  | .jo _ => f.OF = true
  | .jno _ => f.OF = false
  | .jb _ => f.CF = true
  | .jnb _ => f.CF = false
  | .je _ => f.ZF = true
  | .jne _ => f.ZF = false
  | .jbe _ => f.CF = true ∨ f.ZF = true
  | .ja _ => f.CF = false ∧ f.ZF = false
  | .js _ => f.SF = true
  | .jns _ => f.SF = false
  | .jp _ => f.PF = true
  | .jnp _ => f.PF = false
  | .jl _ => f.SF ≠ f.OF
  | .jnl _ => f.SF = f.OF
  | .jle _ => f.ZF = true ∨ f.SF ≠ f.OF
  | .jg _ => f.ZF = false ∧ f.SF = f.OF
  | .loopnz _ => cx - 1 ≠ 0 ∧ f.ZF = false
  | .loopz _ => cx - 1 ≠ 0 ∧ f.ZF = true
  | .loop _ => cx - 1 ≠ 0
  | .jcxz _ => cx = 0
  | .movRmR _ _ _ _ | .movImmRm _ _ | .movImmR _ _ | .movAccMem _ _ | .movMemAcc _ _ | .movRmSr _ _
  | .movSrRm _ _ => False
  | .addRmR _ _ _ _ | .addImmRm _ _ | .addImmAcc _ | .subRmR _ _ _ _ | .subImmRm _ _ | .subImmAcc _ => False
  | .cmpRmR _ _ _ _ | .cmpImmRm _ _ | .cmpImmAcc _ => False

/-- A row of the jump tables: id, mnemonic, first byte (R195, R196), and the constructor. -/
structure JumpRow where
  id : Nat
  mnemonic : String
  firstByte : Byte
  instr : Byte → Instr

/-- The rows of R195. -/
def conditionalJumpRows : List JumpRow :=
  [⟨17, "jo", 0x70, .jo⟩, ⟨18, "jno", 0x71, .jno⟩, ⟨19, "jb", 0x72, .jb⟩, ⟨20, "jnb", 0x73, .jnb⟩,
    ⟨21, "je", 0x74, .je⟩, ⟨22, "jne", 0x75, .jne⟩, ⟨23, "jbe", 0x76, .jbe⟩, ⟨24, "ja", 0x77, .ja⟩] ++
  [⟨25, "js", 0x78, .js⟩, ⟨26, "jns", 0x79, .jns⟩, ⟨27, "jp", 0x7A, .jp⟩, ⟨28, "jnp", 0x7B, .jnp⟩,
    ⟨29, "jl", 0x7C, .jl⟩, ⟨30, "jnl", 0x7D, .jnl⟩, ⟨31, "jle", 0x7E, .jle⟩, ⟨32, "jg", 0x7F, .jg⟩]

/-- The rows of R196. -/
def loopRows : List JumpRow :=
  [⟨33, "loopnz", 0xE0, .loopnz⟩, ⟨34, "loopz", 0xE1, .loopz⟩, ⟨35, "loop", 0xE2, .loop⟩, ⟨36, "jcxz", 0xE3, .jcxz⟩]

/-- Each row's jump has its id, its mnemonic and its first byte, the increment byte after it (R195, R196). -/
def numberedAs (rows : List JumpRow) : Prop :=
  ∀ r ∈ rows, ∀ inc, (r.instr inc).id = r.id ∧ (r.instr inc).mnemonic = r.mnemonic ∧
    encode (r.instr inc) = [r.firstByte, inc]

/-! ## Encoding terms -/

/-- A descriptor's primary match holds, and its secondary match where it has one (R76). -/
def fullMatch (e : Descriptor) (bs : List Byte) : Prop :=
  e.primaryMatch.holds bs = .ok true ∧ ∀ m, e.secondaryMatch = some m → m.holds bs = .ok true

/-- The first bytes of the opcode map (R75). -/
def mappedFirstByte (b : Nat) : Prop :=
  b ≤ 0x05 ∨ (0x28 ≤ b ∧ b ≤ 0x2D) ∨ (0x38 ≤ b ∧ b ≤ 0x3D) ∨ (0x70 ≤ b ∧ b ≤ 0x7F) ∨ (0x80 ≤ b ∧ b ≤ 0x83) ∨
  (0x88 ≤ b ∧ b ≤ 0x8C) ∨ b = 0x8E ∨ (0xA0 ≤ b ∧ b ≤ 0xA3) ∨ (0xB0 ≤ b ∧ b ≤ 0xBF) ∨ b = 0xC6 ∨ b = 0xC7 ∨
  (0xE0 ≤ b ∧ b ≤ 0xE3)

/-- A second byte the secondary matches of a mapped first byte refuse (R75). -/
def refusedSecondByte (b c : Nat) : Prop :=
  (0x80 ≤ b ∧ b ≤ 0x83 ∧ c / 8 % 8 ≠ 0 ∧ c / 8 % 8 ≠ 5 ∧ c / 8 % 8 ≠ 7) ∨
  ((b = 0x8C ∨ b = 0x8E) ∧ c / 32 % 2 = 1) ∨
  ((b = 0xC6 ∨ b = 0xC7) ∧ c / 8 % 8 ≠ 0)

/-- Id, mnemonic and action of every descriptor (R74). -/
def catalogEntry : Instr → Nat × String × Action
  | .movRmR _ _ _ _ => (1, "mov", .move)
  | .movImmRm _ _ => (2, "mov", .move)
  | .movImmR _ _ => (3, "mov", .move)
  | .movAccMem _ _ => (4, "mov", .move)
  | .movMemAcc _ _ => (5, "mov", .move)
  | .movRmSr _ _ => (6, "mov", .move)
  | .movSrRm _ _ => (7, "mov", .move)
  | .addRmR _ _ _ _ => (8, "add", .add)
  | .addImmRm _ _ => (9, "add", .add)
  | .addImmAcc _ => (10, "add", .add)
  | .subRmR _ _ _ _ => (11, "sub", .subtract)
  | .subImmRm _ _ => (12, "sub", .subtract)
  | .subImmAcc _ => (13, "sub", .subtract)
  | .cmpRmR _ _ _ _ => (14, "cmp", .compare)
  | .cmpImmRm _ _ => (15, "cmp", .compare)
  | .cmpImmAcc _ => (16, "cmp", .compare)
  | .jo _ => (17, "jo", .jump)
  | .jno _ => (18, "jno", .jump)
  | .jb _ => (19, "jb", .jump)
  | .jnb _ => (20, "jnb", .jump)
  | .je _ => (21, "je", .jump)
  | .jne _ => (22, "jne", .jump)
  | .jbe _ => (23, "jbe", .jump)
  | .ja _ => (24, "ja", .jump)
  | .js _ => (25, "js", .jump)
  | .jns _ => (26, "jns", .jump)
  | .jp _ => (27, "jp", .jump)
  | .jnp _ => (28, "jnp", .jump)
  | .jl _ => (29, "jl", .jump)
  | .jnl _ => (30, "jnl", .jump)
  | .jle _ => (31, "jle", .jump)
  | .jg _ => (32, "jg", .jump)
  | .loopnz _ => (33, "loopnz", .jump)
  | .loopz _ => (34, "loopz", .jump)
  | .loop _ => (35, "loop", .jump)
  | .jcxz _ => (36, "jcxz", .jump)

/-- A word in the instruction stream, low byte first (R53). -/
def wordLayout (v : Word) : List Byte := [v.setWidth 8, (v >>> 8).setWidth 8]

/-- The rm codes of the eight bases (R91). -/
def baseBits : Base → BitVec 3
  | .bxSi => 0b000
  | .bxDi => 0b001
  | .bpSi => 0b010
  | .bpDi => 0b011
  | .si => 0b100
  | .di => 0b101
  | .bp => 0b110
  | .bx => 0b111

/-- Byte 1 and the displacement bytes: mod and rm by the operand (R84, R91), `mid` the field between (R72). -/
def rmLayout (mid : BitVec 3) : Rm → List Byte
  | .reg c => [0b11#2 ++ mid ++ c]
  | .direct a => (0b00#2 ++ mid ++ 0b110#3) :: wordLayout a
  | .mem b .none => [0b00#2 ++ mid ++ baseBits b]
  | .mem b (.byte v) => [0b01#2 ++ mid ++ baseBits b, v]
  | .mem b (.word v) => (0b10#2 ++ mid ++ baseBits b) :: wordLayout v

/-- w of a width (R89). -/
def widthBit : Width → BitVec 1
  | .w8 => 0
  | .w16 => 1

/-- The w field of an immediate without an s field, and its bytes (R86). -/
def immLayout : Imm → BitVec 1 × List Byte
  | .byte v => (0, [v])
  | .word v => (1, wordLayout v)

/-- The s and w fields of an immediate of 0x80 to 0x83, and its bytes (R86). -/
def arithImmLayout : ArithImm → BitVec 2 × List Byte
  | .byte s v => (BitVec.ofBool s ++ 0#1, [v])
  | .word v => (0b01, wordLayout v)
  | .signed v => (0b11, [v])

/-- The bytes of format RM under six opcode bits (R72). -/
def layoutRM (opcode : BitVec 6) (d : Bool) (w : Width) (reg : BitVec 3) (rm : Rm) : List Byte :=
  (opcode ++ BitVec.ofBool d ++ widthBit w) :: rmLayout reg rm

/-- The bytes of format IMMRM with an s field, under its sub-op (R72, R73). -/
def layoutIMMRM (sub : BitVec 3) (rm : Rm) (imm : ArithImm) : List Byte :=
  (0b100000#6 ++ (arithImmLayout imm).1) :: (rmLayout sub rm ++ (arithImmLayout imm).2)

/-- The bytes of format ACCIMM under seven opcode bits (R72). -/
def layoutACCIMM (opcode : BitVec 7) (imm : Imm) : List Byte := (opcode ++ (immLayout imm).1) :: (immLayout imm).2

/-- The bytes of format ACCMEM under seven opcode bits (R72, R87). -/
def layoutACCMEM (opcode : BitVec 7) (w : Width) (addr : Word) : List Byte :=
  (opcode ++ widthBit w) :: wordLayout addr

/-- The bytes of every instruction, written out from the formats of R72, the opcodes of R74 and the trailing
bytes in the order of R82; nothing of the catalog or the encoder is used. -/
def layout : Instr → List Byte
  | .movRmR d w reg rm => layoutRM 0b100010 d w reg rm
  | .movImmRm rm imm => (0b1100011#7 ++ (immLayout imm).1) :: (rmLayout 0b000 rm ++ (immLayout imm).2)
  | .movImmR reg imm => (0b1011#4 ++ (immLayout imm).1 ++ reg) :: (immLayout imm).2
  | .movAccMem w addr => layoutACCMEM 0b1010000 w addr
  | .movMemAcc w addr => layoutACCMEM 0b1010001 w addr
  | .movRmSr sr rm => 0b10001110 :: rmLayout (0#1 ++ sr) rm
  | .movSrRm sr rm => 0b10001100 :: rmLayout (0#1 ++ sr) rm
  | .addRmR d w reg rm => layoutRM 0b000000 d w reg rm
  | .addImmRm rm imm => layoutIMMRM 0b000 rm imm
  | .addImmAcc imm => layoutACCIMM 0b0000010 imm
  | .subRmR d w reg rm => layoutRM 0b001010 d w reg rm
  | .subImmRm rm imm => layoutIMMRM 0b101 rm imm
  | .subImmAcc imm => layoutACCIMM 0b0010110 imm
  | .cmpRmR d w reg rm => layoutRM 0b001110 d w reg rm
  | .cmpImmRm rm imm => layoutIMMRM 0b111 rm imm
  | .cmpImmAcc imm => layoutACCIMM 0b0011110 imm
  | .jo inc => [0b01110000, inc]
  | .jno inc => [0b01110001, inc]
  | .jb inc => [0b01110010, inc]
  | .jnb inc => [0b01110011, inc]
  | .je inc => [0b01110100, inc]
  | .jne inc => [0b01110101, inc]
  | .jbe inc => [0b01110110, inc]
  | .ja inc => [0b01110111, inc]
  | .js inc => [0b01111000, inc]
  | .jns inc => [0b01111001, inc]
  | .jp inc => [0b01111010, inc]
  | .jnp inc => [0b01111011, inc]
  | .jl inc => [0b01111100, inc]
  | .jnl inc => [0b01111101, inc]
  | .jle inc => [0b01111110, inc]
  | .jg inc => [0b01111111, inc]
  | .loopnz inc => [0b11100000, inc]
  | .loopz inc => [0b11100001, inc]
  | .loop inc => [0b11100010, inc]
  | .jcxz inc => [0b11100011, inc]

/-- The length of an immediate without an s field: 2 if w = 1 else 1 (R88). -/
def immLength : Imm → Nat
  | .byte _ => 1
  | .word _ => 2

/-- The length of an immediate with an s field: 2 if w = 1 and s = 0 else 1 (R88). -/
def arithImmLength : ArithImm → Nat
  | .byte _ _ => 1
  | .word _ => 2
  | .signed _ => 1

/-- The displacement length of a register-or-memory operand (R84). -/
def rmLength : Rm → Nat
  | .reg _ => 0
  | .direct _ => 2
  | .mem _ .none => 0
  | .mem _ (.byte _) => 1
  | .mem _ (.word _) => 2

/-- The table of R88. -/
def lengthByFormat : Instr → Nat
  | .movRmR _ _ _ rm | .addRmR _ _ _ rm | .subRmR _ _ _ rm | .cmpRmR _ _ _ rm => 2 + rmLength rm
  | .movRmSr _ rm | .movSrRm _ rm => 2 + rmLength rm
  | .movImmRm rm imm => 2 + rmLength rm + immLength imm
  | .addImmRm rm imm | .subImmRm rm imm | .cmpImmRm rm imm => 2 + rmLength rm + arithImmLength imm
  | .movImmR _ imm | .addImmAcc imm | .subImmAcc imm | .cmpImmAcc imm => 1 + immLength imm
  | .movAccMem _ _ | .movMemAcc _ _ => 3
  | .jo _ | .jno _ | .jb _ | .jnb _ | .je _ | .jne _ | .jbe _ | .ja _ => 2
  | .js _ | .jns _ | .jp _ | .jnp _ | .jl _ | .jnl _ | .jle _ | .jg _ => 2
  | .loopnz _ | .loopz _ | .loop _ | .jcxz _ => 2

/-! ## The invariant of a run -/

/-- A record as the decode pass leaves it, its alignment clocks put aside: what no step changes (R245). -/
def Record.fixed (r : Record) : Record := r.withAlign 0

/-- What holds of a state in every run: memory is canonical; the pointer is within the store and its byte
offset is off(idx) (R32); TF, IF and DF are clear (R29); a running engine has a record to execute and a halted
one stands at the end (R40); a fault is latched only in the aborted state (R41). -/
structure Inv (s : State) : Prop where
  mem : s.mem.wf = true
  idx : s.idx ≤ s.store.length
  ip : s.ipOffset = offsetOf s.store s.idx
  controlFlags : s.flags.TF = false ∧ s.flags.IF = false ∧ s.flags.DF = false
  running : s.runState = .running → s.idx < s.store.length
  halted : s.runState = .halted → s.idx = s.store.length
  faultNone : s.runState ≠ .aborted → s.fault = none

/-- What holds of the decoded store of a run that executes, at any parameters: it is the decode pass over the
host's code buffer, within both capacities, but for the alignment clocks (R36, R245, R282). -/
def StoreIsDecoded (p : Params) (s : State) : Prop :=
  s.runState = .running ∨ s.runState = .halted →
    ∃ records, decodeAll p s.host.code = .ok records ∧
      s.store.map Record.fixed = records.map Record.fixed ∧
      s.host.code.length ≤ p.codeCapacityBytes ∧
      s.store.length ≤ p.maxInstructions ∧ s.host.shouldExecute = true

end Sys2Proof.Machine
end

