-- ==== Sys2Proof/Certificates/Slice0/Obligations.lean ====
section
/-! DEFINITION. The statements for the provers. Each docstring names the rules of spec/ it formalises, or says
what it is derived from. -/

open Sys2Proof Sys2Proof.Machine

/-! ## Encoding, matching, decoding -/

/-- R72, R74 (derived): words of every format, and of every descriptor but the jumps, written bit by bit, decode
to the instruction they stand for. -/
def Obligations.DecodesWordsOfEveryFormat : Prop :=
  decodeInstr [0b10001011, 0b01011110, 0x04] = .ok (.movRmR true .w16 3 (.mem .bp (.byte 4))) ∧
  decodeInstr [0b11000111, 0b10000101, 0x85, 0x03, 0x5B, 0x01] =
    .ok (.movImmRm (.mem .di (.word 0x0385)) (.word 0x015B)) ∧
  decodeInstr [0b10110100, 0x7F] = .ok (.movImmR 4 (.byte 0x7F)) ∧
  decodeInstr [0b10100001, 0xFB, 0x09] = .ok (.movAccMem .w16 0x09FB) ∧
  decodeInstr [0b10001110, 0b00011110, 0x05, 0x00] = .ok (.movRmSr 3 (.direct 5)) ∧
  decodeInstr [0b10000010, 0b11101011, 0x05] = .ok (.subImmRm (.reg 3) (.byte true 5)) ∧
  decodeInstr [0b10000011, 0b11111001, 0xA6] = .ok (.cmpImmRm (.reg 1) (.signed 0xA6)) ∧
  decodeInstr [0b00101101, 0xE8, 0x03] = .ok (.subImmAcc (.word 0x03E8)) ∧
  decodeInstr [0b01111100, 0xFE] = .ok (.jl 0xFE) ∧
  decodeInstr [0b10100011, 0xFA, 0x09] = .ok (.movMemAcc .w16 0x09FA) ∧
  decodeInstr [0b10001100, 0b01011111, 0x02] = .ok (.movSrRm 3 (.mem .bx (.byte 2))) ∧
  decodeInstr [0b00000001, 0b11001011] = .ok (.addRmR false .w16 1 (.reg 3)) ∧
  decodeInstr [0b10000001, 0b11000011, 0x40, 0x9C] = .ok (.addImmRm (.reg 3) (.word 0x9C40)) ∧
  decodeInstr [0b00000100, 0x01] = .ok (.addImmAcc (.byte 1)) ∧
  decodeInstr [0b00101011, 0b10001011, 0x00, 0xFF] = .ok (.subRmR true .w16 1 (.mem .bpDi (.word 0xFF00))) ∧
  decodeInstr [0b00111010, 0b01000110, 0x02] = .ok (.cmpRmR true .w8 0 (.mem .bp (.byte 2))) ∧
  decodeInstr [0b00111101, 0x05, 0x00] = .ok (.cmpImmAcc (.word 5)) ∧
  decodeInstr [0b11100011, 0xFE] = .ok (.jcxz 0xFE)

/-- Derived from the encoding chapter: decoding the encoding of any well-formed instruction, whatever bytes
follow, gives it back. -/
def Obligations.DecodeOfEncodeIsIdentity : Prop :=
  ∀ (i : Instr) (rest : List Byte), i.wf = true → decodeInstr (encode i ++ rest) = .ok i

/-- Derived from the encoding chapter: what decodes is well formed, and encoding it gives back the bytes it
was read from. -/
def Obligations.EncodeOfDecodeIsIdentity : Prop :=
  ∀ (bs : List Byte) (i : Instr), decodeInstr bs = .ok i →
    i.wf = true ∧ i.len ≤ bs.length ∧ encode i = bs.take i.len

/-- R88 (derived): the length by format; the encoding has that many bytes, at least 2 and at most 6. -/
def Obligations.LengthIsThatOfTheFormat : Prop :=
  ∀ i : Instr, i.wf = true →
    i.len = lengthByFormat i ∧ (encode i).length = lengthByFormat i ∧ 2 ≤ i.len ∧ i.len ≤ 6

/-- R84: the displacement bytes by mod and rm. -/
def Obligations.DisplacementLengthByModAndRm : Prop :=
  (∀ rm, dispLength 0b11 rm = 0) ∧ (∀ rm, rm ≠ 0b110 → dispLength 0b00 rm = 0) ∧
  dispLength 0b00 0b110 = 2 ∧ (∀ rm, dispLength 0b01 rm = 1) ∧ (∀ rm, dispLength 0b10 rm = 2)

/-- R71 (derived): every byte sequence matches at most one descriptor, so the scan order does not matter. -/
def Obligations.AtMostOneDescriptorMatches : Prop :=
  ∀ (bs : List Byte) (e e' : Descriptor), e ∈ catalog → e' ∈ catalog → fullMatch e bs → fullMatch e' bs → e = e'

/-- R75, R77 (derived): a first byte outside the opcode map, or a second byte its secondary match refuses, is
UNMATCHED_OPCODE, whatever follows. -/
def Obligations.BytesOutsideTheMapAreUnmatched : Prop :=
  (∀ (b : Byte) (bs : List Byte), ¬mappedFirstByte b.toNat →
    decodeInstr (b :: bs) = .error (.unmatchedOpcode ((b :: bs).take 6))) ∧
  (∀ (b c : Byte) (bs : List Byte), refusedSecondByte b.toNat c.toNat →
    decodeInstr (b :: c :: bs) = .error (.unmatchedOpcode ((b :: c :: bs).take 6)))

/-- R65 (derived): an instruction cut off by the end of the buffer is TRUNCATED, wherever it is cut. -/
def Obligations.CutInstructionIsTruncated : Prop :=
  ∀ (i : Instr) (k : Nat), i.wf = true → k < i.len → decodeInstr ((encode i).take k) = .error .truncated

/-- R100 (derived): decoding depends on at most six bytes. -/
def Obligations.DecodeReadsAtMostSixBytes : Prop :=
  ∀ (bs : List Byte), decodeInstr bs = decodeInstr (bs.take 6)

/-! ## The decode pass and the start of a run -/

/-- R101, R36 (derived): a fault-free pass cuts the whole buffer into records, each decoded at its own offset,
within the capacity. -/
def Obligations.DecodePassCutsTheWholeBuffer : Prop :=
  ∀ (p : Params) (code : List Byte) (records : List Record), decodeAll p code = .ok records →
    offsetOf records records.length = code.length ∧ records.length ≤ p.maxInstructions ∧
    ∀ j r, records[j]? = some r →
      r.off = offsetOf records j ∧ decodeOne p.timing (code.drop (offsetOf records j)) (offsetOf records j) = .ok r

/-- R80, R265 (derived): a faulting pass reports the fault of the lowest-offset bad record, or CAPACITY where
the record count is reached with bytes left. -/
def Obligations.DecodePassReportsTheFirstFault : Prop :=
  ∀ (p : Params) (code : List Byte) (f : Fault), decodeAll p code = .error f →
    ∃ good : List Record, offsetOf good good.length < code.length ∧
      (∀ j r, good[j]? = some r →
        decodeOne p.timing (code.drop (offsetOf good j)) (offsetOf good j) = .ok r) ∧
      ((good.length = p.maxInstructions ∧ f = .capacity (offsetOf good good.length)) ∨
       (good.length < p.maxInstructions ∧
         decodeOne p.timing (code.drop (offsetOf good good.length)) (offsetOf good good.length) = .error f))

/-- Derived from R80 and R101: a program written as the encodings of well-formed instructions decodes to
exactly those instructions, in order. -/
def Obligations.EncodedProgramDecodesToItself : Prop :=
  ∀ (p : Params) (is : List Instr), (∀ i ∈ is, i.wf = true) → p.timing = baseClocksTable →
    is.length ≤ p.maxInstructions →
    ∃ records, decodeAll p (is.flatMap encode) = .ok records ∧ records.map (·.instr) = is

/-- R282 to R284 (derived): the start of a run, at any parameters: CAPACITY before decoding, the decode fault, or the
reset state with the decoded store, running if it executes and has a record, halted at once if it has none. -/
def Obligations.StartOfARun : Prop :=
  ∀ (p : Params) (s : State), s.runState = .notStarted →
    (p.codeCapacityBytes < s.host.code.length → engineStep p s = .fault (.capacity s.host.code.length)) ∧
    (s.host.code.length ≤ p.codeCapacityBytes →
      (∀ f, decodeAll p s.host.code = .error f → engineStep p s = .fault f) ∧
      (∀ records, decodeAll p s.host.code = .ok records →
        engineStep p s = .next { State.atRunStart s.host with
          store := records
          runState := if s.host.shouldExecute = false then .notStarted
            else if records = [] then .halted else .running }))

/-- R42: every piece of state at reset, memory byte by byte. -/
def Obligations.ResetState : Prop :=
  (∀ c, State.reset.regs.get16 c = 0) ∧ (∀ c, State.reset.segs.get c = 0) ∧ State.reset.flags.pack = 0 ∧
  (∀ a, State.reset.mem.read a = 0) ∧ State.reset.idx = 0 ∧ State.reset.ipOffset = 0 ∧ State.reset.clocks = 0 ∧
  State.reset.runState = .notStarted ∧ State.reset.fault = none ∧ State.reset.store = []

/-- Derived from R42: the invariant holds at reset. -/
def Obligations.ResetMeetsTheInvariant : Prop := Inv State.reset ∧ ∀ p, StoreIsDecoded p State.reset

/-- Derived from R32, R29, R40, R41 and the memory chapter: from any state that meets the invariant, every step
that answers a next state gives one that meets it. -/
def Obligations.StepKeepsTheInvariant : Prop :=
  ∀ s t : State, Inv s → step s = .next t → Inv t

/-- Derived from R36, R60, R245 and R288: the decoded store stays the decode of the host's code buffer, but for
the alignment clocks, whatever a program stores, at any parameters (step is engineStep at the engine's own). -/
def Obligations.StoreStaysTheDecodedCode : Prop :=
  ∀ (p : Params) (s t : State), StoreIsDecoded p s → engineStep p s = .next t → StoreIsDecoded p t

/-! ## The step -/

/-- R121 (derived): a running engine's step executes D[idx], and then halts if idx has left the store. -/
def Obligations.StepRunsTheFetchedRecord : Prop :=
  ∀ (s : State) (r : Record), s.runState = .running → s.store[s.idx]? = some r →
    (∀ t, exec r.instr s = .next t →
      step s = .next { t with runState := if t.idx < t.store.length then t.runState else .halted }) ∧
    (∀ f, exec r.instr s = .fault f → step s = .fault f)

/-- Derived from R33, R80 and R101: the record a running engine executes is the instruction whose bytes stand in
the code buffer at the byte pointer. -/
def Obligations.StepRunsTheBytesAtThePointer : Prop :=
  ∀ (p : Params) (s : State), Inv s → StoreIsDecoded p s → s.runState = .running →
    ∃ i, decodeInstr (s.host.code.drop s.ipOffset) = .ok i ∧
      (∀ t, exec i s = .next t →
        step s = .next { t with runState := if t.idx < t.store.length then t.runState else .halted }) ∧
      (∀ f, exec i s = .fault f → step s = .fault f)

/-- Derived from R128 and R260: a halted or aborted engine takes no step; that the model answers a refusal there
is its own choice (log entry 8). -/
def Obligations.EndedEngineTakesNoStep : Prop :=
  ∀ s : State, (s.runState = .halted → step s = .refused .runHalted) ∧
    (s.runState = .aborted → step s = .refused .runAborted)

/-- R260 (derived): a fault leaves the engine aborted with the fault latched; a fault of the load or the decode
pass leaves every register, flag and byte of memory at its reset value (R261) and lists nothing (R285). Two
clauses are the model's choice: the report of an aborted run has no final values, where R122 and R292 only leave
them unspecified (log entry 7), and a further step answers the refusal runAborted (log entry 8). -/
def Obligations.FaultsAbortTheRun : Prop :=
  ∀ (s : State) (f : Fault), step s = .fault f →
    (tick s).runState = .aborted ∧ (tick s).fault = some f ∧ (report (tick s)).faultCode = f.code ∧
    (report (tick s)).final = none ∧ step (tick s) = .refused .runAborted ∧
    (s.runState = .notStarted → (tick s).regs = .zero ∧ (tick s).segs = .zero ∧ (tick s).flags = .zero ∧
      (tick s).mem = .zero ∧ (report (tick s)).listing = [])

/-! ## Registers, flags and memory -/

/-- R23: an 8-bit register is a half of its parent; a write to it leaves every other half, and every register but
the parent, SP, BP, SI and DI among them (R22), unchanged; a 16-bit write sets both halves (R24). -/
def Obligations.ByteRegistersAreHalvesOfTheirParents : Prop :=
  ∀ (r : Regs) (i : BitVec 3) (v : Byte),
    (i.toNat < 4 → r.get8 i = (r.get16 i).setWidth 8) ∧
    (4 ≤ i.toNat → r.get8 i = ((r.get16 (i - 4)) >>> 8).setWidth 8) ∧
    (r.set8 i v).get8 i = v ∧ (∀ j, j ≠ i → (r.set8 i v).get8 j = r.get8 j) ∧
    (∀ c : BitVec 3, c.toNat ≠ i.toNat % 4 → (r.set8 i v).get16 c = r.get16 c) ∧
    (∀ (c : BitVec 3) (x : Word), c.toNat < 4 →
      (r.set16 c x).get8 c = x.setWidth 8 ∧ (r.set16 c x).get8 (c + 4) = (x >>> 8).setWidth 8)

/-- R31 (derived): the bit positions of the packed flags word, all other bits 0. -/
def Obligations.PackedFlagsWord : Prop :=
  ∀ f : Flags, f.pack.getLsbD 0 = f.CF ∧ f.pack.getLsbD 2 = f.PF ∧ f.pack.getLsbD 4 = f.AF ∧
    f.pack.getLsbD 6 = f.ZF ∧ f.pack.getLsbD 7 = f.SF ∧ f.pack.getLsbD 8 = f.TF ∧ f.pack.getLsbD 9 = f.IF ∧
    f.pack.getLsbD 10 = f.DF ∧ f.pack.getLsbD 11 = f.OF ∧
    ∀ k ∈ [1, 3, 5, 12, 13, 14, 15], f.pack.getLsbD k = false

/-- R51, R52: little-endian words, whose high byte at 0xFFFF is at 0x0000; a write changes the bytes it names
and no other. -/
def Obligations.MemoryIsLittleEndianAndWraps : Prop :=
  ∀ (m : Memory) (a : Word) (v : Word), m.wf = true →
    memRead m a .w8 = (m.read a).setWidth 16 ∧ memRead m a .w16 = m.read (a + 1) ++ m.read a ∧
    (memWrite m a .w8 v).read a = v.setWidth 8 ∧
    (∀ b, b ≠ a → (memWrite m a .w8 v).read b = m.read b) ∧
    (memWrite m a .w16 v).read a = v.setWidth 8 ∧ (memWrite m a .w16 v).read (a + 1) = (v >>> 8).setWidth 8 ∧
    (∀ b, b ≠ a → b ≠ a + 1 → (memWrite m a .w16 v).read b = m.read b) ∧
    (0xFFFF : Word) + 1 = 0x0000

/-- Derived from R48 and the memory's canonical form: every write keeps it, and two canonical memories that
read alike everywhere are equal. -/
def Obligations.MemoryIsCanonical : Prop :=
  (∀ (m : Memory) (a : Word) (w : Width) (v : Word), m.wf = true → (memWrite m a w v).wf = true) ∧
  (∀ m m' : Memory, m.wf = true → m'.wf = true → (∀ a, m.read a = m'.read a) → m = m')

/-! ## Operands -/

/-- R91, R97, R98: the effective address is the base plus the displacement modulo 2^16, or the constant. -/
def Obligations.EffectiveAddressByBase : Prop :=
  ∀ (r : Regs) (d a : Word) (w : Width),
    effectiveAddress r (.mem .bxSi d w) = some (r.get16 3 + r.get16 6 + d) ∧
    effectiveAddress r (.mem .bxDi d w) = some (r.get16 3 + r.get16 7 + d) ∧
    effectiveAddress r (.mem .bpSi d w) = some (r.get16 5 + r.get16 6 + d) ∧
    effectiveAddress r (.mem .bpDi d w) = some (r.get16 5 + r.get16 7 + d) ∧
    effectiveAddress r (.mem .si d w) = some (r.get16 6 + d) ∧
    effectiveAddress r (.mem .di d w) = some (r.get16 7 + d) ∧
    effectiveAddress r (.mem .bp d w) = some (r.get16 5 + d) ∧
    effectiveAddress r (.mem .bx d w) = some (r.get16 3 + d) ∧
    effectiveAddress r (.abs a w) = some a

/-- Derived from R27 and R97: the segment registers take no part in anything but the two segment moves: any
other instruction does the same whatever they hold. -/
def Obligations.SegmentRegistersTakeNoPart : Prop :=
  ∀ (i : Instr) (s : State) (g : Segs), (∀ sr rm, i ≠ .movRmSr sr rm) → (∀ sr rm, i ≠ .movSrRm sr rm) →
    (∀ t, exec i s = .next t → exec i { s with segs := g } = .next { t with segs := g } ∧ t.segs = s.segs) ∧
    (∀ f, exec i s = .fault f → exec i { s with segs := g } = .fault f)

/-- R94: source and destination by shape; d = 1 makes the reg or sr field the destination. Beside it, derived from
R92, R85 and R86, what rmOperand and the displacement and immediate values are. -/
def Obligations.OperandsByShape : Prop :=
  (∀ (mk : Bool → Width → BitVec 3 → Rm → Instr) (w : Width) (reg : BitVec 3) (rm : Rm),
    mk = .movRmR ∨ mk = .addRmR ∨ mk = .subRmR ∨ mk = .cmpRmR →
    src (mk true w reg rm) = rmOperand rm w ∧ dst (mk true w reg rm) = .reg reg w ∧
    src (mk false w reg rm) = .reg reg w ∧ dst (mk false w reg rm) = rmOperand rm w) ∧
  (∀ (sr : BitVec 2) (rm : Rm),
    src (.movRmSr sr rm) = rmOperand rm .w16 ∧ dst (.movRmSr sr rm) = .sreg sr ∧
    src (.movSrRm sr rm) = .sreg sr ∧ dst (.movSrRm sr rm) = rmOperand rm .w16) ∧
  (∀ (w : Width) (addr : Word),
    src (.movAccMem w addr) = .abs addr w ∧ dst (.movAccMem w addr) = .reg 0 w ∧
    src (.movMemAcc w addr) = .reg 0 w ∧ dst (.movMemAcc w addr) = .abs addr w) ∧
  (∀ (rm : Rm) (imm : Imm),
    src (.movImmRm rm imm) = .imm imm.value imm.width ∧ dst (.movImmRm rm imm) = rmOperand rm imm.width) ∧
  (∀ (mk : Rm → ArithImm → Instr) (rm : Rm) (imm : ArithImm),
    mk = .addImmRm ∨ mk = .subImmRm ∨ mk = .cmpImmRm →
    src (mk rm imm) = .imm imm.value imm.width ∧ dst (mk rm imm) = rmOperand rm imm.width) ∧
  (∀ (reg : BitVec 3) (imm : Imm),
    src (.movImmR reg imm) = .imm imm.value imm.width ∧ dst (.movImmR reg imm) = .reg reg imm.width) ∧
  (∀ (mk : Imm → Instr) (imm : Imm), mk = .addImmAcc ∨ mk = .subImmAcc ∨ mk = .cmpImmAcc →
    src (mk imm) = .imm imm.value imm.width ∧ dst (mk imm) = .reg 0 imm.width) ∧
  (∀ (i : Instr) (inc : Byte), jumpIncrement i = some inc → src i = .none ∧ dst i = .jmp inc 2) ∧
  (∀ (c : BitVec 3) (a v : Word) (b : Byte) (base : Base) (w : Width),
    rmOperand (.reg c) w = .reg c w ∧ rmOperand (.direct a) w = .abs a w ∧
    rmOperand (.mem base .none) w = .mem base 0 w ∧
    rmOperand (.mem base (.byte b)) w = .mem base (b.signExtend 16) w ∧
    rmOperand (.mem base (.word v)) w = .mem base v w) ∧
  (∀ (s : Bool) (b : Byte) (v : Word),
    (Imm.byte b).value = b.setWidth 16 ∧ (Imm.byte b).width = .w8 ∧
    (Imm.word v).value = v ∧ (Imm.word v).width = .w16 ∧
    (ArithImm.byte s b).value = b.setWidth 16 ∧ (ArithImm.byte s b).width = .w8 ∧
    (ArithImm.word v).value = v ∧ (ArithImm.word v).width = .w16 ∧
    (ArithImm.signed b).value = b.signExtend 16 ∧ (ArithImm.signed b).width = .w16)

/-- R125 (derived): the value of every operand kind; NONE has none. -/
def Obligations.OperandReads : Prop :=
  ∀ (s : State) (c : BitVec 3) (g : BitVec 2) (b : Base) (d a v : Word) (w : Width) (inc : Byte) (n : Nat),
    readOp (.reg c .w16) s = some (s.regs.get16 c) ∧
    readOp (.reg c .w8) s = some ((s.regs.get8 c).setWidth 16) ∧
    readOp (.sreg g) s = some (s.segs.get g) ∧
    (∀ ea, effectiveAddress s.regs (.mem b d w) = some ea → readOp (.mem b d w) s = some (memRead s.mem ea w)) ∧
    readOp (.abs a w) s = some (memRead s.mem a w) ∧
    readOp (.imm v .w16) s = some v ∧ readOp (.imm v .w8) s = some ((v.setWidth 8).setWidth 16) ∧
    readOp (.jmp inc n) s = some (inc.signExtend 16) ∧ readOp .none s = none

/-! ## Moves -/

/-- R140: every move puts its source's value into its destination and changes nothing else and no flag, at the
operands of R94. -/
def Obligations.MovesMoveSourceToDestination : Prop :=
  ∀ (i : Instr) (s : State), s.mem.wf = true → i.action = .move → MovesTo i (src i) (dst i) s

/-- R140, R141 (derived): MOV_RM_R in both directions, both widths, every register-or-memory form. -/
def Obligations.MovRmRMoves : Prop :=
  ∀ (w : Width) (reg : BitVec 3) (rm : Rm) (s : State), s.mem.wf = true →
    MovesTo (.movRmR true w reg rm) (rmOperand rm w) (.reg reg w) s ∧
    MovesTo (.movRmR false w reg rm) (.reg reg w) (rmOperand rm w) s

/-- R142, R143 (derived): the two immediate moves; the value is the immediate itself. -/
def Obligations.MovImmediateMoves : Prop :=
  ∀ (reg : BitVec 3) (rm : Rm) (imm : Imm) (s : State), s.mem.wf = true →
    MovesTo (.movImmRm rm imm) (.imm imm.value imm.width) (rmOperand rm imm.width) s ∧
    MovesTo (.movImmR reg imm) (.imm imm.value imm.width) (.reg reg imm.width) s ∧
    readOp (.imm imm.value imm.width) s = some imm.value

/-- R144, R145 (derived): the accumulator moves; the accumulator is register 0. -/
def Obligations.MovAccumulatorMoves : Prop :=
  ∀ (w : Width) (addr : Word) (s : State), s.mem.wf = true →
    MovesTo (.movAccMem w addr) (.abs addr w) (.reg 0 w) s ∧
    MovesTo (.movMemAcc w addr) (.reg 0 w) (.abs addr w) s

/-- R146, R147 (derived): the segment-register moves, always 16 bits wide; a move to CS only stores the value. -/
def Obligations.MovSegmentRegisterMoves : Prop :=
  ∀ (sr : BitVec 2) (rm : Rm) (s : State), s.mem.wf = true →
    MovesTo (.movRmSr sr rm) (rmOperand rm .w16) (.sreg sr) s ∧
    MovesTo (.movSrRm sr rm) (.sreg sr) (rmOperand rm .w16) s

/-! ## Arithmetic -/

/-- R160, R163, R170: the three ADD descriptors at both widths: the sum, the six flags, the frame. -/
def Obligations.AddAdds : Prop :=
  ∀ (w : Width) (reg : BitVec 3) (rm : Rm) (aimm : ArithImm) (imm : Imm) (s : State), s.mem.wf = true →
    AddsTo (.addRmR true w reg rm) w (rmOperand rm w) (.reg reg w) s ∧
    AddsTo (.addRmR false w reg rm) w (.reg reg w) (rmOperand rm w) s ∧
    AddsTo (.addImmRm rm aimm) aimm.width (.imm aimm.value aimm.width) (rmOperand rm aimm.width) s ∧
    AddsTo (.addImmAcc imm) imm.width (.imm imm.value imm.width) (.reg 0 imm.width) s

/-- R161, R164, R170: the three SUB descriptors at both widths: the difference, the six flags, the frame. -/
def Obligations.SubSubtracts : Prop :=
  ∀ (w : Width) (reg : BitVec 3) (rm : Rm) (aimm : ArithImm) (imm : Imm) (s : State), s.mem.wf = true →
    SubtractsFrom (.subRmR true w reg rm) w (rmOperand rm w) (.reg reg w) s ∧
    SubtractsFrom (.subRmR false w reg rm) w (.reg reg w) (rmOperand rm w) s ∧
    SubtractsFrom (.subImmRm rm aimm) aimm.width (.imm aimm.value aimm.width) (rmOperand rm aimm.width) s ∧
    SubtractsFrom (.subImmAcc imm) imm.width (.imm imm.value imm.width) (.reg 0 imm.width) s

/-- R162: the three CMP descriptors at both widths: the flags of the subtraction; no register and no byte of
memory changes. -/
def Obligations.CmpComparesWithoutWriting : Prop :=
  ∀ (w : Width) (reg : BitVec 3) (rm : Rm) (aimm : ArithImm) (imm : Imm) (s : State),
    Compares (.cmpRmR true w reg rm) w (rmOperand rm w) (.reg reg w) s ∧
    Compares (.cmpRmR false w reg rm) w (.reg reg w) (rmOperand rm w) s ∧
    Compares (.cmpImmRm rm aimm) aimm.width (.imm aimm.value aimm.width) (rmOperand rm aimm.width) s ∧
    Compares (.cmpImmAcc imm) imm.width (.imm imm.value imm.width) (.reg 0 imm.width) s

/-- R167 (derived): CF reports unsigned overflow and OF signed overflow of the W-bit operation: the exact
unsigned, or signed, result does not fit. -/
def Obligations.CarryAndOverflowReportWrapping : Prop :=
  (∀ old v : Word,
    ((aluAdd old v .w16).2.CF = true ↔ (aluAdd old v .w16).1.toNat ≠ old.toNat + v.toNat) ∧
    ((aluAdd old v .w16).2.OF = true ↔ (aluAdd old v .w16).1.toInt ≠ old.toInt + v.toInt) ∧
    ((aluSub old v .w16).2.CF = true ↔ ((aluSub old v .w16).1.toNat : Int) ≠ (old.toNat : Int) - v.toNat) ∧
    ((aluSub old v .w16).2.OF = true ↔ (aluSub old v .w16).1.toInt ≠ old.toInt - v.toInt)) ∧
  (∀ old v : Byte,
    ((aluAdd (zext8 old) (zext8 v) .w8).2.CF = true ↔
      (aluAdd (zext8 old) (zext8 v) .w8).1.toNat ≠ old.toNat + v.toNat) ∧
    ((aluAdd (zext8 old) (zext8 v) .w8).2.OF = true ↔
      (loByte (aluAdd (zext8 old) (zext8 v) .w8).1).toInt ≠ old.toInt + v.toInt) ∧
    ((aluSub (zext8 old) (zext8 v) .w8).2.CF = true ↔
      ((aluSub (zext8 old) (zext8 v) .w8).1.toNat : Int) ≠ (old.toNat : Int) - v.toNat) ∧
    ((aluSub (zext8 old) (zext8 v) .w8).2.OF = true ↔
      (loByte (aluSub (zext8 old) (zext8 v) .w8).1).toInt ≠ old.toInt - v.toInt))

/-- R165: PF says that the low byte has an even number of set bits: 0 has it, flipping any of the low eight bits
flips it, and no higher bit counts. -/
def Obligations.ParityIsOfTheLowByte : Prop :=
  (∀ v : Word, parity v = true ↔ (List.range 8).countP (fun k => v.getLsbD k) % 2 = 0) ∧
  parity 0 = true ∧
  (∀ (v : Word) (k : Nat), k < 8 → parity (v ^^^ ((1 : Word) <<< k)) = !parity v) ∧
  (∀ (v : Word) (k : Nat), 8 ≤ k → parity (v ^^^ ((1 : Word) <<< k)) = parity v)

/-- R166 (derived): with the policy refuse every byte record is refused and every word record does as with the
default; with the default none is refused. -/
def Obligations.ByteArithmeticPolicy : Prop :=
  ∀ (op : AluOp) (wb : Bool) (w : Width) (i : Instr) (s : State),
    arithStep .refuse op wb .w8 i s = .refused (.byteArithmetic i.id) ∧
    arithStep .refuse op wb .w16 i s = arithStep .operandWidth op wb .w16 i s ∧
    ∀ x, arithStep .operandWidth op wb w i s ≠ .refused x

/-! ## Jumps -/

/-- R195: the sixteen conditional jumps by number and first byte, each taken exactly when its flags say, by R190
and R198. -/
def Obligations.ConditionalJumps : Prop :=
  numberedAs conditionalJumpRows ∧
  ∀ (inc : Byte) (s : State), s.idx < s.store.length →
    JumpsWhen (.jo inc) inc (s.flags.OF = true) s ∧ JumpsWhen (.jno inc) inc (s.flags.OF = false) s ∧
    JumpsWhen (.jb inc) inc (s.flags.CF = true) s ∧ JumpsWhen (.jnb inc) inc (s.flags.CF = false) s ∧
    JumpsWhen (.je inc) inc (s.flags.ZF = true) s ∧ JumpsWhen (.jne inc) inc (s.flags.ZF = false) s ∧
    JumpsWhen (.jbe inc) inc (s.flags.CF = true ∨ s.flags.ZF = true) s ∧
    JumpsWhen (.ja inc) inc (s.flags.CF = false ∧ s.flags.ZF = false) s ∧
    JumpsWhen (.js inc) inc (s.flags.SF = true) s ∧ JumpsWhen (.jns inc) inc (s.flags.SF = false) s ∧
    JumpsWhen (.jp inc) inc (s.flags.PF = true) s ∧ JumpsWhen (.jnp inc) inc (s.flags.PF = false) s ∧
    JumpsWhen (.jl inc) inc (s.flags.SF ≠ s.flags.OF) s ∧ JumpsWhen (.jnl inc) inc (s.flags.SF = s.flags.OF) s ∧
    JumpsWhen (.jle inc) inc (s.flags.ZF = true ∨ s.flags.SF ≠ s.flags.OF) s ∧
    JumpsWhen (.jg inc) inc (s.flags.ZF = false ∧ s.flags.SF = s.flags.OF) s

/-- R196: loopnz, loopz and loop decrement CX modulo 2^16 before their predicate; jcxz writes no register; none
writes a flag. -/
def Obligations.LoopFamilyAndJcxz : Prop :=
  numberedAs loopRows ∧
  ∀ (inc : Byte) (s : State), s.idx < s.store.length →
    LoopsWhen (.loopnz inc) inc (fun cx => cx ≠ 0 ∧ s.flags.ZF = false) s ∧
    LoopsWhen (.loopz inc) inc (fun cx => cx ≠ 0 ∧ s.flags.ZF = true) s ∧
    LoopsWhen (.loop inc) inc (fun cx => cx ≠ 0) s ∧ JumpsWhen (.jcxz inc) inc (s.regs.CX = 0) s

/-- R198 (derived): the landing index is the unique record boundary at the target, the end of the program included. -/
def Obligations.LandingIsTheUniqueBoundaryAtTheTarget : Prop :=
  ∀ (store : List Record) (i : Nat) (inc : Int), i < store.length →
    (∀ j, landing store i inc = .ok j ↔
      j ≤ store.length ∧ (offsetOf store j : Int) = offsetOf store (i + 1) + inc) ∧
    (∀ j k, j ≤ store.length → k ≤ store.length → offsetOf store j = offsetOf store k → j = k)

/-- R199: a taken jump whose target lies before offset 0 or after the end faults JUMP_OVERRUN, one whose target
falls inside a record JUMP_MISALIGNED, each with the text and the signed increment; a jump that is not taken
never faults. -/
def Obligations.TakenJumpToABadTargetFaults : Prop :=
  ∀ (i : Instr) (inc : Byte) (s : State), jumpIncrement i = some inc → s.idx < s.store.length →
    (jumpTaken s.flags s.regs.CX i →
      (jumpTarget s inc < 0 ∨ (offsetOf s.store s.store.length : Int) < jumpTarget s inc →
        exec i s = .fault (.jumpOverrun (text i) inc.toInt)) ∧
      (0 ≤ jumpTarget s inc → jumpTarget s inc ≤ offsetOf s.store s.store.length →
        (∀ j, j ≤ s.store.length → (offsetOf s.store j : Int) ≠ jumpTarget s inc) →
        exec i s = .fault (.jumpMisaligned (text i) inc.toInt))) ∧
    (¬jumpTaken s.flags s.regs.CX i → ∃ t, exec i s = .next t)

/-! ## Clocks -/

/-- R245, and R244 (derived; the end of R121's step): every executed instruction charges its record's base and
EA clocks and its alignment clocks, patches the record, and keeps everything the host latched. -/
def Obligations.EveryStepChargesItsClocks : Prop :=
  ∀ (i : Instr) (s t : State), exec i s = .next t → retired i t.idx s t

/-- R240: four clocks, once, for a word operand in memory at an odd address; none for a byte, for an even
address, or without a memory operand. -/
def Obligations.AlignmentPenalty : Prop :=
  ∀ (i : Instr) (r : Regs),
    ((∃ op ea, (op = src i ∨ op = dst i) ∧ effectiveAddress r op = some ea ∧ operandWidth op = some .w16 ∧
        ea.toNat % 2 = 1) → alignClocks i r = 4) ∧
    ((∀ op ea, op = src i ∨ op = dst i → effectiveAddress r op = some ea → operandWidth op = some .w16 →
        ea.toNat % 2 = 0) → alignClocks i r = 0)

/-- R242, R243 (derived): the value before the first execution is exact for a record whose memory operand is an
absolute address or that has none, and 0 for an effective address. -/
def Obligations.AlignmentAtDecode : Prop :=
  ∀ (i : Instr) (r : Regs),
    ((src i).kind ≠ .mem → (dst i).kind ≠ .mem → alignAtDecode i = alignClocks i r) ∧
    ((src i).kind = .mem ∨ (dst i).kind = .mem → alignAtDecode i = 0)

/-- R237, R238: the 16 paths of the effective-address table, and BP with an 8-bit displacement. -/
def Obligations.EffectiveAddressClocks : Prop :=
  (∀ b, b ≠ .bp → eaClocks (.mem b .none) =
    if b = .bxSi ∨ b = .bpDi then 7 else if b = .bxDi ∨ b = .bpSi then 8 else 5) ∧
  (∀ a, eaClocks (.direct a) = 6) ∧
  (∀ b v, b ≠ .bp → eaClocks (.mem b (.byte v)) =
    if b = .bxSi ∨ b = .bpDi then 11 else if b = .bxDi ∨ b = .bpSi then 12 else 9) ∧
  (∀ b v, eaClocks (.mem b (.word v)) =
    if b = .bxSi ∨ b = .bpDi then 11 else if b = .bxDi ∨ b = .bpSi then 12 else 9) ∧
  (∀ v : Byte, eaClocks (.mem .bp (.byte v)) = if v = 0 then 5 else 9)

/-- R235 (derived): the default table has a row for every instruction, so MISSING_CLOCK_ROW is never raised; the
record holds the instruction and its offset. -/
def Obligations.TimingTableIsExhaustive : Prop :=
  ∀ (i : Instr) (off : Nat), ∃ r, clockDecode baseClocksTable i off = .ok r ∧ r.instr = i ∧ r.off = off ∧
    r.alignClocks = alignAtDecode i

/-- R234: the default timing table, row by row: the base clocks, and the EA clocks where the row asks for them. -/
def Obligations.BaseClocksOfTheTable : Prop :=
  ∀ (w : Width) (reg c : BitVec 3) (sr : BitVec 2) (m : Rm) (imm : Imm) (aimm : ArithImm) (a : Word) (off : Nat),
    m.mod ≠ 0b11 →
    let clocks := fun i => match clockDecode baseClocksTable i off with
      | .ok r => some (r.baseClocks, r.eaClocks)
      | .error _ => none
    (∀ d, clocks (.movRmR d w reg (.reg c)) = some (2, 0)) ∧
    clocks (.movRmR true w reg m) = some (8, eaClocks m) ∧ clocks (.movRmR false w reg m) = some (9, eaClocks m) ∧
    clocks (.movImmRm (.reg c) imm) = some (4, 0) ∧ clocks (.movImmRm m imm) = some (10, eaClocks m) ∧
    clocks (.movImmR reg imm) = some (4, 0) ∧
    clocks (.movAccMem w a) = some (10, 0) ∧ clocks (.movMemAcc w a) = some (10, 0) ∧
    clocks (.movRmSr sr (.reg c)) = some (2, 0) ∧ clocks (.movRmSr sr m) = some (8, eaClocks m) ∧
    clocks (.movSrRm sr (.reg c)) = some (2, 0) ∧ clocks (.movSrRm sr m) = some (9, eaClocks m) ∧
    (∀ d, clocks (.addRmR d w reg (.reg c)) = some (3, 0) ∧ clocks (.subRmR d w reg (.reg c)) = some (3, 0) ∧
      clocks (.cmpRmR d w reg (.reg c)) = some (3, 0)) ∧
    clocks (.addRmR true w reg m) = some (9, eaClocks m) ∧ clocks (.addRmR false w reg m) = some (16, eaClocks m) ∧
    clocks (.subRmR true w reg m) = some (9, eaClocks m) ∧ clocks (.subRmR false w reg m) = some (16, eaClocks m) ∧
    (∀ d, clocks (.cmpRmR d w reg m) = some (9, eaClocks m)) ∧
    clocks (.addImmRm (.reg c) aimm) = some (4, 0) ∧ clocks (.addImmRm m aimm) = some (17, eaClocks m) ∧
    clocks (.subImmRm (.reg c) aimm) = some (4, 0) ∧ clocks (.subImmRm m aimm) = some (17, eaClocks m) ∧
    clocks (.cmpImmRm (.reg c) aimm) = some (4, 0) ∧ clocks (.cmpImmRm m aimm) = some (10, eaClocks m) ∧
    clocks (.addImmAcc imm) = some (4, 0) ∧ clocks (.subImmAcc imm) = some (4, 0) ∧
    clocks (.cmpImmAcc imm) = some (4, 0) ∧
    (∀ i inc, jumpIncrement i = some inc → clocks i = some (Config.jumpBaseClocks i.id, 0))

/-- R236 (derived): one value per jump descriptor, whatever it is, charged taken or not, with no EA and no alignment
clocks. -/
def Obligations.JumpClocksAreOneOpenValue : Prop :=
  ∀ (i : Instr) (inc : Byte) (off : Nat) (regs : Regs), jumpIncrement i = some inc →
    clockDecode baseClocksTable i off = .ok (⟨i, off, Config.jumpBaseClocks i.id, 0, 0⟩ : Record) ∧ alignClocks i regs = 0

/-! ## Whole-machine rules -/

/-- R263 (derived): at execution only a taken jump faults, and only as misaligned or overrun. That no instruction
is refused rests on the model's keeping BYTE_ARITH_POLICY at its default, operand_width (R7, R166; log entry 5). -/
def Obligations.OnlyTakenJumpsFault : Prop :=
  ∀ (i : Instr) (s : State),
    (∀ f, exec i s = .fault f → ∃ inc, jumpIncrement i = some inc ∧ jumpTaken s.flags s.regs.CX i ∧
      (f = .jumpMisaligned (text i) inc.toInt ∨ f = .jumpOverrun (text i) inc.toInt)) ∧
    ∀ x, exec i s ≠ .refused x

/-- R29 (derived): moves and jumps write no flag, and no instruction writes TF, IF or DF. -/
def Obligations.FlagsAreWrittenByArithmeticOnly : Prop :=
  ∀ (i : Instr) (s t : State), exec i s = .next t →
    controlFlagsKept s.flags t.flags ∧ (i.action = .move ∨ i.action = .jump → t.flags = s.flags)

/-- Derived from R27 and R25: a segment register is written only by the move that names it; a general register
only by an instruction whose destination it is, and CX by the loop family. -/
def Obligations.RegistersAreWrittenOnlyAsDestinations : Prop :=
  ∀ (i : Instr) (s t : State), exec i s = .next t →
    (∀ c, (∀ rm, i ≠ .movRmSr c rm) → t.segs.get c = s.segs.get c) ∧
    (∀ c, c ∉ destRegs (dst i) →
      (c = 1 → (∀ inc, i ≠ .loop inc) ∧ (∀ inc, i ≠ .loopz inc) ∧ (∀ inc, i ≠ .loopnz inc)) →
      t.regs.get16 c = s.regs.get16 c)

/-- Derived from R56, R57 and R162: memory changes only at the destination of a move, an ADD or a SUB, at the
address its operand has before the step. -/
def Obligations.MemoryIsWrittenOnlyAtTheDestination : Prop :=
  ∀ (i : Instr) (s t : State), exec i s = .next t →
    ∀ a, (a ∉ operandStores s.regs (dst i) ∨ i.action = .compare ∨ i.action = .jump) →
      t.mem.read a = s.mem.read a

/-- R33 (derived): the pointer moves to the next record, or, for a taken jump, to the boundary at its target. -/
def Obligations.PointerAdvancesOrLands : Prop :=
  ∀ (i : Instr) (s t : State), exec i s = .next t → s.idx < s.store.length →
    t.ipOffset = offsetOf t.store t.idx ∧
    (t.idx = s.idx + 1 ∨ ∃ inc, jumpIncrement i = some inc ∧ jumpTaken s.flags s.regs.CX i ∧
      (offsetOf s.store t.idx : Int) = jumpTarget s inc)

/-- Derived from R39, R60 and R288: no step changes the host's inputs, the code buffer among them. -/
def Obligations.HostInputsNeverChange : Prop :=
  ∀ s t : State, step s = .next t → t.host = s.host

/-! ## The host's outputs -/

/-- R293, R107 (derived): the dump is the range's bytes in ascending order, wrapping; the listing has one line
per record in record order, from the store as it stands. -/
def Obligations.DumpAndListing : Prop :=
  ∀ (s : State) (start : Word) (count : Nat),
    (s.host.dumpRange = some (start, count) → s.host.shouldExecute = true →
      (dump s).length = count ∧
      ∀ k, k < count → (dump s)[k]? = some (s.mem.read (BitVec.ofNat 16 ((start.toNat + k) % 65536)))) ∧
    (s.host.shouldDisassemble = true →
      (listing s).length = s.store.length ∧
      ∀ k r, s.store[k]? = some r →
        (listing s)[k]? = some (⟨text r.instr, r.off, k, r.len, r.baseClocks, r.eaClocks, r.alignClocks⟩ : ListingLine))

/-- R41, R292 (derived): what the host reads at the end of a run that did not abort: every register and flag, idx,
the clocks and the dump as they stand, and the byte pointer as 16 bits where it fits; the run state, the latched
fault and the listing; the numbers of the fault codes (R262). -/
def Obligations.ReportTheHostReads : Prop :=
  (∀ s : State, s.runState ≠ .aborted →
    ∃ f, (report s).final = some f ∧ f.regs = s.regs ∧ f.segs = s.segs ∧ f.flags = s.flags ∧
      f.flagsWord = s.flags.pack ∧ f.idx = s.idx ∧ f.clocks = s.clocks ∧ f.dump = dump s ∧
      (s.ipOffset < 65536 → f.ipOffset.toNat = s.ipOffset)) ∧
  (∀ s : State, (report s).runState = s.runState ∧ (report s).fault = s.fault ∧ (report s).listing = listing s ∧
    (s.fault = none → (report s).faultCode = 0) ∧ (∀ f, s.fault = some f → (report s).faultCode = f.code)) ∧
  (∀ (off id idx n : Nat) (bs : List Byte) (k k' : OperandKind) (fk : FieldKind) (txt : String) (inc : Int),
    (Fault.unmatchedOpcode off bs).code = 1 ∧ (Fault.unmatchedShape off id).code = 2 ∧
    (Fault.missingClockRow off id k k').code = 3 ∧ (Fault.truncated off).code = 4 ∧
    (Fault.noField off id fk).code = 5 ∧ (Fault.execInvariant idx id).code = 6 ∧
    (Fault.jumpMisaligned txt inc).code = 7 ∧ (Fault.jumpOverrun txt inc).code = 8 ∧ (Fault.capacity n).code = 9)

/-! ## The encoding tables -/

/-- Derived from R72, R74, R82, R84, R86, R87 and R91: every descriptor has its id, mnemonic and action, and the
encoder writes, for a well-formed instruction, exactly the bytes of the format, so that with
DecodeOfEncodeIsIdentity these bytes decode to it. -/
def Obligations.EncodingIsTheLayoutOfTheFormats : Prop :=
  ∀ i : Instr, (i.id, i.mnemonic, i.action) = catalogEntry i ∧ (i.wf = true → encode i = layout i)
end

