-- ==== Sys2Proof/Laws/Catalog.lean ====
section
/-! SUPPORT. Facts about the catalog (R74): every instruction's descriptor is a row of it, and what a row fixes. -/

namespace Sys2Proof

/-- Every instruction's descriptor is a row of the catalog (R74). -/
theorem descriptor_mem (i : Instr) : i.descriptor ∈ catalog := by
  cases i <;> simp [catalog, oneOfEach, Instr.descriptor]

/-- A fact about every row of the catalog holds of every instruction's descriptor. -/
theorem descriptor_of_catalog {p : Descriptor → Prop} (h : ∀ e ∈ catalog, p e) (i : Instr) : p i.descriptor :=
  h _ (descriptor_mem i)

/-- R74: the catalog has 36 rows. -/
theorem catalog_length : catalog.length = 36 := rfl

/-- The opcode-byte count of every row is 1 or 2 (R81). -/
theorem catalog_opcodeBytes : ∀ e ∈ catalog, e.opcodeBytes = 1 ∨ e.opcodeBytes = 2 := by decide

/-- R93: every row of the catalog has a shape, so UNMATCHED_SHAPE is never raised (R263). -/
theorem catalog_shape : ∀ e ∈ catalog, e.shape.isSome = true := by decide

/-- Every row declares at most one displacement, immediate, address and increment, at least one of them
present when the opcode is one byte long. -/
theorem catalog_trailing : ∀ e ∈ catalog, e.opcodeBytes = 1 →
    e.declares .immediateDataPresent = true ∨ e.declares .absoluteAddressPresent = true ∨
      e.declares .shortJumpPresent = true := by decide

end Sys2Proof
end

