-- ==== Sys2Proof/Laws/PerInstr.lean ====
section
/-! SUPPORT. The per-instruction family Length: every instruction is 2 to 6 bytes long (R6, R88). -/

namespace Sys2Proof

/-- The immediate bytes of a form without an s field (R88). -/
def Imm.bytes (imm : Imm) : Nat := imm.width.bytes

/-- The immediate bytes of a form with an s field: 2 if w = 1 and s = 0 else 1 (R88). -/
def ArithImm.bytes : ArithImm → Nat
  | .byte _ _ => 1
  | .word _ => 2
  | .signed _ => 1

theorem Imm.bytes_bounds (imm : Imm) : 1 ≤ imm.bytes ∧ imm.bytes ≤ 2 := by
  cases imm <;> simp [Imm.bytes, Imm.width, Width.bytes]

theorem ArithImm.bytes_bounds (imm : ArithImm) : 1 ≤ imm.bytes ∧ imm.bytes ≤ 2 := by
  cases imm <;> simp [ArithImm.bytes]

/-- R84: at most two displacement bytes. -/
theorem dispLength_le : ∀ (m : BitVec 2) (r : BitVec 3), dispLength m r ≤ 2 := by decide

/-- R88, format IMMRM without an s field. -/
theorem dataBytes_imm (imm : Imm) (rm : Rm) :
    (Instr.movImmRm rm imm).len = 2 + dispLength rm.mod rm.code + imm.bytes := by cases imm <;> rfl

/-- R88, format IMMRM with an s field. -/
theorem dataBytes_arith (imm : ArithImm) (rm : Rm) :
    (Instr.addImmRm rm imm).len = 2 + dispLength rm.mod rm.code + imm.bytes := by rcases imm with ⟨_ | _, _⟩ | _ | _ <;> rfl

end Sys2Proof

namespace Sys2Proof.Laws

/-- Every instruction is 2 to 6 bytes long (R6, R88). -/
def Length.Statement (i : Instr) : Prop := 2 ≤ i.len ∧ i.len ≤ maxLength

theorem Length.of_rm {i : Instr} (rm : Rm) (h : i.len = 2 + dispLength rm.mod rm.code) : Length.Statement i := by
  have := dispLength_le rm.mod rm.code
  unfold Length.Statement maxLength; omega

theorem Length.of_imm {i : Instr} (rm : Rm) {n : Nat} (h : i.len = 2 + dispLength rm.mod rm.code + n)
    (hn : 1 ≤ n ∧ n ≤ 2) : Length.Statement i := by
  have := dispLength_le rm.mod rm.code
  unfold Length.Statement maxLength; omega

theorem Length.of_acc {i : Instr} {n : Nat} (h : i.len = 1 + n) (hn : 1 ≤ n ∧ n ≤ 2) : Length.Statement i := by
  unfold Length.Statement maxLength; omega

theorem Length.movRmR (d : Bool) (w : Width) (reg : BitVec 3) (rm : Rm) : Length.Statement (.movRmR d w reg rm) :=
  Length.of_rm rm rfl

theorem Length.movImmRm (rm : Rm) (imm : Imm) : Length.Statement (.movImmRm rm imm) :=
  Length.of_imm rm (dataBytes_imm imm rm) imm.bytes_bounds

theorem Length.movImmR (reg : BitVec 3) (imm : Imm) : Length.Statement (.movImmR reg imm) :=
  Length.of_acc (n := imm.bytes) (by cases imm <;> rfl) imm.bytes_bounds

theorem Length.movAccMem (w : Width) (addr : Word) : Length.Statement (.movAccMem w addr) :=
  Length.of_acc (n := 2) rfl ⟨by decide, by decide⟩

theorem Length.movMemAcc (w : Width) (addr : Word) : Length.Statement (.movMemAcc w addr) :=
  Length.of_acc (n := 2) rfl ⟨by decide, by decide⟩

theorem Length.movRmSr (sr : BitVec 2) (rm : Rm) : Length.Statement (.movRmSr sr rm) :=
  Length.of_rm rm rfl

theorem Length.movSrRm (sr : BitVec 2) (rm : Rm) : Length.Statement (.movSrRm sr rm) :=
  Length.of_rm rm rfl

theorem Length.addRmR (d : Bool) (w : Width) (reg : BitVec 3) (rm : Rm) : Length.Statement (.addRmR d w reg rm) :=
  Length.of_rm rm rfl

theorem Length.addImmRm (rm : Rm) (imm : ArithImm) : Length.Statement (.addImmRm rm imm) :=
  Length.of_imm rm (dataBytes_arith imm rm) imm.bytes_bounds

theorem Length.addImmAcc (imm : Imm) : Length.Statement (.addImmAcc imm) :=
  Length.of_acc (n := imm.bytes) (by cases imm <;> rfl) imm.bytes_bounds

theorem Length.subRmR (d : Bool) (w : Width) (reg : BitVec 3) (rm : Rm) : Length.Statement (.subRmR d w reg rm) :=
  Length.of_rm rm rfl

theorem Length.subImmRm (rm : Rm) (imm : ArithImm) : Length.Statement (.subImmRm rm imm) :=
  Length.of_imm rm (dataBytes_arith imm rm) imm.bytes_bounds

theorem Length.subImmAcc (imm : Imm) : Length.Statement (.subImmAcc imm) :=
  Length.of_acc (n := imm.bytes) (by cases imm <;> rfl) imm.bytes_bounds

theorem Length.cmpRmR (d : Bool) (w : Width) (reg : BitVec 3) (rm : Rm) : Length.Statement (.cmpRmR d w reg rm) :=
  Length.of_rm rm rfl

theorem Length.cmpImmRm (rm : Rm) (imm : ArithImm) : Length.Statement (.cmpImmRm rm imm) :=
  Length.of_imm rm (dataBytes_arith imm rm) imm.bytes_bounds

theorem Length.cmpImmAcc (imm : Imm) : Length.Statement (.cmpImmAcc imm) :=
  Length.of_acc (n := imm.bytes) (by cases imm <;> rfl) imm.bytes_bounds

theorem Length.jo (inc : Byte) : Length.Statement (.jo inc) :=
  Length.of_acc (n := 1) rfl ⟨by decide, by decide⟩

theorem Length.jno (inc : Byte) : Length.Statement (.jno inc) :=
  Length.of_acc (n := 1) rfl ⟨by decide, by decide⟩

theorem Length.jb (inc : Byte) : Length.Statement (.jb inc) :=
  Length.of_acc (n := 1) rfl ⟨by decide, by decide⟩

theorem Length.jnb (inc : Byte) : Length.Statement (.jnb inc) :=
  Length.of_acc (n := 1) rfl ⟨by decide, by decide⟩

theorem Length.je (inc : Byte) : Length.Statement (.je inc) :=
  Length.of_acc (n := 1) rfl ⟨by decide, by decide⟩

theorem Length.jne (inc : Byte) : Length.Statement (.jne inc) :=
  Length.of_acc (n := 1) rfl ⟨by decide, by decide⟩

theorem Length.jbe (inc : Byte) : Length.Statement (.jbe inc) :=
  Length.of_acc (n := 1) rfl ⟨by decide, by decide⟩

theorem Length.ja (inc : Byte) : Length.Statement (.ja inc) :=
  Length.of_acc (n := 1) rfl ⟨by decide, by decide⟩

theorem Length.js (inc : Byte) : Length.Statement (.js inc) :=
  Length.of_acc (n := 1) rfl ⟨by decide, by decide⟩

theorem Length.jns (inc : Byte) : Length.Statement (.jns inc) :=
  Length.of_acc (n := 1) rfl ⟨by decide, by decide⟩

theorem Length.jp (inc : Byte) : Length.Statement (.jp inc) :=
  Length.of_acc (n := 1) rfl ⟨by decide, by decide⟩

theorem Length.jnp (inc : Byte) : Length.Statement (.jnp inc) :=
  Length.of_acc (n := 1) rfl ⟨by decide, by decide⟩

theorem Length.jl (inc : Byte) : Length.Statement (.jl inc) :=
  Length.of_acc (n := 1) rfl ⟨by decide, by decide⟩

theorem Length.jnl (inc : Byte) : Length.Statement (.jnl inc) :=
  Length.of_acc (n := 1) rfl ⟨by decide, by decide⟩

theorem Length.jle (inc : Byte) : Length.Statement (.jle inc) :=
  Length.of_acc (n := 1) rfl ⟨by decide, by decide⟩

theorem Length.jg (inc : Byte) : Length.Statement (.jg inc) :=
  Length.of_acc (n := 1) rfl ⟨by decide, by decide⟩

theorem Length.loopnz (inc : Byte) : Length.Statement (.loopnz inc) :=
  Length.of_acc (n := 1) rfl ⟨by decide, by decide⟩

theorem Length.loopz (inc : Byte) : Length.Statement (.loopz inc) :=
  Length.of_acc (n := 1) rfl ⟨by decide, by decide⟩

theorem Length.loop (inc : Byte) : Length.Statement (.loop inc) :=
  Length.of_acc (n := 1) rfl ⟨by decide, by decide⟩

theorem Length.jcxz (inc : Byte) : Length.Statement (.jcxz inc) :=
  Length.of_acc (n := 1) rfl ⟨by decide, by decide⟩

end Sys2Proof.Laws
end

