-- ==== Sys2Proof/Laws/State.lean ====
section
/-! SUPPORT. One lemma per field per named update of State, so that no later proof unfolds a record update. -/

namespace Sys2Proof.Machine

/-! ## retire -/

section
variable (i : Instr) (before t : State) (next : Nat)

@[simp] theorem retire_regs : (retire i before next t).regs = t.regs := rfl
@[simp] theorem retire_segs : (retire i before next t).segs = t.segs := rfl
@[simp] theorem retire_flags : (retire i before next t).flags = t.flags := rfl
@[simp] theorem retire_mem : (retire i before next t).mem = t.mem := rfl
@[simp] theorem retire_idx : (retire i before next t).idx = next := rfl
@[simp] theorem retire_ipOffset : (retire i before next t).ipOffset = offsetOf t.store next := rfl
@[simp] theorem retire_clocks : (retire i before next t).clocks = t.clocks + t.recordClocks + alignClocks i before.regs := rfl
@[simp] theorem retire_store : (retire i before next t).store = t.store.modify t.idx (fun r => r.withAlign (alignClocks i before.regs)) := rfl
@[simp] theorem retire_runState : (retire i before next t).runState = t.runState := rfl
@[simp] theorem retire_fault : (retire i before next t).fault = t.fault := rfl
@[simp] theorem retire_host : (retire i before next t).host = t.host := rfl

end

/-! ## raise, restart -/

section
variable (f : Fault) (s : State) (h : HostInputs)

@[simp] theorem raise_regs : (s.raise f).regs = s.regs := rfl
@[simp] theorem raise_segs : (s.raise f).segs = s.segs := rfl
@[simp] theorem raise_flags : (s.raise f).flags = s.flags := rfl
@[simp] theorem raise_mem : (s.raise f).mem = s.mem := rfl
@[simp] theorem raise_idx : (s.raise f).idx = s.idx := rfl
@[simp] theorem raise_ipOffset : (s.raise f).ipOffset = s.ipOffset := rfl
@[simp] theorem raise_clocks : (s.raise f).clocks = s.clocks := rfl
@[simp] theorem raise_store : (s.raise f).store = s.store := rfl
@[simp] theorem raise_runState : (s.raise f).runState = .aborted := rfl
@[simp] theorem raise_fault : (s.raise f).fault = some f := rfl
@[simp] theorem raise_host : (s.raise f).host = s.host := rfl

@[simp] theorem atRunStart_regs : (State.atRunStart h).regs = .zero := rfl
@[simp] theorem atRunStart_segs : (State.atRunStart h).segs = .zero := rfl
@[simp] theorem atRunStart_flags : (State.atRunStart h).flags = .zero := rfl
@[simp] theorem atRunStart_mem : (State.atRunStart h).mem = .zero := rfl
@[simp] theorem atRunStart_idx : (State.atRunStart h).idx = 0 := rfl
@[simp] theorem atRunStart_ipOffset : (State.atRunStart h).ipOffset = 0 := rfl
@[simp] theorem atRunStart_clocks : (State.atRunStart h).clocks = 0 := rfl
@[simp] theorem atRunStart_store : (State.atRunStart h).store = [] := rfl
@[simp] theorem atRunStart_runState : (State.atRunStart h).runState = .notStarted := rfl
@[simp] theorem atRunStart_fault : (State.atRunStart h).fault = none := rfl
@[simp] theorem atRunStart_host : (State.atRunStart h).host = h := rfl

/-- reset() keeps the host's inputs (R282). -/
theorem restart_eq : s.restart = State.atRunStart s.host := rfl

end

/-! ## The state after the decode pass -/

section
variable (s : State) (D : List Record) (r : RunState)

@[simp] theorem loaded_regs : (loaded s D r).regs = .zero := rfl
@[simp] theorem loaded_segs : (loaded s D r).segs = .zero := rfl
@[simp] theorem loaded_flags : (loaded s D r).flags = .zero := rfl
@[simp] theorem loaded_mem : (loaded s D r).mem = .zero := rfl
@[simp] theorem loaded_idx : (loaded s D r).idx = 0 := rfl
@[simp] theorem loaded_ipOffset : (loaded s D r).ipOffset = 0 := rfl
@[simp] theorem loaded_clocks : (loaded s D r).clocks = 0 := rfl
@[simp] theorem loaded_store : (loaded s D r).store = D := rfl
@[simp] theorem loaded_runState : (loaded s D r).runState = r := rfl
@[simp] theorem loaded_fault : (loaded s D r).fault = none := rfl
@[simp] theorem loaded_host : (loaded s D r).host = s.host := rfl

end

/-! ## haltIfDone -/

section
variable (s : State)

@[simp] theorem haltIfDone_regs : s.haltIfDone.regs = s.regs := by unfold State.haltIfDone; split <;> rfl
@[simp] theorem haltIfDone_segs : s.haltIfDone.segs = s.segs := by unfold State.haltIfDone; split <;> rfl
@[simp] theorem haltIfDone_flags : s.haltIfDone.flags = s.flags := by unfold State.haltIfDone; split <;> rfl
@[simp] theorem haltIfDone_mem : s.haltIfDone.mem = s.mem := by unfold State.haltIfDone; split <;> rfl
@[simp] theorem haltIfDone_idx : s.haltIfDone.idx = s.idx := by unfold State.haltIfDone; split <;> rfl
@[simp] theorem haltIfDone_ipOffset : s.haltIfDone.ipOffset = s.ipOffset := by unfold State.haltIfDone; split <;> rfl
@[simp] theorem haltIfDone_clocks : s.haltIfDone.clocks = s.clocks := by unfold State.haltIfDone; split <;> rfl
@[simp] theorem haltIfDone_store : s.haltIfDone.store = s.store := by unfold State.haltIfDone; split <;> rfl
@[simp] theorem haltIfDone_fault : s.haltIfDone.fault = s.fault := by unfold State.haltIfDone; split <;> rfl
@[simp] theorem haltIfDone_host : s.haltIfDone.host = s.host := by unfold State.haltIfDone; split <;> rfl

@[simp] theorem haltIfDone_runState :
    s.haltIfDone.runState = if s.idx < s.store.length then s.runState else .halted := by
  unfold State.haltIfDone; split <;> rfl

end

/-! ## The loop family's CX write -/

section
variable (s : State)

@[simp] theorem decCX_segs : (decCX s).segs = s.segs := rfl
@[simp] theorem decCX_flags : (decCX s).flags = s.flags := rfl
@[simp] theorem decCX_mem : (decCX s).mem = s.mem := rfl
@[simp] theorem decCX_idx : (decCX s).idx = s.idx := rfl
@[simp] theorem decCX_ipOffset : (decCX s).ipOffset = s.ipOffset := rfl
@[simp] theorem decCX_clocks : (decCX s).clocks = s.clocks := rfl
@[simp] theorem decCX_store : (decCX s).store = s.store := rfl
@[simp] theorem decCX_runState : (decCX s).runState = s.runState := rfl
@[simp] theorem decCX_fault : (decCX s).fault = s.fault := rfl
@[simp] theorem decCX_host : (decCX s).host = s.host := rfl

theorem decCX_regs : (decCX s).regs = { s.regs with CX := s.regs.CX - 1 } := rfl

@[simp] theorem decCX_CX : (decCX s).regs.CX = s.regs.CX - 1 := rfl

theorem cx_eq : cx s = s.regs.CX := rfl

end

/-! ## Flag write-back -/

section
variable (f : Flags) (a : ArithFlags)

@[simp] theorem writeArith_CF : (f.writeArith a).CF = a.CF := rfl
@[simp] theorem writeArith_PF : (f.writeArith a).PF = a.PF := rfl
@[simp] theorem writeArith_AF : (f.writeArith a).AF = a.AF := rfl
@[simp] theorem writeArith_ZF : (f.writeArith a).ZF = a.ZF := rfl
@[simp] theorem writeArith_SF : (f.writeArith a).SF = a.SF := rfl
@[simp] theorem writeArith_OF : (f.writeArith a).OF = a.OF := rfl
@[simp] theorem writeArith_TF : (f.writeArith a).TF = f.TF := rfl
@[simp] theorem writeArith_IF : (f.writeArith a).IF = f.IF := rfl
@[simp] theorem writeArith_DF : (f.writeArith a).DF = f.DF := rfl

end

/-! ## Records -/

section
variable (r : Record) (a b : Nat)

@[simp] theorem withAlign_instr : (r.withAlign a).instr = r.instr := rfl
@[simp] theorem withAlign_off : (r.withAlign a).off = r.off := rfl
@[simp] theorem withAlign_baseClocks : (r.withAlign a).baseClocks = r.baseClocks := rfl
@[simp] theorem withAlign_eaClocks : (r.withAlign a).eaClocks = r.eaClocks := rfl
@[simp] theorem withAlign_alignClocks : (r.withAlign a).alignClocks = a := rfl
@[simp] theorem withAlign_len : (r.withAlign a).len = r.len := rfl
@[simp] theorem withAlign_withAlign : (r.withAlign a).withAlign b = r.withAlign b := rfl
@[simp] theorem withAlign_fixed : (r.withAlign a).fixed = r.fixed := rfl
@[simp] theorem fixed_len : r.fixed.len = r.len := rfl

end

end Sys2Proof.Machine
end

