-- ==== Sys2Proof/Laws/Regs.lean ====
section
/-! SUPPORT. Reads after writes of the register files, with the byte aliasing of R23 and R24. -/

namespace Sys2Proof.Machine

/-- The eight 3-bit codes. -/
theorem code3_cases (i : BitVec 3) :
    i = 0 ∨ i = 1 ∨ i = 2 ∨ i = 3 ∨ i = 4 ∨ i = 5 ∨ i = 6 ∨ i = 7 := by
  revert i; decide

/-- The four 2-bit codes. -/
theorem code2_cases (i : BitVec 2) : i = 0 ∨ i = 1 ∨ i = 2 ∨ i = 3 := by
  revert i; decide

@[simp] theorem hiByte_joinBytes (hi lo : Byte) : hiByte (joinBytes hi lo) = hi := by
  unfold hiByte joinBytes
  ext k hk
  simp only [BitVec.getElem_setWidth, BitVec.getLsbD_ushiftRight, BitVec.getLsbD_append]
  simp [BitVec.getLsbD_eq_getElem, hk]

@[simp] theorem loByte_joinBytes (hi lo : Byte) : loByte (joinBytes hi lo) = lo := by
  unfold loByte joinBytes
  ext k hk
  simp only [BitVec.getElem_setWidth, BitVec.getLsbD_append]
  simp [BitVec.getLsbD_eq_getElem, hk]

@[simp] theorem joinBytes_hiByte_loByte (v : Word) : joinBytes (hiByte v) (loByte v) = v := by
  unfold hiByte loByte joinBytes
  ext k hk
  rw [BitVec.getElem_append]
  split
  · rename_i h
    rw [BitVec.getElem_setWidth, BitVec.getLsbD_eq_getElem hk]
  · rename_i h
    rw [BitVec.getElem_setWidth, BitVec.getLsbD_ushiftRight]
    rw [← BitVec.getLsbD_eq_getElem hk]
    congr 1
    omega

@[simp] theorem loByte_zext8 (b : Byte) : loByte (zext8 b) = b := by
  unfold loByte zext8
  ext k hk
  rw [BitVec.getElem_setWidth, BitVec.getLsbD_setWidth, BitVec.getLsbD_eq_getElem hk]
  simp; omega

/-- A byte value survives narrowing and zero-extension. -/
theorem zext8_loByte_of_lt {v : Word} (h : v.toNat < 256) : zext8 (loByte v) = v := by
  apply BitVec.eq_of_toNat_eq
  simp [zext8, loByte, BitVec.toNat_setWidth]
  omega

theorem zext8_toNat_lt (b : Byte) : (zext8 b).toNat < 256 := by
  have h := b.isLt
  simp [zext8, BitVec.toNat_setWidth]
  omega

/-- R21: a 16-bit register reads what was last written to it, and no other register changes. -/
@[simp] theorem get16_set16 (r : Regs) (i j : BitVec 3) (v : Word) :
    (r.set16 i v).get16 j = if j = i then v else r.get16 j := by
  rcases code3_cases i with h | h | h | h | h | h | h | h <;> subst h <;>
    rcases code3_cases j with h | h | h | h | h | h | h | h <;> subst h <;> rfl

/-- R27: the same for the segment registers. -/
@[simp] theorem segs_get_set (g : Segs) (i j : BitVec 2) (v : Word) :
    (g.set i v).get j = if j = i then v else g.get j := by
  rcases code2_cases i with h | h | h | h <;> subst h <;>
    rcases code2_cases j with h | h | h | h <;> subst h <;> rfl

/-- Two 8-bit registers are the same when they are the same half of the same parent (R23). -/
theorem code8_ext : ∀ i j : BitVec 3, parent i = parent j → isHigh i = isHigh j → i = j := by decide

/-- R23: an 8-bit register reads what was last written to it. -/
@[simp] theorem get8_set8_same (r : Regs) (i : BitVec 3) (v : Byte) : (r.set8 i v).get8 i = v := by
  unfold Regs.set8 Regs.get8
  cases isHigh i <;> simp

/-- R24: a write to an 8-bit half leaves every other 8-bit register unchanged, the other half of its parent
among them. -/
theorem get8_set8_other (r : Regs) (i j : BitVec 3) (v : Byte) (h : j ≠ i) :
    (r.set8 i v).get8 j = r.get8 j := by
  have hne := fun hp hh => h (code8_ext j i hp hh)
  unfold Regs.set8 Regs.get8
  by_cases hp : parent j = parent i
  · cases hi : isHigh i <;> cases hj : isHigh j <;> simp_all
  · cases hi : isHigh i <;> simp [hp]

/-- R23: a write to an 8-bit half leaves every register but its parent unchanged. -/
theorem get16_set8_other (r : Regs) (i c : BitVec 3) (v : Byte) (h : c ≠ parent i) :
    (r.set8 i v).get16 c = r.get16 c := by
  unfold Regs.set8
  cases isHigh i <;> simp [h]

/-- R22: no 8-bit register aliases SP, BP, SI or DI: a parent's code is below 4. -/
theorem parent_lt (i : BitVec 3) : (parent i).toNat < 4 := by
  revert i; decide

end Sys2Proof.Machine
end

