-- ==== Sys2Proof/Laws/Decode.lean ====
section
/-! SUPPORT. The decoder format by format: what each stage answers on the bytes the encoder writes, and that the
matcher depends on two bytes. -/

namespace Sys2Proof
open Sys2Proof.Machine

/-! ## The matcher depends on two bytes -/

theorem holds_two {m : OpcodeMatch} (h : m.location.byteIndex ≤ 1) (b c : Byte) (rest : List Byte) :
    ∃ v, m.holds [b, c] = .ok v ∧ m.holds (b :: c :: rest) = .ok v := by
  obtain ⟨⟨k, n, sh, mask⟩, v⟩ := m
  have hn : n = 0 ∨ n = 1 := by simp only at h; omega
  rcases hn with rfl | rfl <;> exact ⟨_, rfl, rfl⟩

/-- R76, R77: every row's matches lie in the first two bytes, so on two bytes and on any longer sequence that
starts with them the scan answers alike. -/
theorem matchIn_two {es : List Descriptor}
    (h : ∀ e ∈ es, e.primaryMatch.location.byteIndex ≤ 1 ∧
      ∀ m, e.secondaryMatch = some m → m.location.byteIndex ≤ 1) (b c : Byte) (rest : List Byte) :
    (∃ e, matchIn [b, c] es = .ok e ∧ matchIn (b :: c :: rest) es = .ok e) ∨
    (matchIn [b, c] es = .error (.unmatchedOpcode [b, c]) ∧
      matchIn (b :: c :: rest) es = .error (.unmatchedOpcode ((b :: c :: rest).take maxLength))) := by
  induction es with
  | nil => exact .inr ⟨rfl, rfl⟩
  | cons e es ih =>
    have ih := ih (fun x hx => h x (by simp [hx]))
    obtain ⟨h1, h2⟩ := h e (by simp)
    obtain ⟨v, hv, hv'⟩ := holds_two h1 b c rest
    unfold matchIn
    cases v with
    | false => simpa [hv, hv', bind, Except.bind] using ih
    | true =>
      cases hs : e.secondaryMatch with
      | none => exact .inl ⟨e, by simp [hv, bind, Except.bind, pure, Except.pure],
          by simp [hv', bind, Except.bind, pure, Except.pure]⟩
      | some m =>
        obtain ⟨u, hu, hu'⟩ := holds_two (h2 m hs) b c rest
        cases u with
        | false => simpa [hv, hv', hu, hu', bind, Except.bind] using ih
        | true => exact .inl ⟨e, by simp [hv, hu, bind, Except.bind, pure, Except.pure],
            by simp [hv', hu', bind, Except.bind, pure, Except.pure]⟩

theorem catalog_matches : ∀ e ∈ catalog, e.primaryMatch.location.byteIndex ≤ 1 ∧
    ∀ m ∈ e.secondaryMatch, m.location.byteIndex ≤ 1 := by decide

/-- The whole catalog's scan answers alike on two bytes and on any longer sequence that starts with them. -/
theorem matchOpcode_two (b c : Byte) (rest : List Byte) :
    (∃ e, matchOpcode [b, c] = .ok e ∧ matchOpcode (b :: c :: rest) = .ok e) ∨
    (matchOpcode [b, c] = .error (.unmatchedOpcode [b, c]) ∧
      matchOpcode (b :: c :: rest) = .error (.unmatchedOpcode ((b :: c :: rest).take maxLength))) :=
  matchIn_two catalog_matches b c rest

theorem matchOpcode_of_two {b c : Byte} {e : Descriptor} (h : matchOpcode [b, c] = .ok e) (rest : List Byte) :
    matchOpcode (b :: c :: rest) = .ok e := by
  rcases matchOpcode_two b c rest with ⟨e', h1, h2⟩ | ⟨h1, _⟩
  · rw [h2, ← h1, h]
  · rw [h] at h1; cases h1

/-- The scan answers on the first byte alone where no secondary match is reached. -/
theorem matchIn_of_one {b : Byte} {e : Descriptor} (rest : List Byte) : ∀ {es : List Descriptor},
    matchIn [b] es = .ok e → matchIn (b :: rest) es = .ok e := by
  have hb : ∀ (m : OpcodeMatch) {v : Bool}, m.holds [b] = .ok v → m.holds (b :: rest) = .ok v := by
    intro m v h
    obtain ⟨⟨k, n, sh, mask⟩, x⟩ := m
    cases n with
    | zero => exact h
    | succ n => cases h
  intro es
  induction es with
  | nil => intro h; cases h
  | cons e' es ih =>
    intro h
    unfold matchIn at h ⊢
    cases hp : e'.primaryMatch.holds [b] with
    | error x => simp [hp, bind, Except.bind] at h
    | ok v =>
      rw [hp] at h
      rw [hb _ hp]
      cases v with
      | false => exact ih h
      | true =>
        cases hs : e'.secondaryMatch with
        | none => rw [hs] at h; exact h
        | some m =>
          rw [hs] at h
          cases hm : m.holds [b] with
          | error x => simp [hm, bind, Except.bind] at h
          | ok u =>
            simp only [hm, hb _ hm, bind, Except.bind] at h ⊢
            cases u with
            | false => exact ih h
            | true => exact h

theorem ok_of_toOption {ε α : Type} {x : Except ε α} {a : α} (h : x.toOption = some a) : x = .ok a := by
  cases x with
  | error e => cases h
  | ok b => cases h; rfl

theorem matchOpcode_of_one {b : Byte} {e : Descriptor} (h : (matchOpcode [b]).toOption = some e)
    (rest : List Byte) : matchOpcode (b :: rest) = .ok e := matchIn_of_one rest (ok_of_toOption h)

/-! ## The bytes of a format -/

/-- Byte 1 of the formats with a register-or-memory operand: mod, the middle field, rm (R72). -/
def modRmByte (mod : BitVec 2) (mid rm : BitVec 3) : Byte := mod ++ mid ++ rm

/-- The displacement bytes of a register-or-memory operand (R84). -/
def rmTail (rm : Rm) : List Byte := leBytes (dispLength rm.mod rm.code) rm.disp

/-- The immediate bytes of a form without an s field (R86). -/
def immTail (imm : Imm) : List Byte := leBytes imm.bytes imm.value

/-- The immediate bytes of a form with an s field (R86). -/
def arithImmTail (imm : ArithImm) : List Byte := leBytes imm.bytes imm.value

theorem modRmByte_mod : ∀ (mod : BitVec 2) (mid rm : BitVec 3),
    ((modRmByte mod mid rm >>> 6) &&& 3).setWidth 2 = mod := by decide

theorem modRmByte_mid : ∀ (mod : BitVec 2) (mid rm : BitVec 3),
    ((modRmByte mod mid rm >>> 3) &&& 7).setWidth 3 = mid := by decide

theorem modRmByte_rm : ∀ (mod : BitVec 2) (mid rm : BitVec 3),
    ((modRmByte mod mid rm >>> 0) &&& 7).setWidth 3 = rm := by decide

theorem modRmByte_sr : ∀ (mod : BitVec 2) (sr : BitVec 2) (rm : BitVec 3),
    ((modRmByte mod (0#1 ++ sr) rm >>> 3) &&& 3).setWidth 2 = sr := by decide

theorem loByte_sext8 : ∀ v : Byte, loByte (sext8 v) = v := by decide

/-- The flags of byte 0 in the formats whose w is bit 0 and whose d or s is bit 1 (R72). -/
def lowBits (hi lo : Bool) : Byte := (flagByte hi) <<< 1 ||| flagByte lo

/-- The displacement read back from its bytes after two opcode bytes (R85). -/
theorem readDisp_rmTail (b c : Byte) (rm : Rm) (rest : List Byte) :
    readDisp (b :: c :: (rmTail rm ++ rest)) 2 (dispLength rm.mod rm.code) = .ok rm.disp := by
  rcases rm with r | a | ⟨b, _ | v | v⟩
  · rfl
  · show Except.ok (joinBytes (hiByte a) (loByte a)) = _
    simp [Rm.disp]
  · cases b <;> rfl
  · cases b <;> show Except.ok (sext8 (loByte (sext8 v))) = _ <;> simp [Rm.disp, Disp.value, loByte_sext8]
  · cases b <;> show Except.ok (joinBytes (hiByte v) (loByte v)) = _ <;> simp [Rm.disp, Disp.value]

theorem byteAt_append (pre suf : List Byte) (k : Nat) : byteAt (pre ++ suf) (pre.length + k) = byteAt suf k := by
  have : (pre ++ suf)[pre.length + k]? = suf[k]? := by
    rw [List.getElem?_append_right (Nat.le_add_right _ _), Nat.add_sub_cancel_left]
  unfold byteAt; rw [this]

/-- An immediate without an s field read back from its bytes (R86). -/
theorem readData_immTail (pre : List Byte) (imm : Imm) (rest : List Byte) :
    readData (pre ++ (immTail imm ++ rest)) pre.length imm.bytes imm.width.bit false = .ok imm.value := by
  have h0 := byteAt_append pre (immTail imm ++ rest) 0
  have h1 := byteAt_append pre (immTail imm ++ rest) 1
  rw [Nat.add_zero] at h0
  cases imm with
  | byte v =>
    show (byteAt _ _).bind (fun b => Except.ok (zext8 b)) = _
    rw [h0]
    show Except.ok (zext8 (loByte (zext8 v))) = _
    simp [Imm.value]
  | word v =>
    show (byteAt _ _).bind (fun lo => (byteAt _ _).bind (fun hi => Except.ok (joinBytes hi lo))) = _
    rw [h0, h1]
    show Except.ok (joinBytes (hiByte v) (loByte v)) = _
    simp [Imm.value]

/-- An immediate with an s field read back from its bytes (R86). -/
theorem readData_arithImmTail (pre : List Byte) (imm : ArithImm) (rest : List Byte) :
    readData (pre ++ (arithImmTail imm ++ rest)) pre.length imm.bytes imm.width.bit imm.s = .ok imm.value := by
  have h0 := byteAt_append pre (arithImmTail imm ++ rest) 0
  have h1 := byteAt_append pre (arithImmTail imm ++ rest) 1
  rw [Nat.add_zero] at h0
  cases imm with
  | byte s v =>
    show (byteAt _ _).bind (fun b => Except.ok (zext8 b)) = _
    rw [h0]
    show Except.ok (zext8 (loByte (zext8 v))) = _
    simp [ArithImm.value]
  | word v =>
    show (byteAt _ _).bind (fun lo => (byteAt _ _).bind (fun hi => Except.ok (joinBytes hi lo))) = _
    rw [h0, h1]
    show Except.ok (joinBytes (hiByte v) (loByte v)) = _
    simp [ArithImm.value]
  | signed v =>
    show (byteAt _ _).bind (fun b => Except.ok (sext8 b)) = _
    rw [h0]
    show Except.ok (sext8 (loByte (sext8 v))) = _
    simp [ArithImm.value, loByte_sext8]

/-- An absolute address read back from its bytes (R87). -/
theorem wordAt_leBytes (b : Byte) (v : Word) (rest : List Byte) :
    wordAt (b :: (leBytes 2 v ++ rest)) 1 = .ok v := by
  show Except.ok (joinBytes (hiByte v) (loByte v)) = _
  simp

theorem rmTail_length (rm : Rm) : (rmTail rm).length = dispLength rm.mod rm.code := by
  rcases rm with r | a | ⟨b, _ | v | v⟩
  · rfl
  · rfl
  · cases b <;> rfl
  · cases b <;> rfl
  · cases b <;> rfl

/-- The w and data fields give an immediate without an s field back (R86). -/
theorem imm_ofFields (imm : Imm) : Imm.ofFields imm.width.bit imm.value = imm := by
  cases imm <;> simp [Imm.ofFields, Imm.width, Width.bit, Imm.value]

/-- The s, w and data fields give an immediate with an s field back (R86). -/
theorem arithImm_ofFields (imm : ArithImm) : ArithImm.ofFields imm.s imm.width.bit imm.value = imm := by
  cases imm <;> simp [ArithImm.ofFields, ArithImm.width, ArithImm.s, Width.bit, ArithImm.value, loByte_sext8]

theorem dataBytes_imm_fields (imm : Imm) :
    (if (some imm.width.bit).getD true && !((none : Option Bool).getD false) then 2 else 1) = imm.bytes := by
  cases imm <;> rfl

theorem dataBytes_arithImm_fields (imm : ArithImm) :
    (if (some imm.width.bit).getD true && !((some imm.s).getD false) then 2 else 1) = imm.bytes := by
  rcases imm with ⟨_ | _, _⟩ | _ | _ <;> rfl

/-- R84, R91: mod, rm and disp give the operand back where it has an encoding. -/
theorem rm_ofFields (rm : Rm) (h : rm.wf = true) : Rm.ofFields rm.mod rm.code rm.disp = rm := by
  rcases rm with r | a | ⟨b, _ | v | v⟩
  · rfl
  · rfl
  · cases b <;> first | rfl | cases h
  · cases b <;>
      simp [Rm.ofFields, Rm.mod, Rm.code, Base.code, Rm.disp, Disp.value, loByte_sext8] <;> rfl
  · cases b <;> rfl

/-- A byte sequence decodes where every stage of decodeOne answers (R81, R82, R93). -/
theorem decode_of_stages {bs : List Byte} {e : Descriptor} {F₀ F : RawFields} {i : Instr}
    (h1 : matchOpcode bs = .ok e) (h2 : extractDeclared e bs = .ok F₀) (h3 : extractTrailing e F₀ bs = .ok F)
    (h4 : e.shape.isSome = true) (h5 : Instr.ofFields e F = .ok i) : decodeInstr bs = .ok i := by
  obtain ⟨sh, hs⟩ := Option.isSome_iff_exists.mp h4
  have h4' : e.needShape = .ok sh := by simp [Descriptor.needShape, hs]
  unfold decodeInstr
  simp only [h1, h2, h3, h4', bind, Except.bind, h5]

/-! ## The length of an encoding -/

theorem leBytes_length {n : Nat} (h : n ≤ 2) (v : Word) : (leBytes n v).length = n := by
  simp [leBytes]; omega

theorem dispBytes_le (e : Descriptor) (F : RawFields) : dispBytes e F ≤ 2 := by
  unfold dispBytes
  split
  · split
    · exact dispLength_le _ _
    · omega
  · omega

theorem dataBytes_le (e : Descriptor) (F : RawFields) : dataBytes e F ≤ 2 := by
  unfold dataBytes
  split
  · split <;> omega
  · omega

theorem incBytes_fields (i : Instr) : (i.fields.inc.toList.take (incBytes i.descriptor)).length = incBytes i.descriptor := by
  cases i <;> rfl

/-- R88: an encoding has as many bytes as the record's length says. -/
theorem encode_length (i : Instr) : (encode i).length = i.len := by
  have ha : addrBytes i.descriptor ≤ 2 := by unfold addrBytes; split <;> omega
  unfold encode Instr.len recordLength
  simp only [List.length_append, List.length_map, List.length_range, incBytes_fields,
    leBytes_length (dispBytes_le _ _), leBytes_length (dataBytes_le _ _), leBytes_length ha]

/-! ## Format RM -/

theorem byte1_RM : ∀ (mod : BitVec 2) (reg rm : BitVec 3),
    (reg.setWidth 8 &&& 7#8) <<< 3 ||| (mod.setWidth 8 &&& 3#8) <<< 6 ||| (rm.setWidth 8 &&& 7#8) =
      modRmByte mod reg rm := by decide

theorem lowBits_eq : ∀ hi lo : Bool, (flagByte hi &&& 1#8) <<< 1 ||| (flagByte lo &&& 1#8) = lowBits hi lo := by
  decide

/-- The bytes of format RM (R72). -/
theorem encode_RM {i : Instr} {id : Nat} {m : String} {a : Action} {prim : Byte} {d : Bool} {w : Width}
    {reg : BitVec 3} {rm : Rm} (he : i.descriptor = rowRM id m a prim) (hf : i.fields = fieldsOfRM d w reg rm) :
    encode i = ((prim &&& 0x3F) <<< 2 ||| lowBits d w.bit) :: modRmByte rm.mod reg rm.code :: rmTail rm := by
  have h0 : opcodeByte (rowRM id m a prim) (fieldsOfRM d w reg rm) 0 =
      (prim &&& 0x3F) <<< 2 ||| lowBits d w.bit := by
    rw [← lowBits_eq]
    simp [opcodeByte, rowRM, fieldsRM, modRmFields, marker, BitField.place, opcodeMatch, RawFields.value,
      fieldsOfRM, fieldsOfRm, BitVec.or_assoc]
  have h1 : opcodeByte (rowRM id m a prim) (fieldsOfRM d w reg rm) 1 = modRmByte rm.mod reg rm.code := by
    simp [opcodeByte, rowRM, fieldsRM, modRmFields, marker, BitField.place, opcodeMatch, RawFields.value,
      fieldsOfRM, fieldsOfRm, byte1_RM]
  have : encode i = opcodeByte (rowRM id m a prim) (fieldsOfRM d w reg rm) 0 ::
      opcodeByte (rowRM id m a prim) (fieldsOfRM d w reg rm) 1 :: (((rmTail rm ++ []) ++ []) ++ []) := by
    unfold encode; rw [he, hf]; rfl
  rw [this, h0, h1]; simp

/-- Decoding format RM (R81, R84, R85). -/
theorem decode_RM {i : Instr} {id : Nat} {m : String} {a : Action} {prim : Byte} {d : Bool} {w : Width}
    {reg : BitVec 3} {rm : Rm} {mk : Bool → Width → BitVec 3 → Rm → Instr} (hi : i = mk d w reg rm)
    (he : i.descriptor = rowRM id m a prim) (hf : i.fields = fieldsOfRM d w reg rm)
    (hb : ∀ d w, (matchOpcode [(prim &&& 0x3F) <<< 2 ||| lowBits d w]).toOption = some (rowRM id m a prim))
    (hd : ∀ d w, bitFlag ((((prim &&& 0x3F) <<< 2 ||| lowBits d w) >>> 1) &&& 1) = d)
    (hw : ∀ d w, bitFlag ((((prim &&& 0x3F) <<< 2 ||| lowBits d w) >>> 0) &&& 1) = w)
    (ho : ∀ F, Instr.ofFields (rowRM id m a prim) F = buildRM mk (rowRM id m a prim) F)
    (hwf : rm.wf = true) (rest : List Byte) : decodeInstr (encode i ++ rest) = .ok i := by
  rw [encode_RM he hf]
  have hdis := readDisp_rmTail ((prim &&& 0x3F) <<< 2 ||| lowBits d w.bit) (modRmByte rm.mod reg rm.code) rm rest
  refine decode_of_stages (F₀ := { fieldsOfRM d w reg rm with disp := none }) (F := fieldsOfRM d w reg rm)
    (matchOpcode_of_one (hb _ _) _) ?_ ?_ rfl ?_
  · have : ∀ (b c : Byte) rest, extractDeclared (rowRM id m a prim) (b :: c :: rest) =
        .ok { RawFields.empty with
          d := some (bitFlag ((b >>> 1) &&& 1)), w := some (bitFlag ((b >>> 0) &&& 1)),
          mod := some (((c >>> 6) &&& 3).setWidth 2), reg := some (((c >>> 3) &&& 7).setWidth 3),
          rm := some (((c >>> 0) &&& 7).setWidth 3) } := fun _ _ _ => rfl
    rw [List.cons_append, List.cons_append, this, hd, hw, modRmByte_mod, modRmByte_mid, modRmByte_rm]; rfl
  · unfold extractTrailing
    show ((readDisp _ 2 (dispLength rm.mod rm.code)).bind (fun v => .ok (some v))).bind _ = _
    rw [List.cons_append, List.cons_append, hdis]; rfl
  · rw [ho]
    have : buildRM mk (rowRM id m a prim) (fieldsOfRM d w reg rm) =
        .ok (mk d (Width.ofBit w.bit) reg (Rm.ofFields rm.mod rm.code rm.disp)) := rfl
    rw [this, rm_ofFields rm hwf, hi]; cases w <;> rfl

/-! ## Format SR -/

theorem byte1_SR : ∀ (mod : BitVec 2) (sr : BitVec 2) (rm : BitVec 3),
    (sr.setWidth 8 &&& 3#8) <<< 3 ||| (mod.setWidth 8 &&& 3#8) <<< 6 ||| (rm.setWidth 8 &&& 7#8) =
      modRmByte mod (0#1 ++ sr) rm := by decide

/-- The bytes of format SR (R72); byte 0 is the row's literal, which carries d. -/
theorem encode_SR {i : Instr} {id : Nat} {prim : Byte} {d : Bool} {sr : BitVec 2} {rm : Rm}
    (he : i.descriptor = rowSR id prim) (hf : i.fields = fieldsOfSR d sr rm)
    (hd : prim &&& (0xFF : Byte) ||| (flagByte d &&& 1) <<< 1 = prim) :
    encode i = prim :: modRmByte rm.mod (0#1 ++ sr) rm.code :: rmTail rm := by
  have h0 : opcodeByte (rowSR id prim) (fieldsOfSR d sr rm) 0 = prim := by
    refine Eq.trans ?_ hd
    simp [opcodeByte, rowSR, fieldsSR, modRmFields, marker, BitField.place, opcodeMatch, RawFields.value,
      fieldsOfSR, fieldsOfRm]
  have h1 : opcodeByte (rowSR id prim) (fieldsOfSR d sr rm) 1 = modRmByte rm.mod (0#1 ++ sr) rm.code := by
    rw [← byte1_SR]
    simp [opcodeByte, rowSR, fieldsSR, modRmFields, marker, BitField.place, opcodeMatch, RawFields.value,
      fieldsOfSR, fieldsOfRm]
  have : encode i = opcodeByte (rowSR id prim) (fieldsOfSR d sr rm) 0 ::
      opcodeByte (rowSR id prim) (fieldsOfSR d sr rm) 1 :: (((rmTail rm ++ []) ++ []) ++ []) := by
    unfold encode; rw [he, hf]; rfl
  rw [this, h0, h1]; simp

/-- Decoding format SR (R81, R84, R85). -/
theorem decode_SR {i : Instr} {id : Nat} {prim : Byte} {d : Bool} {sr : BitVec 2} {rm : Rm}
    {mk : BitVec 2 → Rm → Instr} (hi : i = mk sr rm)
    (he : i.descriptor = rowSR id prim) (hf : i.fields = fieldsOfSR d sr rm)
    (hd : prim &&& (0xFF : Byte) ||| (flagByte d &&& 1) <<< 1 = prim)
    (hb : ∀ (mod sr : BitVec 2) (rm : BitVec 3), 
      (matchOpcode [prim, modRmByte mod (0#1 ++ sr) rm]).toOption = some (rowSR id prim))
    (hdd : bitFlag ((prim >>> 1) &&& 1) = d)
    (ho : ∀ F, Instr.ofFields (rowSR id prim) F = buildSR mk (rowSR id prim) F)
    (hwf : rm.wf = true) (rest : List Byte) : decodeInstr (encode i ++ rest) = .ok i := by
  rw [encode_SR he hf hd]
  have hdis := readDisp_rmTail prim (modRmByte rm.mod (0#1 ++ sr) rm.code) rm rest
  refine decode_of_stages (F₀ := { fieldsOfSR d sr rm with disp := none }) (F := fieldsOfSR d sr rm)
    (matchOpcode_of_two (ok_of_toOption (hb _ _ _)) _) ?_ ?_ rfl ?_
  · have : ∀ (b c : Byte) rest, extractDeclared (rowSR id prim) (b :: c :: rest) =
        .ok { RawFields.empty with
          d := some (bitFlag ((b >>> 1) &&& 1)),
          mod := some (((c >>> 6) &&& 3).setWidth 2), sr := some (((c >>> 3) &&& 3).setWidth 2),
          rm := some (((c >>> 0) &&& 7).setWidth 3) } := fun _ _ _ => rfl
    rw [List.cons_append, List.cons_append, this, hdd, modRmByte_mod, modRmByte_sr, modRmByte_rm]; rfl
  · unfold extractTrailing
    show ((readDisp _ 2 (dispLength rm.mod rm.code)).bind (fun v => .ok (some v))).bind _ = _
    rw [List.cons_append, List.cons_append, hdis]; rfl
  · rw [ho]
    have : buildSR mk (rowSR id prim) (fieldsOfSR d sr rm) = .ok (mk sr (Rm.ofFields rm.mod rm.code rm.disp)) := rfl
    rw [this, rm_ofFields rm hwf, hi]

/-! ## Format JMP -/

/-- The bytes of format JMP (R72, R87). -/
theorem encode_JMP {i : Instr} {id : Nat} {m : String} {prim inc : Byte} (he : i.descriptor = rowJMP id m prim)
    (hf : i.fields = fieldsOfJMP inc) : encode i = [prim, inc] := by
  have h0 : opcodeByte (rowJMP id m prim) (fieldsOfJMP inc) 0 = prim := by
    simp [opcodeByte, rowJMP, fieldsJMP, marker, BitField.place, opcodeMatch]
    exact BitVec.and_allOnes (x := prim)
  have : encode i = opcodeByte (rowJMP id m prim) (fieldsOfJMP inc) 0 :: ((([] ++ []) ++ []) ++ [inc]) := by
    unfold encode; rw [he, hf]; rfl
  rw [this, h0]; rfl

/-- Decoding format JMP (R87). -/
theorem decode_JMP {i : Instr} {id : Nat} {m : String} {prim inc : Byte} {mk : Byte → Instr} (hi : i = mk inc)
    (he : i.descriptor = rowJMP id m prim) (hf : i.fields = fieldsOfJMP inc)
    (hb : (matchOpcode [prim]).toOption = some (rowJMP id m prim))
    (ho : ∀ F, Instr.ofFields (rowJMP id m prim) F = buildJMP mk (rowJMP id m prim) F)
    (rest : List Byte) : decodeInstr (encode i ++ rest) = .ok i := by
  rw [encode_JMP he hf]
  refine decode_of_stages (F₀ := RawFields.empty) (F := fieldsOfJMP inc) (matchOpcode_of_one hb _) rfl rfl rfl ?_
  rw [ho, hi]; rfl

/-! ## Formats ACCMEM and ACCIMM -/

/-- Byte 0 of a row whose match is bits 7..1 and whose w is bit 0 (R72). -/
def accByte (prim : Byte) (w : Bool) : Byte := (prim &&& 0x7F) <<< 1 ||| flagByte w

theorem flagByte_and_one : ∀ b : Bool, flagByte b &&& 1#8 = flagByte b := by decide

theorem encode_movAccMem (w : Width) (a : Word) :
    encode (.movAccMem w a) = accByte 0x50 w.bit :: leBytes 2 a := by
  have h0 : opcodeByte (Instr.movAccMem w a).descriptor (fieldsOfACCMEM w a) 0 = accByte 0x50 w.bit := by
    simp [opcodeByte, Instr.descriptor, fieldsACCMEM, marker, BitField.place, opcodeMatch, RawFields.value,
      fieldsOfACCMEM, flagByte_and_one, accByte]
  exact congrArg (· :: leBytes 2 a) h0

theorem encode_movMemAcc (w : Width) (a : Word) :
    encode (.movMemAcc w a) = accByte 0x51 w.bit :: leBytes 2 a := by
  have h0 : opcodeByte (Instr.movMemAcc w a).descriptor (fieldsOfACCMEM w a) 0 = accByte 0x51 w.bit := by
    simp [opcodeByte, Instr.descriptor, fieldsACCMEM, marker, BitField.place, opcodeMatch, RawFields.value,
      fieldsOfACCMEM, flagByte_and_one, accByte]
  exact congrArg (· :: leBytes 2 a) h0

/-- Decoding the accumulator moves (R87, R144, R145). -/
theorem decode_movAccMem (w : Width) (a : Word) (rest : List Byte) :
    decodeInstr (encode (.movAccMem w a) ++ rest) = .ok (.movAccMem w a) := by
  rw [encode_movAccMem]
  have hx := wordAt_leBytes (accByte 0x50 w.bit) a rest
  refine decode_of_stages (e := (Instr.movAccMem w a).descriptor)
    (F₀ := { fieldsOfACCMEM w a with addr := none }) (F := fieldsOfACCMEM w a) ?_ ?_ ?_ rfl ?_
  · cases w <;> rfl
  · cases w <;> rfl
  · have hx' : wordAt _ (Instr.descriptor (.movAccMem w a)).opcodeBytes = _ := hx
    rw [List.cons_append]
    unfold extractTrailing
    dsimp only
    rw [hx']; rfl
  · cases w <;> rfl

theorem decode_movMemAcc (w : Width) (a : Word) (rest : List Byte) :
    decodeInstr (encode (.movMemAcc w a) ++ rest) = .ok (.movMemAcc w a) := by
  rw [encode_movMemAcc]
  have hx := wordAt_leBytes (accByte 0x51 w.bit) a rest
  refine decode_of_stages (e := (Instr.movMemAcc w a).descriptor)
    (F₀ := { fieldsOfACCMEM w a with addr := none }) (F := fieldsOfACCMEM w a) ?_ ?_ ?_ rfl ?_
  · cases w <;> rfl
  · cases w <;> rfl
  · have hx' : wordAt _ (Instr.descriptor (.movMemAcc w a)).opcodeBytes = _ := hx
    rw [List.cons_append]
    unfold extractTrailing
    dsimp only
    rw [hx']; rfl
  · cases w <;> rfl

/-- The bytes of format ACCIMM (R72, R86). -/
theorem encode_ACCIMM {i : Instr} {id : Nat} {m : String} {a : Action} {prim : Byte} {imm : Imm}
    (he : i.descriptor = rowACCIMM id m a prim) (hf : i.fields = fieldsOfImm imm) :
    encode i = accByte prim imm.width.bit :: immTail imm := by
  have h0 : opcodeByte (rowACCIMM id m a prim) (fieldsOfImm imm) 0 = accByte prim imm.width.bit := by
    simp [opcodeByte, rowACCIMM, fieldsACCIMM, marker, BitField.place, opcodeMatch, RawFields.value,
      fieldsOfImm, flagByte_and_one, accByte]
  have h1 : dataBytes (rowACCIMM id m a prim) (fieldsOfImm imm) = imm.bytes := dataBytes_imm_fields imm
  have : encode i = opcodeByte (rowACCIMM id m a prim) (fieldsOfImm imm) 0 ::
      ((([] ++ leBytes (dataBytes (rowACCIMM id m a prim) (fieldsOfImm imm)) imm.value) ++ []) ++ []) := by
    unfold encode; rw [he, hf]; rfl
  rw [this, h0, h1]; simp [immTail]

/-- Decoding format ACCIMM (R86). -/
theorem decode_ACCIMM {i : Instr} {id : Nat} {m : String} {a : Action} {prim : Byte} {imm : Imm}
    {mk : Imm → Instr} (hi : i = mk imm) (he : i.descriptor = rowACCIMM id m a prim)
    (hf : i.fields = fieldsOfImm imm)
    (hb : ∀ w, (matchOpcode [accByte prim w]).toOption = some (rowACCIMM id m a prim))
    (hw : ∀ w, bitFlag ((accByte prim w >>> 0) &&& 1) = w)
    (ho : ∀ F, Instr.ofFields (rowACCIMM id m a prim) F = buildACCIMM mk (rowACCIMM id m a prim) F)
    (rest : List Byte) : decodeInstr (encode i ++ rest) = .ok i := by
  rw [encode_ACCIMM he hf]
  have hx := readData_immTail [accByte prim imm.width.bit] imm rest
  refine decode_of_stages (e := rowACCIMM id m a prim)
    (F₀ := { fieldsOfImm imm with data := none }) (F := fieldsOfImm imm) ?_ ?_ ?_ rfl ?_
  · exact matchOpcode_of_one (hb _) _
  · have : ∀ (b : Byte) rest, extractDeclared (rowACCIMM id m a prim) (b :: rest) =
        .ok { RawFields.empty with w := some (bitFlag ((b >>> 0) &&& 1)) } := fun _ _ => rfl
    rw [List.cons_append, this, hw]; rfl
  · show ((readData _ 1 (dataBytes (rowACCIMM id m a prim) { fieldsOfImm imm with data := none })
      imm.width.bit false).bind (fun v => .ok (some v))).bind _ = _
    have h1 : dataBytes (rowACCIMM id m a prim) { fieldsOfImm imm with data := none } = imm.bytes :=
      dataBytes_imm_fields imm
    rw [h1]
    exact (congrArg (fun x => (Except.bind x (fun v => Except.ok (some v))).bind _) hx).trans rfl
  · rw [ho]
    show Except.ok (mk (Imm.ofFields imm.width.bit imm.value)) = _
    rw [imm_ofFields, hi]

/-! ## Format IMMREG -/

/-- Byte 0 of format IMMREG: 1011, w, reg (R72). -/
def immRegByte (w : Bool) (reg : BitVec 3) : Byte := 0xB0 ||| flagByte w <<< 3 ||| reg.setWidth 8

theorem byte0_IMMREG : ∀ (w : Bool) (reg : BitVec 3),
    176#8 ||| (flagByte w &&& 1#8) <<< 3 ||| (reg.setWidth 8 &&& 7#8) = immRegByte w reg := by decide

theorem immRegByte_w : ∀ (w : Bool) (reg : BitVec 3), bitFlag ((immRegByte w reg >>> 3) &&& 1) = w := by decide

theorem immRegByte_reg : ∀ (w : Bool) (reg : BitVec 3),
    ((immRegByte w reg >>> 0) &&& 7).setWidth 3 = reg := by decide

theorem match_movImmR : ∀ (w : Bool) (reg : BitVec 3),
    (matchOpcode [immRegByte w reg]).toOption = some (Instr.movImmR 0 (.byte 0)).descriptor := by decide

/-- The bytes of format IMMREG (R72, R86). -/
theorem encode_movImmR (reg : BitVec 3) (imm : Imm) :
    encode (.movImmR reg imm) = immRegByte imm.width.bit reg :: immTail imm := by
  have h0 : opcodeByte (Instr.movImmR reg imm).descriptor (Instr.movImmR reg imm).fields 0 =
      immRegByte imm.width.bit reg := by
    rw [← byte0_IMMREG]
    simp [opcodeByte, Instr.descriptor, Instr.fields, fieldsIMMREG, marker, BitField.place, opcodeMatch,
      RawFields.value, fieldsOfImm]
  have h1 : dataBytes (Instr.movImmR reg imm).descriptor (Instr.movImmR reg imm).fields = imm.bytes :=
    dataBytes_imm_fields imm
  have : encode (.movImmR reg imm) = opcodeByte (Instr.movImmR reg imm).descriptor (Instr.movImmR reg imm).fields 0 ::
      ((([] ++ leBytes (dataBytes (Instr.movImmR reg imm).descriptor (Instr.movImmR reg imm).fields) imm.value) ++
        []) ++ []) := rfl
  rw [this, h0, h1]; simp [immTail]

/-- Decoding format IMMREG (R86, R143). -/
theorem decode_movImmR (reg : BitVec 3) (imm : Imm) (rest : List Byte) :
    decodeInstr (encode (.movImmR reg imm) ++ rest) = .ok (.movImmR reg imm) := by
  rw [encode_movImmR]
  have hx := readData_immTail [immRegByte imm.width.bit reg] imm rest
  refine decode_of_stages (e := (Instr.movImmR reg imm).descriptor)
    (F₀ := { (Instr.movImmR reg imm).fields with data := none }) (F := (Instr.movImmR reg imm).fields)
    ?_ ?_ ?_ rfl ?_
  · exact matchOpcode_of_one (match_movImmR imm.width.bit reg) _
  · have : ∀ (b : Byte) rest, extractDeclared (Instr.movImmR reg imm).descriptor (b :: rest) =
        .ok { RawFields.empty with
          w := some (bitFlag ((b >>> 3) &&& 1)), reg := some (((b >>> 0) &&& 7).setWidth 3) } := fun _ _ => rfl
    rw [List.cons_append, this, immRegByte_w, immRegByte_reg]; rfl
  · show ((readData _ 1 (dataBytes (Instr.movImmR reg imm).descriptor
      { (Instr.movImmR reg imm).fields with data := none }) imm.width.bit false).bind
      (fun v => .ok (some v))).bind _ = _
    have h1 : dataBytes (Instr.movImmR reg imm).descriptor
        { (Instr.movImmR reg imm).fields with data := none } = imm.bytes := dataBytes_imm_fields imm
    rw [h1]
    exact (congrArg (fun x => (Except.bind x (fun v => Except.ok (some v))).bind _) hx).trans rfl
  · show Except.ok (Instr.movImmR reg (Imm.ofFields imm.width.bit imm.value)) = _
    rw [imm_ofFields]

/-! ## Format IMMRM -/

/-- The bytes of MOV_IMM_RM (R72, R84, R86). -/
theorem encode_movImmRm (rm : Rm) (imm : Imm) :
    encode (.movImmRm rm imm) =
      accByte 0x63 imm.width.bit :: modRmByte rm.mod 0 rm.code :: (rmTail rm ++ immTail imm) := by
  have h0 : opcodeByte (Instr.movImmRm rm imm).descriptor (Instr.movImmRm rm imm).fields 0 =
      accByte 0x63 imm.width.bit := by
    simp [opcodeByte, Instr.descriptor, Instr.fields, fieldsIMMRM, modRmFields, marker, BitField.place, opcodeMatch,
      RawFields.value, fieldsOfRm, flagByte_and_one, accByte]
  have h1 : opcodeByte (Instr.movImmRm rm imm).descriptor (Instr.movImmRm rm imm).fields 1 =
      modRmByte rm.mod 0 rm.code := by
    rw [← byte1_RM]
    simp [opcodeByte, Instr.descriptor, Instr.fields, fieldsIMMRM, modRmFields, marker, BitField.place, opcodeMatch,
      RawFields.value, fieldsOfRm]
  have h2 : dataBytes (Instr.movImmRm rm imm).descriptor (Instr.movImmRm rm imm).fields = imm.bytes :=
    dataBytes_imm_fields imm
  have : encode (.movImmRm rm imm) =
      opcodeByte (Instr.movImmRm rm imm).descriptor (Instr.movImmRm rm imm).fields 0 ::
      opcodeByte (Instr.movImmRm rm imm).descriptor (Instr.movImmRm rm imm).fields 1 ::
      (((rmTail rm ++ leBytes (dataBytes (Instr.movImmRm rm imm).descriptor (Instr.movImmRm rm imm).fields)
        imm.value) ++ []) ++ []) := rfl
  rw [this, h0, h1, h2]; simp [immTail]

/-- The bytes of the forms 0x80 to 0x83 (R72, R84, R86). -/
theorem encode_IMMRM {i : Instr} {id : Nat} {m : String} {a : Action} {sub : BitVec 3} {rm : Rm} {imm : ArithImm}
    (he : i.descriptor = rowIMMRM id m a (sub.setWidth 8)) (hf : i.fields = fieldsOfIMMRM rm imm) :
    encode i = (0x80 ||| lowBits imm.s imm.width.bit) :: modRmByte rm.mod sub rm.code ::
      (rmTail rm ++ arithImmTail imm) := by
  have h0 : opcodeByte (rowIMMRM id m a (sub.setWidth 8)) (fieldsOfIMMRM rm imm) 0 =
      0x80 ||| lowBits imm.s imm.width.bit := by
    rw [← lowBits_eq]
    simp [opcodeByte, rowIMMRM, fieldsIMMRMs, fieldsIMMRM, modRmFields, marker, BitField.place, opcodeMatch,
      RawFields.value, fieldsOfIMMRM, fieldsOfRm, BitVec.or_assoc]
  have h1 : opcodeByte (rowIMMRM id m a (sub.setWidth 8)) (fieldsOfIMMRM rm imm) 1 = modRmByte rm.mod sub rm.code := by
    rw [← byte1_RM]
    simp [opcodeByte, rowIMMRM, fieldsIMMRMs, fieldsIMMRM, modRmFields, marker, BitField.place, opcodeMatch,
      RawFields.value, fieldsOfIMMRM, fieldsOfRm]
  have h2 : dataBytes (rowIMMRM id m a (sub.setWidth 8)) (fieldsOfIMMRM rm imm) = imm.bytes :=
    dataBytes_arithImm_fields imm
  have : encode i = opcodeByte (rowIMMRM id m a (sub.setWidth 8)) (fieldsOfIMMRM rm imm) 0 ::
      opcodeByte (rowIMMRM id m a (sub.setWidth 8)) (fieldsOfIMMRM rm imm) 1 ::
      (((rmTail rm ++ leBytes (dataBytes (rowIMMRM id m a (sub.setWidth 8)) (fieldsOfIMMRM rm imm)) imm.value) ++
        []) ++ []) := by
    unfold encode; rw [he, hf]; rfl
  rw [this, h0, h1, h2]; simp [arithImmTail]

/-- The two opcode bytes with the displacement, as the bytes before an immediate. -/
theorem prefix_length (b c : Byte) (rm : Rm) : (b :: c :: rmTail rm).length = 2 + dispLength rm.mod rm.code := by
  simp [rmTail_length]; omega

theorem accByte_w : ∀ w : Bool, bitFlag ((accByte 0x63 w >>> 0) &&& 1) = w := by decide

theorem immRmByte_s : ∀ s w : Bool, bitFlag (((0x80 ||| lowBits s w) >>> 1) &&& 1) = s := by decide

theorem immRmByte_w : ∀ s w : Bool, bitFlag (((0x80 ||| lowBits s w) >>> 0) &&& 1) = w := by decide

theorem match_movImmRm : ∀ (w : Bool) (mod : BitVec 2) (rm : BitVec 3),
    (matchOpcode [accByte 0x63 w, modRmByte mod 0 rm]).toOption =
      some (Instr.movImmRm (.reg 0) (.byte 0)).descriptor := by decide

/-- Decoding MOV_IMM_RM (R84 to R86, R142). -/
theorem decode_movImmRm (rm : Rm) (imm : Imm) (hwf : rm.wf = true) (rest : List Byte) :
    decodeInstr (encode (.movImmRm rm imm) ++ rest) = .ok (.movImmRm rm imm) := by
  rw [encode_movImmRm, List.cons_append, List.cons_append, List.append_assoc]
  have hdis := readDisp_rmTail (accByte 0x63 imm.width.bit) (modRmByte rm.mod 0 rm.code) rm (immTail imm ++ rest)
  have hx := readData_immTail (accByte 0x63 imm.width.bit :: modRmByte rm.mod 0 rm.code :: rmTail rm) imm rest
  rw [prefix_length, List.cons_append, List.cons_append] at hx
  have h2 : dataBytes (Instr.movImmRm rm imm).descriptor
      { fieldsOfRm rm with w := some imm.width.bit, disp := none } = imm.bytes := dataBytes_imm_fields imm
  refine decode_of_stages (e := (Instr.movImmRm rm imm).descriptor)
    (F₀ := { fieldsOfRm rm with w := some imm.width.bit, disp := none }) (F := (Instr.movImmRm rm imm).fields)
    (matchOpcode_of_two (ok_of_toOption (match_movImmRm _ _ _)) _) ?_ ?_ rfl ?_
  · have : ∀ (b c : Byte) rest, extractDeclared (Instr.movImmRm rm imm).descriptor (b :: c :: rest) =
        .ok { RawFields.empty with
          w := some (bitFlag ((b >>> 0) &&& 1)),
          mod := some (((c >>> 6) &&& 3).setWidth 2), rm := some (((c >>> 0) &&& 7).setWidth 3) } :=
      fun _ _ _ => rfl
    rw [this, accByte_w, modRmByte_mod, modRmByte_rm]; rfl
  · unfold extractTrailing
    show ((readDisp _ 2 (dispLength rm.mod rm.code)).bind (fun v => .ok (some v))).bind
      (fun disp => ((readData _ (2 + dispLength rm.mod rm.code) (dataBytes (Instr.movImmRm rm imm).descriptor
        { fieldsOfRm rm with w := some imm.width.bit, disp := none }) imm.width.bit false).bind
        (fun v => .ok (some v))).bind (fun data => Except.ok (ε := DecodeError)
          { fieldsOfRm rm with w := some imm.width.bit, disp := disp, data := data })) = _
    rw [hdis, h2, hx]; rfl
  · show Except.ok (Instr.movImmRm (Rm.ofFields rm.mod rm.code rm.disp) (Imm.ofFields imm.width.bit imm.value)) = _
    rw [imm_ofFields, rm_ofFields rm hwf]

/-- Decoding the forms 0x80 to 0x83 (R84 to R86). -/
theorem decode_IMMRM {i : Instr} {id : Nat} {m : String} {a : Action} {sub : BitVec 3} {rm : Rm} {imm : ArithImm}
    {mk : Rm → ArithImm → Instr} (hi : i = mk rm imm)
    (he : i.descriptor = rowIMMRM id m a (sub.setWidth 8)) (hf : i.fields = fieldsOfIMMRM rm imm)
    (hb : ∀ (s w : Bool) (mod : BitVec 2) (rm : BitVec 3),
      (matchOpcode [0x80 ||| lowBits s w, modRmByte mod sub rm]).toOption =
        some (rowIMMRM id m a (sub.setWidth 8)))
    (ho : ∀ F, Instr.ofFields (rowIMMRM id m a (sub.setWidth 8)) F =
      buildIMMRM mk (rowIMMRM id m a (sub.setWidth 8)) F)
    (hwf : rm.wf = true) (rest : List Byte) : decodeInstr (encode i ++ rest) = .ok i := by
  rw [encode_IMMRM he hf, List.cons_append, List.cons_append, List.append_assoc]
  have hdis := readDisp_rmTail (0x80 ||| lowBits imm.s imm.width.bit) (modRmByte rm.mod sub rm.code) rm
    (arithImmTail imm ++ rest)
  have hx := readData_arithImmTail
    ((0x80 ||| lowBits imm.s imm.width.bit) :: modRmByte rm.mod sub rm.code :: rmTail rm) imm rest
  rw [prefix_length, List.cons_append, List.cons_append] at hx
  have h2 : dataBytes (rowIMMRM id m a (sub.setWidth 8))
      { fieldsOfIMMRM rm imm with disp := none, data := none } = imm.bytes := dataBytes_arithImm_fields imm
  refine decode_of_stages (e := rowIMMRM id m a (sub.setWidth 8))
    (F₀ := { fieldsOfIMMRM rm imm with disp := none, data := none }) (F := fieldsOfIMMRM rm imm)
    (matchOpcode_of_two (ok_of_toOption (hb _ _ _ _)) _) ?_ ?_ rfl ?_
  · have : ∀ (b c : Byte) rest, extractDeclared (rowIMMRM id m a (sub.setWidth 8)) (b :: c :: rest) =
        .ok { RawFields.empty with
          s := some (bitFlag ((b >>> 1) &&& 1)), w := some (bitFlag ((b >>> 0) &&& 1)),
          mod := some (((c >>> 6) &&& 3).setWidth 2), rm := some (((c >>> 0) &&& 7).setWidth 3) } :=
      fun _ _ _ => rfl
    rw [this, immRmByte_s, immRmByte_w, modRmByte_mod, modRmByte_rm]; rfl
  · unfold extractTrailing
    show ((readDisp _ 2 (dispLength rm.mod rm.code)).bind (fun v => .ok (some v))).bind
      (fun disp => ((readData _ (2 + dispLength rm.mod rm.code) (dataBytes (rowIMMRM id m a (sub.setWidth 8))
        { fieldsOfIMMRM rm imm with disp := none, data := none }) imm.width.bit imm.s).bind
        (fun v => .ok (some v))).bind (fun data => Except.ok (ε := DecodeError)
          { fieldsOfIMMRM rm imm with disp := disp, data := data })) = _
    rw [hdis, h2, hx]; rfl
  · rw [ho]
    show Except.ok (mk (Rm.ofFields rm.mod rm.code rm.disp) (ArithImm.ofFields imm.s imm.width.bit imm.value)) = _
    rw [arithImm_ofFields, rm_ofFields rm hwf, hi]

end Sys2Proof
end

