-- ==== Sys2Proof/Laws/DecodeInversion.lean ====
section
/-! SUPPORT. What a decode that answers has read, format by format: the instruction's bytes are those at its
offset. -/

namespace Sys2Proof
open Sys2Proof.Machine

/-! ## The stages -/

theorem bind_ok {ε α β : Type} {x : Except ε α} {f : α → Except ε β} {b : β} (h : (x >>= f) = .ok b) :
    ∃ a, x = .ok a ∧ f a = .ok b := by
  cases x with
  | error e => cases h
  | ok a => exact ⟨a, rfl, h⟩

/-- R76: a matched descriptor is a row of the list whose matches hold. -/
theorem matchIn_ok {bs : List Byte} {e : Descriptor} : ∀ {es : List Descriptor}, matchIn bs es = .ok e →
    e ∈ es ∧ fullMatch e bs := by
  intro es
  induction es with
  | nil => intro h; cases h
  | cons x xs ih =>
    intro h
    unfold matchIn at h
    obtain ⟨v, hv, h⟩ := bind_ok h
    cases v with
    | false =>
      obtain ⟨h1, h2⟩ := ih h
      exact ⟨List.mem_cons_of_mem _ h1, h2⟩
    | true =>
      simp only [if_true] at h
      cases hs : x.secondaryMatch with
      | none =>
        rw [hs] at h
        cases h
        exact ⟨List.mem_cons_self, hv, by simp [hs]⟩
      | some m =>
        rw [hs] at h
        obtain ⟨u, hu, h⟩ := bind_ok h
        cases u with
        | false =>
          obtain ⟨h1, h2⟩ := ih h
          exact ⟨List.mem_cons_of_mem _ h1, h2⟩
        | true =>
          cases h
          refine ⟨List.mem_cons_self, hv, fun m' hm' => ?_⟩
          rw [hs] at hm'
          cases hm'
          exact hu

/-- Everything an answered decode has done. -/
theorem decode_stages {bs : List Byte} {i : Instr} (h : decodeInstr bs = .ok i) :
    ∃ e F₀ F, e ∈ catalog ∧ fullMatch e bs ∧ extractDeclared e bs = .ok F₀ ∧ extractTrailing e F₀ bs = .ok F ∧
      Instr.ofFields e F = .ok i := by
  unfold decodeInstr at h
  obtain ⟨e, h1, h⟩ := bind_ok h
  obtain ⟨F₀, h2, h⟩ := bind_ok h
  obtain ⟨F, h3, h⟩ := bind_ok h
  obtain ⟨_, _, h⟩ := bind_ok h
  obtain ⟨hm, hf⟩ := matchIn_ok h1
  exact ⟨e, F₀, F, hm, hf, h2, h3, h⟩

/-- What a claim about decoding says of one answer: the instruction is well formed and its encoding is what was
read. -/
def readBack (bs : List Byte) (i : Instr) : Prop := i.wf = true ∧ ∃ rest, bs = encode i ++ rest

/-! ## Trailing values -/

theorem byteAt_ok {bs : List Byte} {k : Nat} {b : Byte} (h : byteAt bs k = .ok b) : bs[k]? = some b := by
  unfold byteAt at h
  split at h
  · cases h; assumption
  · cases h

theorem modRmByte_split : ∀ c : Byte, modRmByte (((c >>> 6) &&& 3).setWidth 2) (((c >>> 3) &&& 7).setWidth 3)
    (((c >>> 0) &&& 7).setWidth 3) = c := by decide

theorem loByte_hiByte_list (lo hi : Byte) : leBytes 2 (joinBytes hi lo) = [lo, hi] := by
  simp [leBytes]

/-- R84, R85, R91: the operand of mod, rm and the displacement read has those fields, and its bytes are the bytes
read. -/
theorem readDisp_inv {b c : Byte} {rest : List Byte} {mod : BitVec 2} {rm : BitVec 3} {disp : Word}
    (h : readDisp (b :: c :: rest) 2 (dispLength mod rm) = .ok disp) :
    (Rm.ofFields mod rm disp).wf = true ∧ (Rm.ofFields mod rm disp).mod = mod ∧
      (Rm.ofFields mod rm disp).code = rm ∧ ∃ tl, rest = rmTail (Rm.ofFields mod rm disp) ++ tl := by
  have byte : ∀ {r : List Byte}, readDisp (b :: c :: r) 2 1 = .ok disp →
      ∃ v tl, r = v :: tl ∧ disp = sext8 v := by
    intro r h
    rcases r with _ | ⟨v, tl⟩
    · cases h
    · cases h; exact ⟨v, tl, rfl, rfl⟩
  have word : ∀ {r : List Byte}, readDisp (b :: c :: r) 2 2 = .ok disp →
      ∃ lo hi tl, r = lo :: hi :: tl ∧ disp = joinBytes hi lo := by
    intro r h
    rcases r with _ | ⟨lo, _ | ⟨hi, tl⟩⟩
    · cases h
    · cases h
    · cases h; exact ⟨lo, hi, tl, rfl, rfl⟩
  rcases code2_cases mod with hm | hm | hm | hm <;> subst hm
  · by_cases h6 : rm = 6
    · subst h6
      obtain ⟨lo, hi, tl, rfl, rfl⟩ := word h
      exact ⟨rfl, rfl, rfl, tl, by
        show _ = leBytes 2 (joinBytes hi lo) ++ tl
        rw [loByte_hiByte_list]; rfl⟩
    · rcases code3_cases rm with hr | hr | hr | hr | hr | hr | hr | hr <;> subst hr <;>
        first
        | exact absurd rfl h6
        | exact ⟨rfl, rfl, rfl, rest, rfl⟩
  · obtain ⟨v, tl, rfl, rfl⟩ := byte h
    rcases code3_cases rm with hr | hr | hr | hr | hr | hr | hr | hr <;> subst hr <;>
      exact ⟨rfl, rfl, rfl, tl, by
        show _ = [loByte (sext8 (loByte (sext8 v)))] ++ tl
        rw [loByte_sext8, loByte_sext8]; rfl⟩
  · obtain ⟨lo, hi, tl, rfl, rfl⟩ := word h
    rcases code3_cases rm with hr | hr | hr | hr | hr | hr | hr | hr <;> subst hr <;>
      exact ⟨rfl, rfl, rfl, tl, by
        show _ = leBytes 2 (joinBytes hi lo) ++ tl
        rw [loByte_hiByte_list]; rfl⟩
  · rcases code3_cases rm with hr | hr | hr | hr | hr | hr | hr | hr <;> subst hr <;>
      exact ⟨rfl, rfl, rfl, rest, rfl⟩

/-! ## Format RM -/

/-- What a decode of format RM has read (R72, R84, R85). -/
theorem inv_RM {bs : List Byte} {F₀ F : RawFields} {i : Instr} {id : Nat} {m : String} {a : Action} {prim : Byte}
    {mk : Bool → Width → BitVec 3 → Rm → Instr}
    (hp : (rowRM id m a prim).primaryMatch.holds bs = .ok true)
    (h2 : extractDeclared (rowRM id m a prim) bs = .ok F₀)
    (h3 : extractTrailing (rowRM id m a prim) F₀ bs = .ok F)
    (h5 : buildRM mk (rowRM id m a prim) F = .ok i)
    (he : ∀ d w reg rm, (mk d w reg rm).descriptor = rowRM id m a prim)
    (hf : ∀ d w reg rm, (mk d w reg rm).fields = fieldsOfRM d w reg rm)
    (hwf : ∀ d w reg rm, (mk d w reg rm).wf = rm.wf)
    (hb : ∀ b : Byte, (b >>> 2) &&& 0x3F = prim →
      (prim &&& 0x3F) <<< 2 ||| lowBits (bitFlag ((b >>> 1) &&& 1)) (bitFlag ((b >>> 0) &&& 1)) = b) :
    readBack bs i := by
  rcases bs with _ | ⟨b, _ | ⟨c, rest⟩⟩
  · cases h2
  · cases h2
  · have hprim : (b >>> 2) &&& 0x3F = prim := by
      have : ((b >>> 2) &&& 0x3F == prim) = true := by
        have : Except.ok (ε := DecodeError) ((b >>> 2) &&& 0x3F == prim) = .ok true := hp
        injection this
      simpa using this
    have h2' : F₀ = { RawFields.empty with
        d := some (bitFlag ((b >>> 1) &&& 1)), w := some (bitFlag ((b >>> 0) &&& 1)),
        mod := some (((c >>> 6) &&& 3).setWidth 2), reg := some (((c >>> 3) &&& 7).setWidth 3),
        rm := some (((c >>> 0) &&& 7).setWidth 3) } := by
      injection h2 with h2; exact h2.symm
    subst h2'
    unfold extractTrailing at h3
    obtain ⟨disp, hd, h3⟩ := bind_ok h3
    obtain ⟨v, hr, hv⟩ := bind_ok (f := fun v => Except.ok (some v)) hd
    cases hv
    have h3 : F = { RawFields.empty with
        d := some (bitFlag ((b >>> 1) &&& 1)), w := some (bitFlag ((b >>> 0) &&& 1)),
        mod := some (((c >>> 6) &&& 3).setWidth 2), reg := some (((c >>> 3) &&& 7).setWidth 3),
        rm := some (((c >>> 0) &&& 7).setWidth 3), disp := some v } := by
      injection h3 with h3; exact h3.symm
    subst h3
    obtain ⟨w1, w2, w3, tl, w4⟩ := readDisp_inv (mod := ((c >>> 6) &&& 3).setWidth 2)
      (rm := ((c >>> 0) &&& 7).setWidth 3) hr
    injection h5 with h5
    subst h5
    refine ⟨(hwf _ _ _ _).trans w1, tl, ?_⟩
    rw [encode_RM (he _ _ _ _) (hf _ _ _ _), w2, w3, modRmByte_split]
    have : (Width.ofBit (bitFlag ((b >>> 0) &&& 1))).bit = bitFlag ((b >>> 0) &&& 1) := by
      cases bitFlag ((b >>> 0) &&& 1) <;> rfl
    rw [this, hb b hprim]
    rw [List.cons_append, List.cons_append, ← w4]

/-! ## Format SR -/

theorem modRmByte_split_sr : ∀ c : Byte, (c >>> 5) &&& 1 = 0 →
    modRmByte (((c >>> 6) &&& 3).setWidth 2) (0#1 ++ ((c >>> 3) &&& 3).setWidth 2)
      (((c >>> 0) &&& 7).setWidth 3) = c := by decide

/-- A match that holds says what its bits are (R68). -/
theorem holds_cons {sh : Nat} {mask v b : Byte} {rest : List Byte}
    (h : (opcodeMatch 0 sh mask v).holds (b :: rest) = .ok true) : (b >>> sh) &&& mask = v := by
  have : Except.ok (ε := DecodeError) ((b >>> sh) &&& mask == v) = .ok true := h
  injection this with this
  simpa using this

theorem holds_cons_cons {sh : Nat} {mask v b c : Byte} {rest : List Byte}
    (h : (opcodeMatch 1 sh mask v).holds (b :: c :: rest) = .ok true) : (c >>> sh) &&& mask = v := by
  have : Except.ok (ε := DecodeError) ((c >>> sh) &&& mask == v) = .ok true := h
  injection this with this
  simpa using this

/-- What a decode of format SR has read (R72, R84, R85). -/
theorem inv_SR {bs : List Byte} {F₀ F : RawFields} {i : Instr} {id : Nat} {prim : Byte} {d : Bool}
    {mk : BitVec 2 → Rm → Instr} (hp : fullMatch (rowSR id prim) bs)
    (h2 : extractDeclared (rowSR id prim) bs = .ok F₀)
    (h3 : extractTrailing (rowSR id prim) F₀ bs = .ok F)
    (h5 : buildSR mk (rowSR id prim) F = .ok i)
    (he : ∀ sr rm, (mk sr rm).descriptor = rowSR id prim)
    (hf : ∀ sr rm, (mk sr rm).fields = fieldsOfSR d sr rm)
    (hd : prim &&& (0xFF : Byte) ||| (flagByte d &&& 1) <<< 1 = prim)
    (hwf : ∀ sr rm, (mk sr rm).wf = rm.wf) : readBack bs i := by
  rcases bs with _ | ⟨b, _ | ⟨c, rest⟩⟩
  · cases h2
  · cases h2
  · have hb : (b >>> 0) &&& 0xFF = prim := holds_cons hp.1
    have hb : b = prim := by
      rw [← hb]; simp only [BitVec.ushiftRight_zero]; exact (BitVec.and_allOnes (x := b)).symm
    have hc : (c >>> 5) &&& 1 = 0 := holds_cons_cons (hp.2 _ rfl)
    have h2' : F₀ = { RawFields.empty with
        d := some (bitFlag ((b >>> 1) &&& 1)),
        mod := some (((c >>> 6) &&& 3).setWidth 2), sr := some (((c >>> 3) &&& 3).setWidth 2),
        rm := some (((c >>> 0) &&& 7).setWidth 3) } := by
      injection h2 with h2; exact h2.symm
    subst h2'
    unfold extractTrailing at h3
    obtain ⟨disp, hdi, h3⟩ := bind_ok h3
    obtain ⟨v, hr, hv⟩ := bind_ok (f := fun v => Except.ok (some v)) hdi
    cases hv
    have h3 : F = { RawFields.empty with
        d := some (bitFlag ((b >>> 1) &&& 1)),
        mod := some (((c >>> 6) &&& 3).setWidth 2), sr := some (((c >>> 3) &&& 3).setWidth 2),
        rm := some (((c >>> 0) &&& 7).setWidth 3), disp := some v } := by
      injection h3 with h3; exact h3.symm
    subst h3
    obtain ⟨w1, w2, w3, tl, w4⟩ := readDisp_inv (mod := ((c >>> 6) &&& 3).setWidth 2)
      (rm := ((c >>> 0) &&& 7).setWidth 3) hr
    injection h5 with h5
    subst h5
    refine ⟨(hwf _ _).trans w1, tl, ?_⟩
    rw [encode_SR (he _ _) (hf _ _) hd, w2, w3, modRmByte_split_sr c hc, hb, List.cons_append, List.cons_append, ← w4]

/-! ## Format JMP -/

/-- What a decode of format JMP has read (R87). -/
theorem inv_JMP {bs : List Byte} {F₀ F : RawFields} {i : Instr} {id : Nat} {m : String} {prim : Byte}
    {mk : Byte → Instr} (hp : fullMatch (rowJMP id m prim) bs)
    (h2 : extractDeclared (rowJMP id m prim) bs = .ok F₀)
    (h3 : extractTrailing (rowJMP id m prim) F₀ bs = .ok F)
    (h5 : buildJMP mk (rowJMP id m prim) F = .ok i)
    (he : ∀ inc, (mk inc).descriptor = rowJMP id m prim) (hf : ∀ inc, (mk inc).fields = fieldsOfJMP inc)
    (hwf : ∀ inc, (mk inc).wf = true) : readBack bs i := by
  rcases bs with _ | ⟨b, _ | ⟨c, rest⟩⟩
  · have := hp.1; cases this
  · cases h2
    unfold extractTrailing at h3
    cases h3
  · have hb : (b >>> 0) &&& 0xFF = prim := holds_cons hp.1
    have hb : b = prim := by
      rw [← hb]; simp only [BitVec.ushiftRight_zero]; exact (BitVec.and_allOnes (x := b)).symm
    cases h2
    have h3 : F = { RawFields.empty with inc := some c } := by
      injection h3 with h3; exact h3.symm
    subst h3
    injection h5 with h5
    subst h5
    refine ⟨hwf _, rest, ?_⟩
    rw [encode_JMP (he _) (hf _), hb]; rfl

/-! ## Immediates and absolute addresses -/

/-- R86: the immediate of w and the data read has that w, and its bytes are the bytes read. -/
theorem readData_inv {pre rest : List Byte} {w : Bool} {data : Word} {n : Nat} (hn : n = if w then 2 else 1)
    (h : readData (pre ++ rest) pre.length n w false = .ok data) :
    (Imm.ofFields w data).width.bit = w ∧ ∃ tl, rest = immTail (Imm.ofFields w data) ++ tl := by
  subst hn
  have h0 := byteAt_append pre rest 0
  have h1 := byteAt_append pre rest 1
  rw [Nat.add_zero] at h0
  cases w with
  | false =>
    refine ⟨rfl, ?_⟩
    obtain ⟨b, hb, h⟩ := bind_ok (x := byteAt _ _) (f := fun b => Except.ok (zext8 b)) h
    cases h
    rw [h0] at hb
    rcases rest with _ | ⟨c, tl⟩
    · cases hb
    · cases hb
      exact ⟨tl, by show _ = [loByte (zext8 (loByte (zext8 b)))] ++ tl; simp⟩
  | true =>
    refine ⟨rfl, ?_⟩
    obtain ⟨lo, hlo, h⟩ := bind_ok (x := byteAt _ _)
      (f := fun lo => (byteAt _ _).bind (fun hi => Except.ok (joinBytes hi lo))) h
    obtain ⟨hi, hhi, h⟩ := bind_ok (x := byteAt _ _) (f := fun hi => Except.ok (joinBytes hi lo)) h
    cases h
    rw [h0] at hlo
    rw [h1] at hhi
    rcases rest with _ | ⟨c, _ | ⟨e, tl⟩⟩
    · cases hlo
    · cases hhi
    · cases hlo; cases hhi
      exact ⟨tl, by show _ = leBytes 2 (joinBytes hi lo) ++ tl; rw [loByte_hiByte_list]; rfl⟩

/-- R86: the immediate of s, w and the data read has that s and w, and its bytes are the bytes read. -/
theorem readDataS_inv {pre rest : List Byte} {s w : Bool} {data : Word} {n : Nat}
    (hn : n = if w && !s then 2 else 1) (h : readData (pre ++ rest) pre.length n w s = .ok data) :
    (ArithImm.ofFields s w data).width.bit = w ∧ (ArithImm.ofFields s w data).s = s ∧
      ∃ tl, rest = arithImmTail (ArithImm.ofFields s w data) ++ tl := by
  subst hn
  have h0 := byteAt_append pre rest 0
  have h1 := byteAt_append pre rest 1
  rw [Nat.add_zero] at h0
  cases w with
  | false =>
    refine ⟨rfl, rfl, ?_⟩
    obtain ⟨b, hb, h⟩ := bind_ok (x := byteAt _ _) (f := fun b => Except.ok (zext8 b)) h
    cases h
    rw [h0] at hb
    rcases rest with _ | ⟨c, tl⟩
    · cases hb
    · cases hb
      exact ⟨tl, by show _ = [loByte (zext8 (loByte (zext8 b)))] ++ tl; simp⟩
  | true =>
    cases s with
    | true =>
      refine ⟨rfl, rfl, ?_⟩
      obtain ⟨b, hb, h⟩ := bind_ok (x := byteAt _ _) (f := fun b => Except.ok (sext8 b)) h
      cases h
      rw [h0] at hb
      rcases rest with _ | ⟨c, tl⟩
      · cases hb
      · cases hb
        exact ⟨tl, by show _ = [loByte (sext8 (loByte (sext8 b)))] ++ tl; simp [loByte_sext8]⟩
    | false =>
      refine ⟨rfl, rfl, ?_⟩
      obtain ⟨lo, hlo, h⟩ := bind_ok (x := byteAt _ _)
        (f := fun lo => (byteAt _ _).bind (fun hi => Except.ok (joinBytes hi lo))) h
      obtain ⟨hi, hhi, h⟩ := bind_ok (x := byteAt _ _) (f := fun hi => Except.ok (joinBytes hi lo)) h
      cases h
      rw [h0] at hlo
      rw [h1] at hhi
      rcases rest with _ | ⟨c, _ | ⟨e, tl⟩⟩
      · cases hlo
      · cases hhi
      · cases hlo; cases hhi
        exact ⟨tl, by show _ = leBytes 2 (joinBytes hi lo) ++ tl; rw [loByte_hiByte_list]; rfl⟩

theorem ofBit_bit (w : Bool) : (Width.ofBit w).bit = w := by cases w <;> rfl

/-- What a decode of an accumulator move has read (R72, R87). -/
theorem inv_ACCMEM {bs : List Byte} {F₀ F : RawFields} {i : Instr} {e : Descriptor} {prim : Byte}
    {mk : Width → Word → Instr} (hde : e = (mk .w8 0).descriptor)
    (hmk : mk = .movAccMem ∧ prim = 0x50 ∨ mk = .movMemAcc ∧ prim = 0x51)
    (hp : fullMatch e bs) (h2 : extractDeclared e bs = .ok F₀) (h3 : extractTrailing e F₀ bs = .ok F)
    (h5 : buildACCMEM mk e F = .ok i) : readBack bs i := by
  have hfirst : ∀ b : Byte, (b >>> 1) &&& 0x7F = prim → accByte prim (bitFlag ((b >>> 0) &&& 1)) = b := by
    rcases hmk with ⟨_, rfl⟩ | ⟨_, rfl⟩ <;> decide
  have henc : ∀ w a, encode (mk w a) = accByte prim w.bit :: leBytes 2 a := by
    rcases hmk with ⟨rfl, rfl⟩ | ⟨rfl, rfl⟩
    exacts [encode_movAccMem, encode_movMemAcc]
  rcases bs with _ | ⟨b, _ | ⟨lo, _ | ⟨hi, tl⟩⟩⟩
  · rcases hmk with ⟨rfl, rfl⟩ | ⟨rfl, rfl⟩ <;> subst hde <;> cases h2
  · rcases hmk with ⟨rfl, rfl⟩ | ⟨rfl, rfl⟩ <;> subst hde <;> cases h2 <;> cases h3
  · rcases hmk with ⟨rfl, rfl⟩ | ⟨rfl, rfl⟩ <;> subst hde <;> cases h2 <;> cases h3
  · have key : (b >>> 1) &&& 0x7F = prim ∧
        i = mk (Width.ofBit (bitFlag ((b >>> 0) &&& 1))) (joinBytes hi lo) := by
      rcases hmk with ⟨rfl, rfl⟩ | ⟨rfl, rfl⟩ <;> subst hde <;> cases h2 <;> cases h3 <;> cases h5 <;>
        exact ⟨holds_cons hp.1, rfl⟩
    obtain ⟨hb, rfl⟩ := key
    refine ⟨by rcases hmk with ⟨rfl, _⟩ | ⟨rfl, _⟩ <;> rfl, tl, ?_⟩
    rw [henc, ofBit_bit, hfirst b hb, loByte_hiByte_list]; rfl

/-- What a decode of format ACCIMM has read (R72, R86). -/
theorem inv_ACCIMM {bs : List Byte} {F₀ F : RawFields} {i : Instr} {id : Nat} {m : String} {a : Action}
    {prim : Byte} {mk : Imm → Instr} (hp : fullMatch (rowACCIMM id m a prim) bs)
    (h2 : extractDeclared (rowACCIMM id m a prim) bs = .ok F₀)
    (h3 : extractTrailing (rowACCIMM id m a prim) F₀ bs = .ok F)
    (h5 : buildACCIMM mk (rowACCIMM id m a prim) F = .ok i)
    (he : ∀ imm, (mk imm).descriptor = rowACCIMM id m a prim) (hf : ∀ imm, (mk imm).fields = fieldsOfImm imm)
    (hwf : ∀ imm, (mk imm).wf = true)
    (hb : ∀ b : Byte, (b >>> 1) &&& 0x7F = prim → accByte prim (bitFlag ((b >>> 0) &&& 1)) = b) :
    readBack bs i := by
  rcases bs with _ | ⟨b, rest⟩
  · cases h2
  · have hprim : (b >>> 1) &&& 0x7F = prim := holds_cons hp.1
    have h2' : F₀ = { RawFields.empty with w := some (bitFlag ((b >>> 0) &&& 1)) } := by
      injection h2 with h2; exact h2.symm
    subst h2'
    unfold extractTrailing at h3
    obtain ⟨_, hdi, h3⟩ := bind_ok h3
    cases hdi
    obtain ⟨data, hda, h3⟩ := bind_ok h3
    obtain ⟨v, hr, hv⟩ := bind_ok (f := fun v => Except.ok (some v)) hda
    cases hv
    have h3 : F = { RawFields.empty with w := some (bitFlag ((b >>> 0) &&& 1)), data := some v } := by
      injection h3 with h3; exact h3.symm
    subst h3
    obtain ⟨w1, tl, w2⟩ := readData_inv (pre := [b]) (rest := rest) (w := bitFlag ((b >>> 0) &&& 1))
      (by cases bitFlag ((b >>> 0) &&& 1) <;> rfl) hr
    injection h5 with h5
    subst h5
    refine ⟨hwf _, tl, ?_⟩
    rw [encode_ACCIMM (he _) (hf _), w1, hb b hprim, List.cons_append, ← w2]

/-- What a decode of format IMMREG has read (R72, R86). -/
theorem inv_movImmR {bs : List Byte} {F₀ F : RawFields} {i : Instr} {e : Descriptor}
    (hde : e = (Instr.movImmR 0 (.byte 0)).descriptor) (hp : fullMatch e bs)
    (h2 : extractDeclared e bs = .ok F₀) (h3 : extractTrailing e F₀ bs = .ok F)
    (h5 : Instr.ofFields e F = .ok i) : readBack bs i := by
  have hfirst : ∀ b : Byte, (b >>> 4) &&& 0x0F = 0x0B →
      immRegByte (bitFlag ((b >>> 3) &&& 1)) (((b >>> 0) &&& 7).setWidth 3) = b := by decide
  subst hde
  rcases bs with _ | ⟨b, rest⟩
  · cases h2
  · have hprim : (b >>> 4) &&& 0x0F = 0x0B := holds_cons hp.1
    have h2' : F₀ = { RawFields.empty with
        w := some (bitFlag ((b >>> 3) &&& 1)), reg := some (((b >>> 0) &&& 7).setWidth 3) } := by
      injection h2 with h2; exact h2.symm
    subst h2'
    unfold extractTrailing at h3
    obtain ⟨_, hdi, h3⟩ := bind_ok h3
    cases hdi
    obtain ⟨data, hda, h3⟩ := bind_ok h3
    obtain ⟨v, hr, hv⟩ := bind_ok (f := fun v => Except.ok (some v)) hda
    cases hv
    have h3 : F = { RawFields.empty with
        w := some (bitFlag ((b >>> 3) &&& 1)), reg := some (((b >>> 0) &&& 7).setWidth 3),
        data := some v } := by
      injection h3 with h3; exact h3.symm
    subst h3
    obtain ⟨w1, tl, w2⟩ := readData_inv (pre := [b]) (rest := rest) (w := bitFlag ((b >>> 3) &&& 1))
      (by cases bitFlag ((b >>> 3) &&& 1) <;> rfl) hr
    injection h5 with h5
    subst h5
    refine ⟨rfl, tl, ?_⟩
    rw [encode_movImmR, w1, hfirst b hprim, List.cons_append, ← w2]

/-! ## Format IMMRM -/

theorem modRmByte_split_sub : ∀ (sub : BitVec 3) (c : Byte), (c >>> 3) &&& 7 = sub.setWidth 8 →
    modRmByte (((c >>> 6) &&& 3).setWidth 2) sub (((c >>> 0) &&& 7).setWidth 3) = c := by decide

/-- The immediate after two opcode bytes and a displacement. -/
theorem readData_after {b c : Byte} {rm : Rm} {tl : List Byte} {n : Nat} {w s : Bool} {data : Word}
    (h : readData (b :: c :: (rmTail rm ++ tl)) (2 + dispLength rm.mod rm.code) n w s = .ok data) :
    readData ((b :: c :: rmTail rm) ++ tl) (b :: c :: rmTail rm).length n w s = .ok data := by
  rw [prefix_length]; exact h

/-- What a decode of MOV_IMM_RM has read (R72, R84 to R86). -/
theorem inv_movImmRm {bs : List Byte} {F₀ F : RawFields} {i : Instr} {e : Descriptor}
    (hde : e = (Instr.movImmRm (.reg 0) (.byte 0)).descriptor) (hp : fullMatch e bs)
    (h2 : extractDeclared e bs = .ok F₀) (h3 : extractTrailing e F₀ bs = .ok F)
    (h5 : Instr.ofFields e F = .ok i) : readBack bs i := by
  have hfirst : ∀ b : Byte, (b >>> 1) &&& 0x7F = 0x63 → accByte 0x63 (bitFlag ((b >>> 0) &&& 1)) = b := by decide
  subst hde
  rcases bs with _ | ⟨b, _ | ⟨c, rest⟩⟩
  · cases h2
  · cases h2
  · have hprim : (b >>> 1) &&& 0x7F = 0x63 := holds_cons hp.1
    have hsub : (c >>> 3) &&& 7 = (0 : BitVec 3).setWidth 8 := holds_cons_cons (hp.2 _ rfl)
    have h2' : F₀ = { RawFields.empty with
        w := some (bitFlag ((b >>> 0) &&& 1)),
        mod := some (((c >>> 6) &&& 3).setWidth 2), rm := some (((c >>> 0) &&& 7).setWidth 3) } := by
      injection h2 with h2; exact h2.symm
    subst h2'
    unfold extractTrailing at h3
    obtain ⟨disp, hdi, h3⟩ := bind_ok h3
    obtain ⟨v, hr, hv⟩ := bind_ok (f := fun v => Except.ok (some v)) hdi
    cases hv
    obtain ⟨w1, w2, w3, tl, w4⟩ := readDisp_inv (mod := ((c >>> 6) &&& 3).setWidth 2)
      (rm := ((c >>> 0) &&& 7).setWidth 3) hr
    obtain ⟨data, hda, h3⟩ := bind_ok h3
    obtain ⟨x, hx, hv⟩ := bind_ok (f := fun v => Except.ok (some v)) hda
    cases hv
    have h3 : F = { RawFields.empty with
        w := some (bitFlag ((b >>> 0) &&& 1)),
        mod := some (((c >>> 6) &&& 3).setWidth 2), rm := some (((c >>> 0) &&& 7).setWidth 3),
        disp := some v, data := some x } := by
      injection h3 with h3; exact h3.symm
    subst h3
    have hx' : readData (b :: c :: rest) (2 + dispLength (((c >>> 6) &&& 3).setWidth 2) (((c >>> 0) &&& 7).setWidth 3))
        (if bitFlag ((b >>> 0) &&& 1) && true then 2 else 1) (bitFlag ((b >>> 0) &&& 1)) false = .ok x := hx
    rw [w4] at hx'
    obtain ⟨x1, tl', x2⟩ := readData_inv (w := bitFlag ((b >>> 0) &&& 1))
      (n := if bitFlag ((b >>> 0) &&& 1) && true then 2 else 1)
      (by cases bitFlag ((b >>> 0) &&& 1) <;> rfl)
      (readData_after (rm := Rm.ofFields (((c >>> 6) &&& 3).setWidth 2) (((c >>> 0) &&& 7).setWidth 3) v)
        (by rw [w2, w3]; exact hx'))
    injection h5 with h5
    subst h5
    refine ⟨w1, tl', ?_⟩
    rw [encode_movImmRm, w2, w3, x1, hfirst b hprim, modRmByte_split_sub 0 c hsub, List.cons_append,
      List.cons_append, List.append_assoc, ← x2, ← w4]

/-- What a decode of the forms 0x80 to 0x83 has read (R72, R84 to R86). -/
theorem inv_IMMRM {bs : List Byte} {F₀ F : RawFields} {i : Instr} {id : Nat} {m : String} {a : Action}
    {sub : BitVec 3} {mk : Rm → ArithImm → Instr} (hp : fullMatch (rowIMMRM id m a (sub.setWidth 8)) bs)
    (h2 : extractDeclared (rowIMMRM id m a (sub.setWidth 8)) bs = .ok F₀)
    (h3 : extractTrailing (rowIMMRM id m a (sub.setWidth 8)) F₀ bs = .ok F)
    (h5 : buildIMMRM mk (rowIMMRM id m a (sub.setWidth 8)) F = .ok i)
    (he : ∀ rm imm, (mk rm imm).descriptor = rowIMMRM id m a (sub.setWidth 8))
    (hf : ∀ rm imm, (mk rm imm).fields = fieldsOfIMMRM rm imm)
    (hwf : ∀ rm imm, (mk rm imm).wf = rm.wf) : readBack bs i := by
  have hfirst : ∀ b : Byte, (b >>> 2) &&& 0x3F = 0x20 →
      (0x80 : Byte) ||| lowBits (bitFlag ((b >>> 1) &&& 1)) (bitFlag ((b >>> 0) &&& 1)) = b := by decide
  rcases bs with _ | ⟨b, _ | ⟨c, rest⟩⟩
  · cases h2
  · cases h2
  · have hprim : (b >>> 2) &&& 0x3F = 0x20 := holds_cons hp.1
    have hsub : (c >>> 3) &&& 7 = sub.setWidth 8 := holds_cons_cons (hp.2 _ rfl)
    have h2' : F₀ = { RawFields.empty with
        s := some (bitFlag ((b >>> 1) &&& 1)), w := some (bitFlag ((b >>> 0) &&& 1)),
        mod := some (((c >>> 6) &&& 3).setWidth 2), rm := some (((c >>> 0) &&& 7).setWidth 3) } := by
      injection h2 with h2; exact h2.symm
    subst h2'
    unfold extractTrailing at h3
    obtain ⟨disp, hdi, h3⟩ := bind_ok h3
    obtain ⟨v, hr, hv⟩ := bind_ok (f := fun v => Except.ok (some v)) hdi
    cases hv
    obtain ⟨w1, w2, w3, tl, w4⟩ := readDisp_inv (mod := ((c >>> 6) &&& 3).setWidth 2)
      (rm := ((c >>> 0) &&& 7).setWidth 3) hr
    obtain ⟨data, hda, h3⟩ := bind_ok h3
    obtain ⟨x, hx, hv⟩ := bind_ok (f := fun v => Except.ok (some v)) hda
    cases hv
    have h3 : F = { RawFields.empty with
        s := some (bitFlag ((b >>> 1) &&& 1)), w := some (bitFlag ((b >>> 0) &&& 1)),
        mod := some (((c >>> 6) &&& 3).setWidth 2), rm := some (((c >>> 0) &&& 7).setWidth 3),
        disp := some v, data := some x } := by
      injection h3 with h3; exact h3.symm
    subst h3
    have hx' : readData (b :: c :: rest) (2 + dispLength (((c >>> 6) &&& 3).setWidth 2) (((c >>> 0) &&& 7).setWidth 3))
        (if bitFlag ((b >>> 0) &&& 1) && !(bitFlag ((b >>> 1) &&& 1)) then 2 else 1) (bitFlag ((b >>> 0) &&& 1))
        (bitFlag ((b >>> 1) &&& 1)) = .ok x := hx
    rw [w4] at hx'
    obtain ⟨x1, x2, tl', x3⟩ := readDataS_inv rfl
      (readData_after (rm := Rm.ofFields (((c >>> 6) &&& 3).setWidth 2) (((c >>> 0) &&& 7).setWidth 3) v)
        (by rw [w2, w3]; exact hx'))
    injection h5 with h5
    subst h5
    refine ⟨(hwf _ _).trans w1, tl', ?_⟩
    rw [encode_IMMRM (he _ _) (hf _ _), w2, w3, x1, x2, hfirst b hprim, modRmByte_split_sub sub c hsub,
      List.cons_append, List.cons_append, List.append_assoc, ← x3, ← w4]

end Sys2Proof
end

