-- ==== Sys2Proof/Laws/Landing.lean ====
section
/-! SUPPORT. The jump walk (R197): it answers the record whose offset is the target (R198), and faults where there
is none (R199). -/

namespace Sys2Proof.Machine

/-- R88: every instruction is at least two bytes long, so every record is. -/
theorem instr_len_pos (i : Instr) : 0 < i.len := by
  have := descriptor_of_catalog catalog_opcodeBytes i
  unfold Instr.len recordLength
  omega

theorem record_len_pos (r : Record) : 0 < r.len := instr_len_pos r.instr

@[simp] theorem offsetOf_zero (rs : List Record) : offsetOf rs 0 = 0 := rfl

@[simp] theorem offsetOf_nil (k : Nat) : offsetOf [] k = 0 := by simp [offsetOf]

@[simp] theorem offsetOf_cons_succ (r : Record) (rs : List Record) (k : Nat) :
    offsetOf (r :: rs) (k + 1) = r.len + offsetOf rs k := by simp [offsetOf]

/-- Offsets rise strictly along the store. -/
theorem offsetOf_lt {rs : List Record} : ∀ {j k : Nat}, j < k → k ≤ rs.length → offsetOf rs j < offsetOf rs k := by
  induction rs with
  | nil => intro j k h hk; simp at hk; omega
  | cons r rs ih =>
    intro j k h hk
    have hr := record_len_pos r
    cases k with
    | zero => omega
    | succ k =>
      cases j with
      | zero => simp; omega
      | succ j =>
        have := ih (j := j) (k := k) (by omega) (by simpa using hk)
        simp; exact this

theorem offsetOf_le {rs : List Record} {j k : Nat} (h : j ≤ k) (hk : k ≤ rs.length) :
    offsetOf rs j ≤ offsetOf rs k := by
  rcases Nat.lt_or_eq_of_le h with h | rfl
  exacts [Nat.le_of_lt (offsetOf_lt h hk), Nat.le_refl _]

/-- A record boundary is at one offset only (R198 "the unique index"). -/
theorem offsetOf_inj {rs : List Record} {j k : Nat} (hj : j ≤ rs.length) (hk : k ≤ rs.length)
    (h : offsetOf rs j = offsetOf rs k) : j = k := by
  rcases Nat.lt_trichotomy j k with h' | h' | h'
  · have := offsetOf_lt h' hk; omega
  · exact h'
  · have := offsetOf_lt h' hj; omega

/-- The offset of the next record is the offset of this one plus its length. -/
theorem offsetOf_succ {rs : List Record} {j : Nat} {r : Record} (h : rs[j]? = some r) :
    offsetOf rs (j + 1) = offsetOf rs j + r.len := by
  induction rs generalizing j with
  | nil => simp at h
  | cons x rs ih =>
    cases j with
    | zero => simp at h; subst h; simp
    | succ j => simp at h; simp [ih h]; omega

/-- Offsets add along a split of the store. -/
theorem offsetOf_drop (rs : List Record) (i m : Nat) :
    offsetOf rs (i + m) = offsetOf rs i + offsetOf (rs.drop i) m := by
  simp [offsetOf, List.take_add]

/-- Walking `m` records back from a boundary (R197's backward loop). -/
theorem offsetOf_reverse (rs : List Record) {k m : Nat} (hk : k ≤ rs.length) (hm : m ≤ k) :
    offsetOf (rs.take k).reverse m + offsetOf rs (k - m) = offsetOf rs k := by
  have h1 : (rs.take k).reverse.take m = ((rs.take k).drop (k - m)).reverse := by
    rw [List.take_reverse]; congr 2; simp; omega
  have h2 : rs.take k = rs.take (k - m) ++ (rs.take k).drop (k - m) := by
    conv_lhs => rw [← List.take_append_drop (k - m) (rs.take k)]
    rw [List.take_take, Nat.min_eq_left (by omega)]
  have h3 : offsetOf rs k = offsetOf rs (k - m) + (((rs.take k).drop (k - m)).map Record.len).sum := by
    conv_lhs => rw [offsetOf, h2]
    simp [offsetOf]
  unfold offsetOf at *
  rw [h1, List.map_reverse, List.sum_reverse]
  omega

/-! ## The loop -/

/-- A walk that answers has passed `m` records whose lengths sum to the goal. -/
theorem walk_ok {goal : Nat} : ∀ {rs : List Record} {acc k k' : Nat}, walk goal rs acc k = .ok k' →
    ∃ m, m ≤ rs.length ∧ k' = k + m ∧ acc + offsetOf rs m = goal
  | [], acc, k, k', h => by
    unfold walk at h
    split at h
    · cases h
    · split at h
      · cases h; exact ⟨0, by simp, by simp, by simpa⟩
      · cases h
  | r :: rs, acc, k, k', h => by
    unfold walk at h
    split at h
    · obtain ⟨m, hm, hk, ha⟩ := walk_ok h
      exact ⟨m + 1, by simpa using hm, by omega, by simp; omega⟩
    · split at h
      · cases h; exact ⟨0, by simp, by simp, by simpa⟩
      · cases h

/-- A walk answers where some number of records sums to the goal. -/
theorem walk_of_offset {goal : Nat} : ∀ {rs : List Record} {acc k m : Nat}, m ≤ rs.length →
    acc + offsetOf rs m = goal → walk goal rs acc k = .ok (k + m)
  | [], acc, k, m, hm, h => by
    have : m = 0 := by simpa using hm
    subst this
    have : acc = goal := by simpa using h
    simp [walk, this]
  | r :: rs, acc, k, 0, _, h => by
    have : acc = goal := by simpa using h
    simp [walk, this]
  | r :: rs, acc, k, m + 1, hm, h => by
    have hr := record_len_pos r
    simp only [offsetOf_cons_succ] at h
    have hlt : acc < goal := by omega
    have := walk_of_offset (goal := goal) (rs := rs) (acc := acc + r.len) (k := k + 1) (m := m)
      (by simpa using hm) (by omega)
    simp only [walk, hlt, if_true, this]
    congr 1; omega

/-- A walk overruns only when all its records sum to less than the goal. -/
theorem walk_overrun {goal : Nat} : ∀ {rs : List Record} {acc k : Nat}, walk goal rs acc k = .error .overrun →
    acc + offsetOf rs rs.length < goal
  | [], acc, k, h => by
    unfold walk at h
    split at h
    · simpa
    · split at h <;> cases h
  | r :: rs, acc, k, h => by
    unfold walk at h
    split at h
    · have := walk_overrun h
      simp; omega
    · split at h <;> cases h

/-- A walk is misaligned only when the goal is reached by the records and no number of them sums to it. -/
theorem walk_misaligned {goal : Nat} : ∀ {rs : List Record} {acc k : Nat},
    walk goal rs acc k = .error .misaligned → goal ≤ acc + offsetOf rs rs.length
  | [], acc, k, h => by
    unfold walk at h
    split at h
    · cases h
    · simp; omega
  | r :: rs, acc, k, h => by
    unfold walk at h
    split at h
    · have := walk_misaligned h
      simp; omega
    · omega

/-! ## The landing -/

/-- R198: an answered landing is a record boundary at the target. -/
theorem landing_ok {store : List Record} {i : Nat} {inc : Int} {j : Nat} (hi : i < store.length)
    (h : landing store i inc = .ok j) :
    j ≤ store.length ∧ (offsetOf store j : Int) = offsetOf store (i + 1) + inc := by
  unfold landing at h
  split at h
  · rename_i hinc
    split at h
    · rename_i k hk
      cases h
      obtain ⟨m, hm, rfl, ha⟩ := walk_ok hk
      have := offsetOf_drop store (i + 1) m
      simp only [List.length_drop] at hm
      constructor
      · omega
      · simp only [Nat.zero_add] at ha ⊢; omega
    · cases h
  · rename_i hinc
    split at h
    · rename_i k hk
      cases h
      obtain ⟨m, hm, rfl, ha⟩ := walk_ok hk
      have hm' : m ≤ i + 1 := by simp at hm; omega
      have := offsetOf_reverse store (k := i + 1) (m := m) (by omega) hm'
      simp only [Nat.zero_add] at ha ⊢
      constructor
      · omega
      · omega
    · cases h

/-- R198: where a record boundary is at the target, the landing is it. -/
theorem landing_of_target {store : List Record} {i : Nat} {inc : Int} {j : Nat} (hi : i < store.length)
    (hj : j ≤ store.length) (h : (offsetOf store j : Int) = offsetOf store (i + 1) + inc) :
    landing store i inc = .ok j := by
  unfold landing
  split
  · rename_i hinc
    have hle : i + 1 ≤ j := by
      by_contra hc
      have := offsetOf_lt (rs := store) (j := j) (k := i + 1) (by omega) (by omega)
      omega
    have hd := offsetOf_drop store (i + 1) (j - (i + 1))
    rw [Nat.add_sub_cancel' hle] at hd
    rw [walk_of_offset (m := j - (i + 1)) (by simp; omega) (by omega)]
    simp; omega
  · rename_i hinc
    have hle : j ≤ i + 1 := by
      by_contra hc
      have := offsetOf_lt (rs := store) (j := i + 1) (k := j) (by omega) hj
      omega
    have hd := offsetOf_reverse store (k := i + 1) (m := i + 1 - j) (by omega) (by omega)
    have hsub : i + 1 - (i + 1 - j) = j := by omega
    rw [hsub] at hd
    rw [walk_of_offset (m := i + 1 - j) (by simp; omega) (by omega)]
    simp; omega

/-- R199: an overrun means that the target lies outside the program. -/
theorem landing_overrun {store : List Record} {i : Nat} {inc : Int} (hi : i < store.length)
    (h : landing store i inc = .error .overrun) :
    offsetOf store (i + 1) + inc < 0 ∨ (offsetOf store store.length : Int) < offsetOf store (i + 1) + inc := by
  unfold landing at h
  split at h
  · have hd := offsetOf_drop store (i + 1) (store.length - (i + 1))
    rw [Nat.add_sub_cancel' hi] at hd
    split at h
    · cases h
    · rename_i e hk
      cases h
      have := walk_overrun hk
      simp only [List.length_drop] at this
      right; omega
  · have hr := offsetOf_reverse store (k := i + 1) (m := i + 1) (by omega) (by omega)
    simp only [Nat.sub_self, offsetOf_zero] at hr
    have hl : (store.take (i + 1)).reverse.length = i + 1 := by simp; omega
    split at h
    · cases h
    · rename_i e hk
      cases h
      have := walk_overrun hk
      rw [hl] at this
      left; omega

/-- R199: a misaligned target lies inside the program. -/
theorem landing_misaligned {store : List Record} {i : Nat} {inc : Int} (hi : i < store.length)
    (h : landing store i inc = .error .misaligned) :
    0 ≤ offsetOf store (i + 1) + inc ∧ offsetOf store (i + 1) + inc ≤ (offsetOf store store.length : Int) := by
  have hle := offsetOf_le (rs := store) (j := i + 1) hi (Nat.le_refl _)
  unfold landing at h
  split at h
  · have hd := offsetOf_drop store (i + 1) (store.length - (i + 1))
    rw [Nat.add_sub_cancel' hi] at hd
    split at h
    · cases h
    · rename_i e hk
      cases h
      have := walk_misaligned hk
      simp only [List.length_drop] at this
      omega
  · have hr := offsetOf_reverse store (k := i + 1) (m := i + 1) (by omega) (by omega)
    simp only [Nat.sub_self, offsetOf_zero] at hr
    have hl : (store.take (i + 1)).reverse.length = i + 1 := by simp; omega
    split at h
    · cases h
    · rename_i e hk
      cases h
      have := walk_misaligned hk
      rw [hl] at this
      omega

/-- The landing depends on the records' lengths alone, so patching alignment clocks does not move it. -/
theorem offsetOf_modify (store : List Record) (k a j : Nat) :
    offsetOf (store.modify k (fun r => r.withAlign a)) j = offsetOf store j := by
  induction store generalizing k j with
  | nil => simp
  | cons r rs ih =>
    cases k with
    | zero => cases j <;> simp
    | succ k => cases j <;> simp [ih]

end Sys2Proof.Machine
end

