-- ==== Sys2Proof/Laws/Memory.lean ====
section
/-! SUPPORT. The memory laws: a read after a write to the same place, a write leaves every other place alone,
and every write keeps the canonical form. -/

namespace Sys2Proof.Machine

/-- A write leaves every other address as it was, whatever the cell list. -/
theorem cellsRead_write_other {a b : Nat} (h : b ≠ a) (v : Byte) (cs : List Host.Cell) :
    cellsRead b (cellsWrite a v cs) = cellsRead b cs := by
  have h' : ¬ a = b := fun e => h e.symm
  induction cs with
  | nil => by_cases hv : v = unlistedByte <;> simp [cellsWrite, cellsRead, hv, h']
  | cons c cs ih =>
    unfold cellsWrite
    by_cases hlt : a < c.1
    · by_cases hv : v = unlistedByte <;> simp [hlt, hv, cellsRead, h']
    · by_cases heq : c.1 = a
      · have hc : ¬ c.1 = b := by omega
        by_cases hv : v = unlistedByte <;> simp [heq, hv, cellsRead, h']
      · simp [hlt, heq, cellsRead, ih]

/-- Below the bound of a canonical cell list every address is unlisted. -/
theorem cellsRead_below {lo a : Nat} (h : a < lo) : ∀ cs, cellsWf lo cs = true → cellsRead a cs = unlistedByte
  | [], _ => rfl
  | c :: cs, hw => by
    simp only [cellsWf, Bool.and_eq_true, decide_eq_true_eq] at hw
    have hne : ¬ c.1 = a := by omega
    simp only [cellsRead, hne, if_false]
    exact cellsRead_below (by omega) cs hw.2

/-- In a canonical cell list a written address reads what was written. -/
theorem cellsRead_write_same {lo : Nat} (a : Nat) (v : Byte) :
    ∀ cs, cellsWf lo cs = true → cellsRead a (cellsWrite a v cs) = v
  | [], _ => by by_cases hv : v = unlistedByte <;> simp [cellsWrite, cellsRead, hv]
  | c :: cs, hw => by
    have hw' := hw
    simp only [cellsWf, Bool.and_eq_true, decide_eq_true_eq] at hw
    unfold cellsWrite
    by_cases hlt : a < c.1
    · have hne : ¬ c.1 = a := by omega
      by_cases hv : v = unlistedByte
      · have := cellsRead_below (lo := c.1 + 1) (a := a) (by omega) cs hw.2
        simp [hlt, hv, cellsRead, hne, this]
      · simp [hlt, hv, cellsRead]
    · by_cases heq : c.1 = a
      · by_cases hv : v = unlistedByte
        · have := cellsRead_below (lo := c.1 + 1) (a := a) (by omega) cs hw.2
          simp [heq, hv, this]
        · simp [heq, hv, cellsRead]
      · have := cellsRead_write_same (lo := c.1 + 1) a v cs hw.2
        simp [hlt, heq, cellsRead, this]

/-- A canonical cell list is canonical above every smaller bound. -/
theorem cellsWf_mono {lo hi : Nat} (h : lo ≤ hi) : ∀ cs, cellsWf hi cs = true → cellsWf lo cs = true
  | [], _ => rfl
  | c :: cs, hw => by
    simp only [cellsWf, Bool.and_eq_true, decide_eq_true_eq] at *
    exact ⟨⟨⟨by omega, hw.1.1.2⟩, hw.1.2⟩, hw.2⟩

/-- A write below 65536 keeps the canonical form. -/
theorem cellsWf_write (a : Nat) (ha : a < Config.memSize) (v : Byte) :
    ∀ (lo : Nat) cs, lo ≤ a → cellsWf lo cs = true → cellsWf lo (cellsWrite a v cs) = true
  | lo, [], hlo, _ => by
    by_cases hv : v = unlistedByte <;> simp [cellsWrite, cellsWf, hv, hlo, ha]
  | lo, c :: cs, hlo, hw => by
    have hw' := hw
    simp only [cellsWf, Bool.and_eq_true, decide_eq_true_eq] at hw
    obtain ⟨⟨⟨h1, h2⟩, h3⟩, h4⟩ := hw
    unfold cellsWrite
    by_cases hlt : a < c.1
    · by_cases hv : v = unlistedByte
      · simp only [hlt, hv, if_true]; exact hw'
      · have : a + 1 ≤ c.1 := hlt
        simp only [hlt, hv, cellsWf, if_true, if_false, Bool.and_eq_true, decide_eq_true_eq]
        exact ⟨⟨⟨hlo, ha⟩, by simp [hv]⟩, ⟨⟨this, h2⟩, h3⟩, h4⟩
    · by_cases heq : c.1 = a
      · by_cases hv : v = unlistedByte
        · simp only [heq, hv, if_true, Nat.lt_irrefl, if_false]
          exact cellsWf_mono (Nat.le_succ_of_le h1) cs h4
        · subst heq
          simp [hv, cellsWf, h1, h2, h4]
      · simp only [hlt, heq, if_false, cellsWf, Bool.and_eq_true, decide_eq_true_eq]
        exact ⟨⟨⟨h1, h2⟩, h3⟩, cellsWf_write a ha v (c.1 + 1) cs (by omega) h4⟩

/-- R57: a write changes only the byte it names. -/
theorem read_write_other (m : Memory) (a b : Word) (v : Byte) (h : b ≠ a) :
    (m.write a v).read b = m.read b :=
  cellsRead_write_other (fun e => h (BitVec.eq_of_toNat_eq e)) v m.cells

/-- R58: a read returns the last write to that byte. -/
theorem read_write_same (m : Memory) (hw : m.wf = true) (a : Word) (v : Byte) : (m.write a v).read a = v :=
  cellsRead_write_same a.toNat v m.cells hw

/-- Every byte write keeps the canonical form. -/
theorem write_wf (m : Memory) (hw : m.wf = true) (a : Word) (v : Byte) : (m.write a v).wf = true :=
  cellsWf_write a.toNat a.isLt v 0 m.cells (Nat.zero_le _) hw

/-- Every operand write keeps the canonical form. -/
theorem memWrite_wf (m : Memory) (hw : m.wf = true) (a : Word) (w : Width) (v : Word) :
    (memWrite m a w v).wf = true := by
  cases w
  · exact write_wf m hw a _
  · exact write_wf _ (write_wf m hw a _) _ _

/-- Reset memory is canonical. -/
theorem zero_wf : Memory.zero.wf = true := rfl

/-- At reset every byte reads 0x00 (R42). -/
theorem zero_read (a : Word) : Memory.zero.read a = 0 := rfl

/-- The two bytes of a word are different addresses, at 0xFFFF too. -/
theorem next_ne (a : Word) : a + 1 ≠ a := by
  intro h
  have := congrArg BitVec.toNat h
  simp [BitVec.toNat_add] at this
  have := a.isLt
  omega

/-- MemWrite changes no byte but the stored ones (R52). -/
theorem memWrite_frame (m : Memory) (a : Word) (w : Width) (v : Word) (b : Word)
    (h : b ∉ storedBytes a w) : (memWrite m a w v).read b = m.read b := by
  cases w
  · exact read_write_other m a b _ (by simpa [storedBytes] using h)
  · simp only [storedBytes, List.mem_cons, List.not_mem_nil, or_false, not_or] at h
    exact (read_write_other _ _ _ _ h.2).trans (read_write_other _ _ _ _ h.1)

/-- MemRead after MemWrite at the same address and width gives the value at that width (R51, R52). -/
theorem memRead_memWrite (m : Memory) (hw : m.wf = true) (a : Word) (w : Width) (v : Word) :
    memRead (memWrite m a w v) a w = immValue v w := by
  cases w
  · simp [memRead, memWrite, immValue, read_write_same m hw]
  · have h1 := write_wf m hw a (loByte v)
    simp only [memRead, memWrite, immValue]
    rw [read_write_same _ h1, read_write_other _ _ _ _ (fun e => next_ne a e.symm), read_write_same m hw]
    simp

end Sys2Proof.Machine
end

