-- ==== Sys2Proof/Laws/Operands.lean ====
section
/-! SUPPORT. What operand reads and writes do, said once: which operands can be read and written, and what a
write leaves behind. -/

namespace Sys2Proof.Machine

/-- The operands a write has a meaning for (R126). -/
def writable : Operand → Bool
  | .reg _ _ | .sreg _ | .mem _ _ _ | .abs _ _ => true
  | .imm _ _ | .jmp _ _ | .none => false

/-- R125: every operand but NONE has a value. -/
theorem readOp_some {op : Operand} (s : State) (h : op ≠ .none) : ∃ v, readOp op s = some v := by
  cases op with
  | reg c w => cases w <;> exact ⟨_, rfl⟩
  | none => exact absurd rfl h
  | _ => exact ⟨_, rfl⟩

/-- R126: every writable operand can be written. -/
theorem writeOp_some {op : Operand} (v : Word) (s : State) (h : writable op = true) :
    ∃ t, writeOp op v s = some t := by
  cases op with
  | reg c w => cases w <;> exact ⟨_, rfl⟩
  | sreg c => exact ⟨_, rfl⟩
  | mem b d w => exact ⟨_, rfl⟩
  | abs a w => exact ⟨_, rfl⟩
  | imm v w => cases h
  | jmp i n => cases h
  | none => cases h

@[simp] theorem immValue_immValue (v : Word) (w : Width) : immValue (immValue v w) w = immValue v w := by
  cases w <;> simp [immValue]

/-- R125: a value read at width W fits W bits. -/
theorem readOp_fits {op : Operand} {s : State} {v : Word} {w : Width} (h : readOp op s = some v)
    (hw : operandWidth op = some w) : immValue v w = v := by
  cases op with
  | reg c w' => cases w' <;> cases hw <;> cases h <;> simp [immValue]
  | sreg c => cases hw; rfl
  | mem b d w' => cases hw; cases h; cases w <;> simp [immValue, memRead]
  | abs a w' => cases hw; cases h; cases w <;> simp [immValue, memRead]
  | imm x w' => cases hw; cases h; simp
  | jmp i n => cases hw
  | none => cases hw

/-- A value that fits W bits is below 2^W. -/
theorem fits_lt {v : Word} {w : Width} (h : immValue v w = v) : v.toNat < 2 ^ w.bits := by
  cases w
  · rw [← h]; exact zext8_toNat_lt _
  · exact v.isLt

/-- A number below 2^W, as a word, fits W bits. -/
theorem fits_ofNat {n : Nat} {w : Width} (h : n < 2 ^ w.bits) :
    immValue (BitVec.ofNat 16 n) w = BitVec.ofNat 16 n := by
  cases w
  · refine zext8_loByte_of_lt ?_
    have : n < 256 := h
    simp only [BitVec.toNat_ofNat]
    omega
  · rfl

/-- What a write of `v` to `op` leaves behind. -/
structure Written (op : Operand) (v : Word) (s t : State) : Prop where
  /-- Only registers, segment registers and memory can change. -/
  other : t = { s with regs := t.regs, segs := t.segs, mem := t.mem }
  only : writesOnly op s t
  wf : s.mem.wf = true → t.mem.wf = true
  holds : s.mem.wf = true → ∀ w, operandWidth op = some w → immValue v w = v → holds op v s t

/-- R126, R24, R52: a write changes its destination and nothing else, and the destination then holds the
value. -/
theorem writeOp_written {op : Operand} {v : Word} {s t : State} (h : writeOp op v s = some t) :
    Written op v s t := by
  cases op with
  | reg c w =>
    cases w <;> cases h
    · refine ⟨rfl, ⟨fun k hk => ?_, fun _ _ => rfl, fun _ _ => rfl⟩, id, fun _ w hw hv => ?_⟩
      · exact get16_set8_other _ _ _ _ (by simpa [destRegs] using hk)
      · cases hw
        exact ⟨by simpa [immValue] using hv, fun k hk => get8_set8_other _ _ _ _ hk⟩
    · refine ⟨rfl, ⟨fun k hk => ?_, fun _ _ => rfl, fun _ _ => rfl⟩, id, fun _ w hw hv => ?_⟩
      · have : ¬ k = c := by simpa [destRegs] using hk
        simp [this]
      · simp [holds]
  | sreg c =>
    cases h
    refine ⟨rfl, ⟨fun _ _ => rfl, fun k hk => ?_, fun _ _ => rfl⟩, id, fun _ w hw hv => by simp [holds]⟩
    have : ¬ k = c := by simpa [destSegs] using hk
    simp [this]
  | mem b d w =>
    cases h
    refine ⟨rfl, ⟨fun _ _ => rfl, fun _ _ => rfl, fun a ha => memWrite_frame _ _ _ _ _ ha⟩,
      fun hw => memWrite_wf _ hw _ _ _, fun hm w' hw' hv => ?_⟩
    cases hw'
    exact (memRead_memWrite _ hm _ _ _).trans hv
  | abs a w =>
    cases h
    refine ⟨rfl, ⟨fun _ _ => rfl, fun _ _ => rfl, fun a ha => memWrite_frame _ _ _ _ _ ha⟩,
      fun hw => memWrite_wf _ hw _ _ _, fun hm w' hw' hv => ?_⟩
    cases hw'
    exact (memRead_memWrite _ hm _ _ _).trans hv
  | imm v w => cases h
  | jmp i n => cases h
  | none => cases h

/-- A writable operand is not NONE. -/
theorem ne_none_of_writable {op : Operand} (h : writable op = true) : op ≠ .none := by
  intro e; subst e; cases h

/-- R92: the register-or-memory operand is a register, an absolute address or an effective address. -/
theorem rmOperand_writable (rm : Rm) (w : Width) : writable (rmOperand rm w) = true := by
  cases rm <;> rfl

/-- The jumps are the records of the short-jump shape (R93). -/
theorem form_shortJump {i : Instr} (h : i.action ≠ .jump) : (form i).shape ≠ .shortJump := by
  cases i <;> first
    | exact absurd rfl h
    | (intro e; cases e)

/-- R126: the destination of every form but a short jump is writable. -/
theorem Form.dst_writable {f : Form} (h : f.shape ≠ .shortJump) : writable f.dst = true := by
  cases f with
  | shortJump inc => exact absurd rfl h
  | accumulatorAbsolute isSource w addr => cases isSource <;> rfl
  | segmentRm d sr rm => cases d; exacts [rmOperand_writable rm _, rfl]
  | registerRm d w reg rm => cases d; exacts [rmOperand_writable rm _, rfl]
  | immediateRm w data rm => exact rmOperand_writable rm w
  | immediateRegister w data reg => rfl

/-- R94: the source of every form but a short jump is not NONE. -/
theorem Form.src_ne_none {f : Form} (h : f.shape ≠ .shortJump) : f.src ≠ .none := by
  cases f with
  | shortJump inc => exact absurd rfl h
  | accumulatorAbsolute isSource w addr => cases isSource <;> simp [Form.src]
  | segmentRm d sr rm => cases d; exacts [by simp [Form.src], ne_none_of_writable (rmOperand_writable rm _)]
  | registerRm d w reg rm => cases d; exacts [by simp [Form.src], ne_none_of_writable (rmOperand_writable rm _)]
  | immediateRm w data rm => simp [Form.src]
  | immediateRegister w data reg => simp [Form.src]

/-- R94: the source of every record but a jump's is a readable operand. -/
theorem src_ne_none {i : Instr} (h : i.action ≠ .jump) : src i ≠ .none := Form.src_ne_none (form_shortJump h)

/-- R126: the destination of every record but a jump's is writable. -/
theorem dst_writable {i : Instr} (h : i.action ≠ .jump) : writable (dst i) = true :=
  Form.dst_writable (form_shortJump h)

/-- A register-or-memory operand is no segment register (R92). -/
theorem destSegs_rmOperand (rm : Rm) (w : Width) : destSegs (rmOperand rm w) = [] := by
  cases rm with
  | reg c => cases w <;> rfl
  | direct a => rfl
  | mem b d => rfl

/-- R94: only MOV_RM_SR has a segment register as its destination. -/
theorem of_mem_destSegs {i : Instr} {c : BitVec 2} (h : c ∈ destSegs (dst i)) : ∃ rm, i = .movRmSr c rm := by
  have no : ∀ (rm : Rm) (w : Width), c ∉ destSegs (rmOperand rm w) := by simp [destSegs_rmOperand]
  cases i with
  | movRmSr sr rm => exact ⟨rm, by rw [List.mem_singleton.mp h]⟩
  | movRmR d w reg rm | addRmR d w reg rm | subRmR d w reg rm | cmpRmR d w reg rm =>
    cases d
    · exact absurd h (no _ _)
    · cases w <;> cases h
  | movSrRm _ _ | movImmRm _ _ | addImmRm _ _ | subImmRm _ _ | cmpImmRm _ _ => exact absurd h (no _ _)
  | movAccMem w _ => cases w <;> cases h
  | movImmR _ imm | addImmAcc imm | subImmAcc imm | cmpImmAcc imm => cases imm <;> cases h
  | _ => cases h

end Sys2Proof.Machine
end

