-- ==== Sys2Proof/Laws/Exec.lean ====
section
/-! SUPPORT. What a family's step does, said once, and from it what any instruction does: the inversion lemmas
the invariants are proved from. -/

namespace Sys2Proof.Machine

/-- The parts of the state an instruction's own writes never touch; the end of the step changes some of them
(R121). -/
structure Framed (s u : State) : Prop where
  idx : u.idx = s.idx
  ip : u.ipOffset = s.ipOffset
  clocks : u.clocks = s.clocks
  store : u.store = s.store
  runState : u.runState = s.runState
  fault : u.fault = s.fault
  host : u.host = s.host

theorem Framed.refl (s : State) : Framed s s := ⟨rfl, rfl, rfl, rfl, rfl, rfl, rfl⟩

theorem Framed.recordClocks {s u : State} (h : Framed s u) : u.recordClocks = s.recordClocks := by
  unfold State.recordClocks State.current; rw [h.store, h.idx]

theorem Written.framed {op : Operand} {v : Word} {s t : State} (h : Written op v s t) : Framed s t := by
  rw [h.other]; exact ⟨rfl, rfl, rfl, rfl, rfl, rfl, rfl⟩

theorem Written.flags {op : Operand} {v : Word} {s t : State} (h : Written op v s t) : t.flags = s.flags := by
  rw [h.other]

/-- The end of a step after framed writes is what R121 says of it. -/
theorem retire_retired (i : Instr) {s u : State} (next : Nat) (h : Framed s u) :
    retired i next s (retire i s next u) := by
  refine ⟨rfl, ?_, ?_, ?_, h.runState, h.fault, h.host⟩
  · simp [h.store]
  · simp [h.clocks, h.recordClocks]
  · simp [h.store, h.idx]

/-! ## Moves -/

theorem moveStep_of {i : Instr} {s t : State} {v : Word} (hr : readOp (src i) s = some v)
    (hw : writeOp (dst i) v s = some t) : moveStep i s = .next (retire i s (s.idx + 1) t) := by
  simp [moveStep, hr, hw]

/-- Everything a move's step can do when it answers a next state. -/
theorem moveStep_next {i : Instr} {s t : State} (h : moveStep i s = .next t) :
    ∃ v u, readOp (src i) s = some v ∧ writeOp (dst i) v s = some u ∧ t = retire i s (s.idx + 1) u := by
  unfold moveStep at h
  split at h
  · cases h
  · rename_i v hv
    split at h
    · cases h
    · rename_i u hu
      cases h
      exact ⟨v, u, hv, hu, rfl⟩

/-- A move always completes (R140). -/
theorem moveStep_completes {i : Instr} (s : State) (h : i.action ≠ .jump) :
    ∃ v u, readOp (src i) s = some v ∧ writeOp (dst i) v s = some u ∧
      moveStep i s = .next (retire i s (s.idx + 1) u) := by
  obtain ⟨v, hv⟩ := readOp_some s (src_ne_none h)
  obtain ⟨u, hu⟩ := writeOp_some v s (dst_writable h)
  exact ⟨v, u, hv, hu, moveStep_of hv hu⟩

/-! ## Arithmetic -/

/-- The state after the write-back of an arithmetic step, before its flags. -/
theorem arithStep_next {p : ByteArithPolicy} {op : AluOp} {wb : Bool} {w : Width} {i : Instr} {s t : State}
    (h : arithStep p op wb w i s = .next t) :
    ∃ old v u, readOp (dst i) s = some old ∧ readOp (src i) s = some v ∧
      (if wb then writeOp (dst i) (alu op old v w).1 s else some s) = some u ∧
      t = retire i s (s.idx + 1) { u with flags := u.flags.writeArith (alu op old v w).2 } := by
  unfold arithStep at h
  split at h
  · cases h
  · split at h
    · rename_i old v hold hv
      simp only at h
      split at h
      · cases h
      · rename_i u hu
        cases h
        exact ⟨old, v, u, hold, hv, hu, rfl⟩
    · cases h

/-- An arithmetic step at the default policy always completes (R160 to R162, R166). -/
theorem arithStep_completes (op : AluOp) (wb : Bool) (w : Width) {i : Instr} (s : State) (h : i.action ≠ .jump) :
    ∃ old v u, readOp (dst i) s = some old ∧ readOp (src i) s = some v ∧
      (if wb then writeOp (dst i) (alu op old v w).1 s else some s) = some u ∧
      arithStep Config.byteArithPolicy op wb w i s =
        .next (retire i s (s.idx + 1) { u with flags := u.flags.writeArith (alu op old v w).2 }) := by
  obtain ⟨v, hv⟩ := readOp_some s (src_ne_none h)
  obtain ⟨old, hold⟩ := readOp_some s (ne_none_of_writable (dst_writable h))
  have hu : ∃ u, (if wb then writeOp (dst i) (alu op old v w).1 s else some s) = some u := by
    cases wb
    · exact ⟨s, rfl⟩
    · exact writeOp_some _ s (dst_writable h)
  obtain ⟨u, hu⟩ := hu
  refine ⟨old, v, u, hold, hv, hu, ?_⟩
  simp [arithStep, byteRefused, Config.byteArithPolicy, hv, hold, hu]

/-- The result of the ALU fits its width. -/
theorem alu_fits (op : AluOp) (old v : Word) (w : Width) : immValue (alu op old v w).1 w = (alu op old v w).1 := by
  cases op <;> exact fits_ofNat (Nat.mod_lt _ (by cases w <;> decide))

/-! ## Jumps -/

/-- Everything a jump's step can do. -/
theorem jumpStep_next {i : Instr} {inc : Byte} {taken : Bool} {s u t : State}
    (h : jumpStep i inc taken s u = .next t) :
    ∃ next, t = retire i s next u ∧
      ((taken = false ∧ next = u.idx + 1) ∨ (taken = true ∧ landing u.store u.idx inc.toInt = .ok next)) := by
  unfold jumpStep at h
  split at h
  · split at h
    · rename_i j hj; cases h; exact ⟨j, rfl, .inr ⟨by assumption, hj⟩⟩
    · cases h
  · rename_i htk; cases h; exact ⟨u.idx + 1, rfl, .inl ⟨by simpa using htk, rfl⟩⟩

theorem decCX_framed (s : State) : Framed s (decCX s) := ⟨rfl, rfl, rfl, rfl, rfl, rfl, rfl⟩

/-! ## Any instruction -/

/-- Everything an instruction can do to a state when it answers a next state: framed writes that keep memory
canonical and TF, IF and DF, then the end of the step at a pointer within the store. -/
structure Effect (i : Instr) (s t : State) : Prop where
  eq : ∃ next u, t = retire i s next u ∧ Framed s u ∧ (s.idx < s.store.length → next ≤ s.store.length)
  wf : s.mem.wf = true → t.mem.wf = true
  control : controlFlagsKept s.flags t.flags

theorem moveStep_effect {i : Instr} {s t : State} (h : moveStep i s = .next t) : Effect i s t := by
  obtain ⟨v, u, _, hu, rfl⟩ := moveStep_next h
  have hW := writeOp_written hu
  exact ⟨⟨_, u, rfl, hW.framed, fun h => h⟩, hW.wf, by simp [controlFlagsKept, hW.flags]⟩

theorem arithStep_effect {p : ByteArithPolicy} {op : AluOp} {wb : Bool} {w : Width} {i : Instr} {s t : State}
    (h : arithStep p op wb w i s = .next t) : Effect i s t := by
  obtain ⟨old, v, u, _, _, hu, rfl⟩ := arithStep_next h
  have hF : Framed s u ∧ (s.mem.wf = true → u.mem.wf = true) ∧ u.flags = s.flags := by
    cases wb
    · cases hu; exact ⟨Framed.refl s, id, rfl⟩
    · have hW := writeOp_written hu
      exact ⟨hW.framed, hW.wf, hW.flags⟩
  obtain ⟨hF, hwf, hfl⟩ := hF
  exact ⟨⟨_, { u with flags := _ }, rfl,
    ⟨hF.idx, hF.ip, hF.clocks, hF.store, hF.runState, hF.fault, hF.host⟩, fun h => h⟩, hwf,
    by simp [controlFlagsKept, hfl]⟩

theorem addStep_effect {w : Width} {i : Instr} {s t : State} (h : addStep w i s = .next t) : Effect i s t :=
  arithStep_effect (p := Config.byteArithPolicy) (op := .add) (wb := true) h

theorem subStep_effect {w : Width} {i : Instr} {s t : State} (h : subStep w i s = .next t) : Effect i s t :=
  arithStep_effect (p := Config.byteArithPolicy) (op := .sub) (wb := true) h

theorem cmpStep_effect {w : Width} {i : Instr} {s t : State} (h : cmpStep w i s = .next t) : Effect i s t :=
  arithStep_effect (p := Config.byteArithPolicy) (op := .sub) (wb := false) h

theorem jumpStep_effect {i : Instr} {inc : Byte} {taken : Bool} {s u t : State} (hF : Framed s u)
    (hm : u.mem = s.mem) (hf : u.flags = s.flags) (h : jumpStep i inc taken s u = .next t) : Effect i s t := by
  obtain ⟨next, rfl, hn⟩ := jumpStep_next h
  refine ⟨⟨next, u, rfl, hF, fun hlt => ?_⟩, by simp [hm], by simp [controlFlagsKept, hf]⟩
  rcases hn with ⟨_, rfl⟩ | ⟨_, hj⟩
  · rw [hF.idx]; exact hlt
  · rw [hF.store, hF.idx] at hj
    exact (landing_ok hlt hj).1

/-- Every instruction of the catalog has an effect of this form. -/
theorem exec_effect {i : Instr} {s t : State} (h : exec i s = .next t) : Effect i s t := by
  cases i with
  | movRmR _ _ _ _ | movImmRm _ _ | movImmR _ _ | movAccMem _ _ | movMemAcc _ _ | movRmSr _ _ | movSrRm _ _ =>
    exact moveStep_effect h
  | addRmR _ _ _ _ | addImmRm _ _ | addImmAcc _ => exact addStep_effect h
  | subRmR _ _ _ _ | subImmRm _ _ | subImmAcc _ => exact subStep_effect h
  | cmpRmR _ _ _ _ | cmpImmRm _ _ | cmpImmAcc _ => exact cmpStep_effect h
  | loopnz _ | loopz _ | loop _ => exact jumpStep_effect (decCX_framed s) rfl rfl h
  | jo _ | jno _ | jb _ | jnb _ | je _ | jne _ | jbe _ | ja _ | js _ | jns _ | jp _ | jnp _ | jl _ | jnl _
  | jle _ | jg _ | jcxz _ => exact jumpStep_effect (Framed.refl s) rfl rfl h

end Sys2Proof.Machine
end

