-- ==== Sys2Proof/Laws/Family.lean ====
section
/-! SUPPORT. The effect of each family's shared step as Safety.lean words it, for any instruction that runs it:
one lemma per shared step. -/

namespace Sys2Proof.Machine

/-- A register-or-memory operand has the width it is read at (R92). -/
theorem operandWidth_rmOperand (rm : Rm) (w : Width) : operandWidth (rmOperand rm w) = some w := by
  cases rm <;> rfl

/-- R140: the shared move step moves its source's value to its destination. -/
theorem movesTo_of_moveStep {i : Instr} {s : State} (h : i.action ≠ .jump) (he : exec i s = moveStep i s)
    (w : Width) (hs : operandWidth (src i) = some w) (hd : operandWidth (dst i) = some w)
    (hm : s.mem.wf = true) : MovesTo i (src i) (dst i) s := by
  obtain ⟨v, u, hv, hu, hn⟩ := moveStep_completes s h
  have hW := writeOp_written hu
  exact ⟨_, v, he.trans hn, hv, hW.holds hm w hd (readOp_fits hv hs), hW.only, hW.flags,
    retire_retired i (s.idx + 1) hW.framed⟩

/-- R163: the ALU's addition sets the flags of the rule. -/
theorem addFlags_writeArith (w : Width) (old v : Word) (f : Flags) :
    addFlags w old v f (f.writeArith (aluAdd old v w).2) := by
  simp [addFlags, aluAdd, sumMod, resultFlags, controlFlagsKept, parity]

/-- R164: the ALU's difference of two W-bit values is the difference modulo 2^W. -/
theorem aluSub_result (w : Width) (old v : Word) (ho : old.toNat < 2 ^ w.bits) (hv : v.toNat < 2 ^ w.bits) :
    (aluSub old v w).1 = diffMod w old v := by
  simp only [aluSub, diffMod]
  congr 1
  cases w <;> simp [Width.bits] at * <;> omega

/-- R164: the ALU's subtraction sets the flags of the rule. -/
theorem subFlags_writeArith (w : Width) (old v : Word) (f : Flags) (ho : old.toNat < 2 ^ w.bits)
    (hv : v.toNat < 2 ^ w.bits) : subFlags w old v f (f.writeArith (aluSub old v w).2) := by
  have h := aluSub_result w old v ho hv
  unfold subFlags
  rw [← h]
  simp [aluSub, resultFlags, controlFlagsKept, parity]

/-- Writing flags after a framed write leaves a framed state. -/
theorem Framed.withFlags {s u : State} (h : Framed s u) (f : Flags) : Framed s { u with flags := f } :=
  ⟨h.idx, h.ip, h.clocks, h.store, h.runState, h.fault, h.host⟩

/-- R160: the shared step of the ADD descriptors. -/
theorem addsTo_of_addStep {i : Instr} {s : State} (h : i.action ≠ .jump) (w : Width)
    (he : exec i s = addStep w i s) (hd : operandWidth (dst i) = some w) (hm : s.mem.wf = true) :
    AddsTo i w (src i) (dst i) s := by
  obtain ⟨old, v, u, ho, hv, hu, hn⟩ := arithStep_completes .add true w s h
  have hW := writeOp_written hu
  refine ⟨_, old, v, he.trans hn, ho, hv, hW.holds hm w hd (alu_fits _ _ _ _), hW.only, ?_,
    retire_retired i (s.idx + 1) (hW.framed.withFlags _)⟩
  simp only [retire_flags, hW.flags]
  exact addFlags_writeArith w old v _

/-- R161: the shared step of the SUB descriptors. -/
theorem subtractsFrom_of_subStep {i : Instr} {s : State} (h : i.action ≠ .jump) (w : Width)
    (he : exec i s = subStep w i s) (hs : operandWidth (src i) = some w) (hd : operandWidth (dst i) = some w)
    (hm : s.mem.wf = true) : SubtractsFrom i w (src i) (dst i) s := by
  obtain ⟨old, v, u, ho, hv, hu, hn⟩ := arithStep_completes .sub true w s h
  have hW := writeOp_written hu
  have h1 := fits_lt (readOp_fits ho hd)
  have h2 := fits_lt (readOp_fits hv hs)
  refine ⟨_, old, v, he.trans hn, ho, hv, ?_, hW.only, ?_,
    retire_retired i (s.idx + 1) (hW.framed.withFlags _)⟩
  · rw [← aluSub_result w old v h1 h2]
    exact hW.holds hm w hd (alu_fits .sub _ _ _)
  · simp only [retire_flags, hW.flags]
    exact subFlags_writeArith w old v _ h1 h2

/-- R162: the shared step of the CMP descriptors. -/
theorem compares_of_cmpStep {i : Instr} {s : State} (h : i.action ≠ .jump) (w : Width)
    (he : exec i s = cmpStep w i s) (hs : operandWidth (src i) = some w) (hd : operandWidth (dst i) = some w) :
    Compares i w (src i) (dst i) s := by
  obtain ⟨old, v, u, ho, hv, hu, hn⟩ := arithStep_completes .sub false w s h
  cases hu
  have h1 := fits_lt (readOp_fits ho hd)
  have h2 := fits_lt (readOp_fits hv hs)
  refine ⟨_, old, v, he.trans hn, ho, hv, ?_, fun _ _ => rfl, fun _ _ => rfl, fun _ _ => rfl,
    retire_retired i (s.idx + 1) ((Framed.refl s).withFlags _)⟩
  simp only [retire_flags]
  exact subFlags_writeArith w old v _ h1 h2

/-- R190: a jump that falls through. -/
theorem jumpsTo_next {i : Instr} {inc : Byte} {taken : Bool} {s : State}
    (he : exec i s = jumpStep i inc taken s s) (ht : taken = false) :
    JumpsTo i [] (s.idx + 1) s (retire i s (s.idx + 1) s) := by
  subst ht
  exact ⟨by simp [he, jumpStep], fun _ _ => rfl, fun _ _ => rfl, fun _ _ => rfl, rfl,
    retire_retired i _ (Framed.refl s)⟩

/-- R190, R198: the shared step of the conditional jumps and JCXZ. -/
theorem jumpsWhen_of_jumpStep {i : Instr} {inc : Byte} {taken : Bool} {P : Prop} {s : State}
    (he : exec i s = jumpStep i inc taken s s) (hp : taken = true ↔ P) (hi : s.idx < s.store.length) :
    JumpsWhen i inc P s := by
  constructor
  · intro h
    have ht : taken = false := by cases taken <;> simp_all
    exact ⟨_, jumpsTo_next he ht⟩
  · intro h j hj ho
    have hl := landing_of_target hi hj ho
    exact ⟨retire i s j s, by simp [he, jumpStep, hp.mpr h, hl], fun _ _ => rfl, fun _ _ => rfl, fun _ _ => rfl,
      rfl, retire_retired i _ (Framed.refl s)⟩

/-- R196: DEC_CX writes CX and no other register. -/
theorem decCX_regsKept (s : State) : regsKeptBut [cxCode] s (decCX s) := by
  intro c hc
  have : ¬ c = cxCode := by simpa using hc
  simp [decCX, this]

/-- R190, R196, R198: the shared step of the loop family. -/
theorem loopsWhen_of_jumpStep {i : Instr} {inc : Byte} {taken : Bool} {P : Word → Prop} {s : State}
    (he : exec i s = jumpStep i inc taken s (decCX s)) (hp : taken = true ↔ P (s.regs.CX - 1))
    (hi : s.idx < s.store.length) : LoopsWhen i inc P s := by
  constructor
  · intro h
    have ht : taken = false := by cases taken <;> simp_all
    exact ⟨retire i s (s.idx + 1) (decCX s),
      ⟨by simp [he, jumpStep, ht], decCX_regsKept s, fun _ _ => rfl, fun _ _ => rfl, rfl,
        retire_retired i _ (decCX_framed s)⟩, rfl⟩
  · intro h j hj ho
    have hl := landing_of_target hi hj ho
    exact ⟨retire i s j (decCX s),
      ⟨by simp [he, jumpStep, hp.mpr h, hl], decCX_regsKept s, fun _ _ => rfl, fun _ _ => rfl, rfl,
        retire_retired i _ (decCX_framed s)⟩, rfl⟩

/-! ## Any instruction, by action -/

/-- Every jump runs the shared jump step, on the state itself or after the loop family's CX write, with the
predicate of its row of R195 or R196. -/
theorem exec_jumpStep {i : Instr} {inc : Byte} (h : jumpIncrement i = some inc) (s : State) :
    ∃ taken u, exec i s = jumpStep i inc taken s u ∧ (taken = true ↔ jumpTaken s.flags s.regs.CX i) ∧
      (u = s ∨ u = decCX s) := by
  cases i with
  | loopnz _ | loopz _ | loop _ =>
    cases h
    exact ⟨_, _, rfl, by simp [jumpTaken, takenLoopnz, takenLoopz, takenLoop, cx_eq], .inr rfl⟩
  | jo _ | jno _ | jb _ | jnb _ | je _ | jne _ | jbe _ | ja _ | js _ | jns _ | jp _ | jnp _ | jl _ | jnl _
  | jle _ | jg _ | jcxz _ =>
    cases h
    exact ⟨_, _, rfl, by
      simp [jumpTaken, takenO, takenB, takenE, takenBE, takenS, takenP, takenL, takenLE, takenCxz, cx_eq],
      .inl rfl⟩
  | _ => cases h

/-- Every move runs the shared move step (R140). -/
theorem exec_moveStep {i : Instr} (h : i.action = .move) (s : State) : exec i s = moveStep i s := by
  cases i <;> first
    | rfl
    | cases h

theorem writesBack_iff {a : Action} {wb : Bool} (h : wb = (a != .compare)) : wb = true ↔ a ≠ .compare := by
  rw [h]; cases a <;> decide

/-- Every ADD, SUB and CMP runs the shared arithmetic step at the default policy; all but CMP write back (R160
to R162). -/
theorem exec_arithStep {i : Instr} (hm : i.action ≠ .move) (hj : i.action ≠ .jump) (s : State) :
    ∃ op wb w, exec i s = arithStep Config.byteArithPolicy op wb w i s ∧
      (wb = true ↔ i.action ≠ .compare) ∧ operandWidth (dst i) = some w := by
  cases i with
  | addRmR d w reg rm =>
    exact ⟨.add, true, w, rfl, writesBack_iff rfl, by cases d; exacts [operandWidth_rmOperand rm w, rfl]⟩
  | subRmR d w reg rm =>
    exact ⟨.sub, true, w, rfl, writesBack_iff rfl, by cases d; exacts [operandWidth_rmOperand rm w, rfl]⟩
  | cmpRmR d w reg rm =>
    exact ⟨.sub, false, w, rfl, writesBack_iff rfl, by cases d; exacts [operandWidth_rmOperand rm w, rfl]⟩
  | addImmRm rm imm => exact ⟨.add, true, imm.width, rfl, writesBack_iff rfl, operandWidth_rmOperand rm _⟩
  | subImmRm rm imm => exact ⟨.sub, true, imm.width, rfl, writesBack_iff rfl, operandWidth_rmOperand rm _⟩
  | cmpImmRm rm imm => exact ⟨.sub, false, imm.width, rfl, writesBack_iff rfl, operandWidth_rmOperand rm _⟩
  | addImmAcc imm => exact ⟨.add, true, imm.width, rfl, writesBack_iff rfl, rfl⟩
  | subImmAcc imm => exact ⟨.sub, true, imm.width, rfl, writesBack_iff rfl, rfl⟩
  | cmpImmAcc imm => exact ⟨.sub, false, imm.width, rfl, writesBack_iff rfl, rfl⟩
  | movRmR _ _ _ _ | movImmRm _ _ | movImmR _ _ | movAccMem _ _ | movMemAcc _ _ | movRmSr _ _ | movSrRm _ _ =>
    exact absurd rfl hm
  | _ => exact absurd rfl hj

/-- Every instruction but a jump completes, at the default policy (R140, R160 to R162, R166). -/
theorem exec_completes {i : Instr} (h : i.action ≠ .jump) (s : State) : ∃ t, exec i s = .next t := by
  by_cases hm : i.action = .move
  · obtain ⟨_, _, _, _, h'⟩ := moveStep_completes s h
    exact ⟨_, (exec_moveStep hm s).trans h'⟩
  · obtain ⟨op, wb, w, he, _⟩ := exec_arithStep hm h s
    obtain ⟨_, _, _, _, _, _, h'⟩ := arithStep_completes op wb w s h
    exact ⟨_, he.trans h'⟩

/-- An instruction with action jump has an increment (R37). -/
theorem jumpIncrement_of_action {i : Instr} (h : i.action = .jump) : ∃ inc, jumpIncrement i = some inc := by
  cases i <;> first
    | exact ⟨_, rfl⟩
    | cases h

/-- Everything a jump's step can fault with (R199). -/
theorem jumpStep_fault {i : Instr} {inc : Byte} {taken : Bool} {s u : State} {f : Fault}
    (h : jumpStep i inc taken s u = .fault f) :
    taken = true ∧ ∃ e, landing u.store u.idx inc.toInt = .error e ∧ f = walkFault i inc.toInt e := by
  unfold jumpStep at h
  split at h
  · split at h
    · cases h
    · rename_i e he; cases h; exact ⟨by assumption, e, he, rfl⟩
  · cases h

/-- The general registers an instruction may write: its destination's, CX for a jump of the loop family, none for
a comparison. -/
def writtenRegs (i : Instr) : List (BitVec 3) :=
  if i.action = .compare then [] else if i.action = .jump then [cxCode] else destRegs (dst i)

/-- The addresses an instruction may store to, from the registers before the step. -/
def writtenBytes (i : Instr) (r : Regs) : List Word :=
  if i.action = .compare ∨ i.action = .jump then [] else operandStores r (dst i)

/-- The state a jump's step starts its walk from is framed by the state before it. -/
theorem framed_of_jump {s u : State} (h : u = s ∨ u = decCX s) : Framed s u := by
  rcases h with rfl | rfl
  exacts [Framed.refl _, decCX_framed _]

/-- No jump's step is refused. -/
theorem jumpStep_not_refused {i : Instr} {inc : Byte} {taken : Bool} {s u : State} (x : Refusal) :
    jumpStep i inc taken s u ≠ .refused x := by
  intro h
  unfold jumpStep at h
  split at h
  · split at h <;> cases h
  · cases h

/-- The frame of every instruction that answers a next state. -/
theorem exec_writes {i : Instr} {s t : State} (h : exec i s = .next t) :
    segsKeptBut (destSegs (dst i)) s t ∧ memKeptBut (writtenBytes i s.regs) s t ∧
      regsKeptBut (writtenRegs i) s t := by
  unfold writtenBytes writtenRegs
  by_cases hj : i.action = .jump
  · obtain ⟨inc, hinc⟩ := jumpIncrement_of_action hj
    obtain ⟨taken, u, he, _, hu⟩ := exec_jumpStep hinc s
    rw [he] at h
    obtain ⟨next, rfl, _⟩ := jumpStep_next h
    simp only [hj]
    rcases hu with rfl | rfl
    · exact ⟨fun _ _ => rfl, fun _ _ => rfl, fun _ _ => rfl⟩
    · exact ⟨fun _ _ => rfl, fun _ _ => rfl, decCX_regsKept s⟩
  · by_cases hm : i.action = .move
    · rw [exec_moveStep hm] at h
      obtain ⟨_, _, _, hu, rfl⟩ := moveStep_next h
      have := (writeOp_written hu).only
      simp only [hm]
      exact ⟨this.2.1, this.2.2, this.1⟩
    · obtain ⟨op, wb, w, he, hwb, _⟩ := exec_arithStep hm hj s
      rw [he] at h
      obtain ⟨_, _, _, _, _, hu, rfl⟩ := arithStep_next h
      by_cases hc : i.action = .compare
      · have : wb = false := by cases wb <;> simp_all
        subst this
        cases hu
        simp only [hc]
        exact ⟨fun _ _ => rfl, fun _ _ => rfl, fun _ _ => rfl⟩
      · have : wb = true := hwb.mpr hc
        subst this
        have := (writeOp_written hu).only
        simp only [hc, hj, or_self, if_false]
        exact ⟨this.2.1, this.2.2, this.1⟩

end Sys2Proof.Machine
end

