-- ==== Sys2Proof/Laws/Layout.lean ====
section
/-! SUPPORT. The encoder's bytes are those of the layouts written out in Safety.lean, format by format (R72). -/

namespace Sys2Proof.Machine

/-- Byte 1 and the displacement bytes of an operand that has an encoding (R84, R91). -/
theorem rmLayout_eq (mid : BitVec 3) (rm : Rm) (hwf : rm.wf = true) :
    modRmByte rm.mod mid rm.code :: rmTail rm = rmLayout mid rm := by
  have h : ∀ (m : BitVec 2) (a b : BitVec 3), modRmByte m a b = m ++ a ++ b := by decide
  have hb : ∀ b : Base, b.code = baseBits b := by intro b; cases b <;> rfl
  rw [h]
  rcases rm with r | a | ⟨b, _ | v | v⟩
  · rfl
  · rfl
  · cases b <;> first | rfl | cases hwf
  · have hv := loByte_sext8 v
    cases b <;> exact congrArg (fun x => [_, x]) hv
  · cases b <;> rfl

/-- The immediate bytes of a form without an s field (R86). -/
theorem immLayout_eq (imm : Imm) :
    immTail imm = (immLayout imm).2 ∧ BitVec.ofBool imm.width.bit = (immLayout imm).1 := by
  rcases imm with v | v
  · exact ⟨congrArg (fun x => [x]) (loByte_zext8 v), rfl⟩
  · exact ⟨rfl, rfl⟩

/-- The immediate bytes of a form with an s field (R86). -/
theorem arithImmLayout_eq (imm : ArithImm) :
    arithImmTail imm = (arithImmLayout imm).2 ∧
    BitVec.ofBool imm.s ++ BitVec.ofBool imm.width.bit = (arithImmLayout imm).1 := by
  rcases imm with ⟨s, v⟩ | v | v
  · exact ⟨congrArg (fun x => [x]) (loByte_zext8 v), rfl⟩
  · exact ⟨rfl, (by decide : BitVec.ofBool false ++ BitVec.ofBool true = 0b01#2)⟩
  · exact ⟨congrArg (fun x => [x]) (loByte_sext8 v), (by decide : BitVec.ofBool true ++ BitVec.ofBool true = 0b11#2)⟩

/-- The bytes of format RM (R72). -/
theorem encode_layoutRM {i : Instr} {id : Nat} {m : String} {a : Action} {prim : Byte} {d : Bool} {w : Width}
    {reg : BitVec 3} {rm : Rm} (op : BitVec 6) (he : i.descriptor = rowRM id m a prim)
    (hf : i.fields = fieldsOfRM d w reg rm) (hwf : rm.wf = true)
    (h : ∀ d w : Bool, (prim &&& 0x3F) <<< 2 ||| lowBits d w = op ++ BitVec.ofBool d ++ BitVec.ofBool w) :
    encode i = layoutRM op d w reg rm := by
  rw [encode_RM he hf, rmLayout_eq _ _ hwf, h]
  cases w <;> rfl

/-- The bytes of format IMMRM with an s field (R72, R73). -/
theorem encode_layoutIMMRM {i : Instr} {id : Nat} {m : String} {a : Action} {rm : Rm} {imm : ArithImm}
    (sub : BitVec 3) (he : i.descriptor = rowIMMRM id m a (sub.setWidth 8)) (hf : i.fields = fieldsOfIMMRM rm imm)
    (hwf : rm.wf = true) :
    encode i = layoutIMMRM sub rm imm := by
  have h : ∀ s w : Bool, (0x80 ||| lowBits s w : Byte) = 0b100000#6 ++ (BitVec.ofBool s ++ BitVec.ofBool w) := by
    decide
  rw [encode_IMMRM he hf, h, (arithImmLayout_eq imm).1, (arithImmLayout_eq imm).2, layoutIMMRM,
    ← rmLayout_eq _ _ hwf]
  rfl

/-- The bytes of format ACCIMM (R72). -/
theorem encode_layoutACCIMM {i : Instr} {id : Nat} {m : String} {a : Action} {prim : Byte} {imm : Imm}
    (op : BitVec 7) (he : i.descriptor = rowACCIMM id m a prim) (hf : i.fields = fieldsOfImm imm)
    (h : ∀ w : Bool, accByte prim w = op ++ BitVec.ofBool w) : encode i = layoutACCIMM op imm := by
  rw [encode_ACCIMM he hf, h, (immLayout_eq imm).1, (immLayout_eq imm).2]
  rfl

end Sys2Proof.Machine
end

