-- ==== Sys2Proof/Laws/Load.lean ====
section
/-! SUPPORT. The decode pass (R80) said record by record. -/

namespace Sys2Proof.Machine

/-- The pass past the bytes of a record already decoded. -/
theorem decodeFrom_skip (p : Params) : ∀ (bs : List Byte) (k off n : Nat), k ≤ bs.length →
    decodeFrom p bs k off n = decodeFrom p (bs.drop k) 0 (off + k) n
  | bs, 0, off, n, _ => by simp
  | [], k + 1, off, n, h => by simp at h
  | b :: bs, k + 1, off, n, h => by
    have h' : k ≤ bs.length := by simpa using h
    rw [show decodeFrom p (b :: bs) (k + 1) off n = decodeFrom p bs k (off + 1) n from rfl]
    rw [decodeFrom_skip p bs k (off + 1) n h', show off + 1 + k = off + (k + 1) by omega]
    rfl

/-- A record decoded at an offset: its instruction is the decoder's, its clocks the estimator's (R99). -/
theorem decodeOne_ok {table : List TimingRow} {bs : List Byte} {off : Nat} {r : Record}
    (h : decodeOne table bs off = .ok r) :
    decodeInstr bs = .ok r.instr ∧ r.off = off ∧ clockDecode table r.instr off = .ok r := by
  unfold decodeOne at h
  split at h
  · cases h
  · rename_i i hi
    have key : r.instr = i ∧ r.off = off := by
      unfold clockDecode at h
      split at h
      · cases h
      · split at h
        · split at h <;> cases h
          exact ⟨rfl, rfl⟩
        · cases h; exact ⟨rfl, rfl⟩
    rw [key.1]
    exact ⟨hi, key.2, h⟩

/-- One turn of the pass where the record decodes within the buffer. -/
theorem decodeFrom_cons {p : Params} {b : Byte} {bs : List Byte} {off n : Nat} {r : Record}
    (hn : n ≠ p.maxInstructions) (hr : decodeOne p.timing (b :: bs) off = .ok r)
    (hl : r.len ≤ (b :: bs).length) :
    decodeFrom p (b :: bs) 0 off n =
      match decodeFrom p ((b :: bs).drop r.len) 0 (off + r.len) (n + 1) with
      | .ok rs => .ok (r :: rs)
      | .error f => .error f := by
  have hp := record_len_pos r
  have hdrop : bs.drop (r.len - 1) = (b :: bs).drop r.len := by
    conv_rhs => rw [show r.len = (r.len - 1) + 1 by omega]
    rfl
  have hskip := decodeFrom_skip p bs (r.len - 1) (off + 1) (n + 1) (by simp at hl; omega)
  rw [hdrop, show off + 1 + (r.len - 1) = off + r.len by omega] at hskip
  simp only [decodeFrom, hn, if_false, hr, hskip]
  cases decodeFrom p ((b :: bs).drop r.len) 0 (off + r.len) (n + 1) <;> rfl

/-- The pass stops at the record count. -/
theorem decodeFrom_full {p : Params} {b : Byte} {bs : List Byte} {off : Nat} :
    decodeFrom p (b :: bs) 0 off p.maxInstructions = .error (.capacity off) := by
  simp [decodeFrom]

/-- The pass stops at a record that does not decode. -/
theorem decodeFrom_error {p : Params} {b : Byte} {bs : List Byte} {off n : Nat} {f : Fault}
    (hn : n ≠ p.maxInstructions) (hr : decodeOne p.timing (b :: bs) off = .error f) :
    decodeFrom p (b :: bs) 0 off n = .error f := by
  simp [decodeFrom, hn, hr]

end Sys2Proof.Machine
end

