-- ==== Sys2Proof/Laws/Step.lean ====
section
/-! SUPPORT. What one step can do, said once: the start of a run, the execution of a record, or the halt at the
end of the store. -/

namespace Sys2Proof.Machine

/-- The loop's exit test as one record update (R120). -/
theorem haltIfDone_eq (t : State) :
    t.haltIfDone = { t with runState := if t.idx < t.store.length then t.runState else .halted } := by
  unfold State.haltIfDone; split <;> rfl

/-- Patching alignment clocks changes nothing that is fixed in the store (R245). -/
theorem map_fixed_modify (store : List Record) (k a : Nat) :
    (store.modify k (fun r => r.withAlign a)).map Record.fixed = store.map Record.fixed := by
  apply List.ext_getElem?
  intro j
  simp only [List.getElem?_map, List.getElem?_modify]
  split <;> cases store[j]? <;> simp

/-- Offsets depend on what is fixed in the store alone. -/
theorem offsetOf_congr {a b : List Record} (h : a.map Record.fixed = b.map Record.fixed) (j : Nat) :
    offsetOf a j = offsetOf b j := by
  have hl : ∀ l : List Record, l.map Record.len = (l.map Record.fixed).map Record.len := by
    intro l; induction l <;> simp
  unfold offsetOf
  rw [List.map_take, List.map_take, hl a, hl b, h]

/-- What every executed instruction keeps of the engine's control state, and where its byte pointer stands
(R33, R121, R245). -/
theorem exec_keeps {i : Instr} {s t : State} (h : exec i s = .next t) :
    t.host = s.host ∧ t.runState = s.runState ∧ t.fault = s.fault ∧
      t.store.map Record.fixed = s.store.map Record.fixed ∧ t.store.length = s.store.length ∧
      t.ipOffset = offsetOf t.store t.idx := by
  obtain ⟨next, u, rfl, hF, _⟩ := (exec_effect h).eq
  refine ⟨hF.host, hF.runState, hF.fault, ?_, ?_, ?_⟩
  · simp [hF.store, hF.idx, map_fixed_modify]
  · simp [hF.store]
  · simp [offsetOf_modify]

/-- Everything the start of a run can do when it answers a next state (R282, R284). -/
theorem startRun_next {p : Params} {s t : State} (h : startRun p s = .next t) :
    ∃ D, s.host.code.length ≤ p.codeCapacityBytes ∧ decodeAll p s.host.code = .ok D ∧
      ((s.host.shouldExecute = true ∧ t = (loaded s D .running).haltIfDone) ∨
       (s.host.shouldExecute = false ∧ t = loaded s D .notStarted)) := by
  unfold startRun at h
  split at h
  · cases h
  · split at h
    · cases h
    · rename_i D hD
      refine ⟨D, by omega, hD, ?_⟩
      split at h
      · left; cases h; exact ⟨by assumption, rfl⟩
      · right; rename_i hx; cases h; exact ⟨by simpa using hx, rfl⟩

/-- Everything a step can do when it answers a next state (R40, R120), at any parameters; step itself is
engineStep at the engine's own. -/
theorem engineStep_cases {p : Params} {s t : State} (h : engineStep p s = .next t) :
    (s.runState = .notStarted ∧ startRun p s = .next t) ∨
    (s.runState = .running ∧ ∃ r u, s.store[s.idx]? = some r ∧ exec r.instr s = .next u ∧ t = u.haltIfDone) ∨
    (s.runState = .running ∧ s.store.length ≤ s.idx ∧ t = { s with runState := .halted }) := by
  unfold engineStep at h
  split at h
  · exact .inl ⟨by assumption, h⟩
  · right
    unfold runRecord State.current at h
    split at h
    · rename_i r hr
      left
      refine ⟨by assumption, r, ?_⟩
      cases he : exec r.instr s with
      | next u => rw [he] at h; cases h; exact ⟨u, hr, rfl, rfl⟩
      | fault f => rw [he] at h; cases h
      | refused f => rw [he] at h; cases h
    · rename_i hn
      right
      cases h
      have : s.store.length ≤ s.idx := by simpa using hn
      refine ⟨by assumption, this, ?_⟩
      simp [State.haltIfDone, Nat.not_lt.mpr this]
  · cases h
  · cases h

end Sys2Proof.Machine
end

