-- ==== Sys2Proof/Tests/Slice0.lean ====
section
/-! SUPPORT. The model's own tests: ill-formed terms refused, a word of every descriptor written out bit by bit,
one-step vectors of 95_test_vectors.md (V<n>, A<n>, S<n>) and of the rules' worked examples, and, for every
obligation with hypotheses, a concrete witness that meets them. -/

open Sys2Proof Sys2Proof.Machine

namespace Sys2Proof.Tests

/-! ## Ill-formed terms -/

theorem test_refuses_movRmR_bp_without_displacement : (.movRmR true .w16 0 (.mem .bp .none) : Instr).wf = false := by decide

theorem test_refuses_movImmRm_bp_without_displacement : (.movImmRm (.mem .bp .none) (.byte 7) : Instr).wf = false := by decide

theorem test_refuses_movRmSr_bp_without_displacement : (.movRmSr 0 (.mem .bp .none) : Instr).wf = false := by decide

theorem test_refuses_movSrRm_bp_without_displacement : (.movSrRm 0 (.mem .bp .none) : Instr).wf = false := by decide

theorem test_refuses_addRmR_bp_without_displacement : (.addRmR true .w16 0 (.mem .bp .none) : Instr).wf = false := by decide

theorem test_refuses_addImmRm_bp_without_displacement : (.addImmRm (.mem .bp .none) (.signed 7) : Instr).wf = false := by decide

theorem test_refuses_subRmR_bp_without_displacement : (.subRmR true .w16 0 (.mem .bp .none) : Instr).wf = false := by decide

theorem test_refuses_subImmRm_bp_without_displacement : (.subImmRm (.mem .bp .none) (.signed 7) : Instr).wf = false := by decide

theorem test_refuses_cmpRmR_bp_without_displacement : (.cmpRmR true .w16 0 (.mem .bp .none) : Instr).wf = false := by decide

theorem test_refuses_cmpImmRm_bp_without_displacement : (.cmpImmRm (.mem .bp .none) (.signed 7) : Instr).wf = false := by decide

theorem test_accepts_bp_with_displacement : (.movRmR true .w16 0 (.mem .bp (.byte 0)) : Instr).wf = true := by decide

/-! ## Decoding: bytes written out from the encodings of R74, both directions -/

/-- The bytes decode to the instruction, and it encodes to them. -/
def reads (bs : List Byte) (i : Instr) : Bool :=
  decide ((decodeInstr bs).toOption = some i) && decide (encode i = bs)

/-- V1. -/
theorem test_decodes_movRmR_store : reads [0b10001001, 0b11_011_000] (.movRmR false .w16 3 (.reg 0)) = true := by decide

/-- V3. -/
theorem test_decodes_movRmR_load : reads [0b10001011, 0b01_001_110, 0xFE] (.movRmR true .w16 1 (.mem .bp (.byte 0xFE))) = true := by decide

/-- V6. -/
theorem test_decodes_movRmR_direct : reads [0b10001011, 0b00_011_110, 0xFF, 0xFF] (.movRmR true .w16 3 (.direct 0xFFFF)) = true := by decide

/-- V8. -/
theorem test_decodes_movImmRm : reads [0b11000111, 0b00_000_110, 0x01, 0x00, 0x02, 0x00] (.movImmRm (.direct 1) (.word 2)) = true := by decide

/-- V34. -/
theorem test_decodes_movImmR : reads [0b1011_1_001, 0xF4, 0xFF] (.movImmR 1 (.word 0xFFF4)) = true := by decide

/-- V26. -/
theorem test_decodes_movImmR_byte : reads [0b1011_0_111, 0x00] (.movImmR 7 (.byte 0)) = true := by decide

/-- V35. -/
theorem test_decodes_movAccMem : reads [0b1010000_1, 0xFB, 0x09] (.movAccMem .w16 2555) = true := by decide

/-- V36. -/
theorem test_decodes_movMemAcc : reads [0b1010001_1, 0xFA, 0x09] (.movMemAcc .w16 2554) = true := by decide

/-- V38. -/
theorem test_decodes_movRmSr : reads [0b10001110, 0b00_0_11_110, 0x05, 0x00] (.movRmSr 3 (.direct 5)) = true := by decide

/-- V40. -/
theorem test_decodes_movSrRm : reads [0b10001100, 0b01_0_11_111, 0x02] (.movSrRm 3 (.mem .bx (.byte 2))) = true := by decide

/-- V42. -/
theorem test_decodes_addRmR : reads [0b000000_0_1, 0b11_001_011] (.addRmR false .w16 1 (.reg 3)) = true := by decide

/-- V43. -/
theorem test_decodes_addImmRm_signed : reads [0b100000_1_1, 0b11_000_001, 0xA6] (.addImmRm (.reg 1) (.signed 0xA6)) = true := by decide

/-- V10. -/
theorem test_decodes_addImmRm_word : reads [0b100000_0_1, 0b11_000_000, 0xFF, 0x00] (.addImmRm (.reg 0) (.word 255)) = true := by decide

/-- V11. -/
theorem test_decodes_addImmRm_byte_s : reads [0b100000_1_0, 0b11_000_000, 0x05] (.addImmRm (.reg 0) (.byte true 5)) = true := by decide

/-- V44. -/
theorem test_decodes_addImmAcc : reads [0b0000010_0, 0x01] (.addImmAcc (.byte 1)) = true := by decide

/-- V5. -/
theorem test_decodes_subRmR : reads [0b001010_1_1, 0b10_001_011, 0x00, 0xFF] (.subRmR true .w16 1 (.mem .bpDi (.word 0xFF00))) = true := by decide

/-- R175. -/
theorem test_decodes_subImmRm : reads [0b100000_1_1, 0b01_101_111, 0x02, 0x01] (.subImmRm (.mem .bx (.byte 2)) (.signed 1)) = true := by decide

/-- R176. -/
theorem test_decodes_subImmAcc : reads [0b0010110_1, 0xE8, 0x03] (.subImmAcc (.word 1000)) = true := by decide

/-- R177. -/
theorem test_decodes_cmpRmR : reads [0b001110_1_0, 0b01_000_110, 0x02] (.cmpRmR true .w8 0 (.mem .bp (.byte 2))) = true := by decide

/-- V53. -/
theorem test_decodes_cmpImmRm : reads [0b100000_0_0, 0b11_111_100, 0x80] (.cmpImmRm (.reg 4) (.byte false 0x80)) = true := by decide

/-- V51. -/
theorem test_decodes_cmpImmAcc : reads [0b0011110_1, 0x05, 0x00] (.cmpImmAcc (.word 5)) = true := by decide

theorem test_decodes_jo : reads [0b0111_0000, 0xFE] (.jo 0xFE) = true := by decide

theorem test_decodes_jno : reads [0b0111_0001, 0xFE] (.jno 0xFE) = true := by decide

theorem test_decodes_jb : reads [0b0111_0010, 0xFE] (.jb 0xFE) = true := by decide

theorem test_decodes_jnb : reads [0b0111_0011, 0xFE] (.jnb 0xFE) = true := by decide

theorem test_decodes_je : reads [0b0111_0100, 0xFE] (.je 0xFE) = true := by decide

theorem test_decodes_jne : reads [0b0111_0101, 0xFE] (.jne 0xFE) = true := by decide

theorem test_decodes_jbe : reads [0b0111_0110, 0xFE] (.jbe 0xFE) = true := by decide

theorem test_decodes_ja : reads [0b0111_0111, 0xFE] (.ja 0xFE) = true := by decide

theorem test_decodes_js : reads [0b0111_1000, 0xFE] (.js 0xFE) = true := by decide

theorem test_decodes_jns : reads [0b0111_1001, 0xFE] (.jns 0xFE) = true := by decide

theorem test_decodes_jp : reads [0b0111_1010, 0xFE] (.jp 0xFE) = true := by decide

theorem test_decodes_jnp : reads [0b0111_1011, 0xFE] (.jnp 0xFE) = true := by decide

theorem test_decodes_jl : reads [0b0111_1100, 0xFE] (.jl 0xFE) = true := by decide

theorem test_decodes_jnl : reads [0b0111_1101, 0xFE] (.jnl 0xFE) = true := by decide

theorem test_decodes_jle : reads [0b0111_1110, 0xFE] (.jle 0xFE) = true := by decide

theorem test_decodes_jg : reads [0b0111_1111, 0xFE] (.jg 0xFE) = true := by decide

theorem test_decodes_loopnz : reads [0b111000_00, 0xFE] (.loopnz 0xFE) = true := by decide

theorem test_decodes_loopz : reads [0b111000_01, 0xFE] (.loopz 0xFE) = true := by decide

theorem test_decodes_loop : reads [0b111000_10, 0xFE] (.loop 0xFE) = true := by decide

theorem test_decodes_jcxz : reads [0b111000_11, 0xFE] (.jcxz 0xFE) = true := by decide

/-- The opcode table's numbering: bit 0 is the least significant bit of the first byte. -/
theorem test_decodeTableWord : decodeTableWord 24 0x1234B8 = some (.movImmR 0 (.word 0x1234)) := by decide

/-- The decode error of a byte list. -/
def decodeErrorOf (bs : List Byte) : Option DecodeError :=
  match decodeInstr bs with
  | .ok _ => none
  | .error e => some e

theorem test_V15_or_is_unmatched : decodeErrorOf [0x80, 0x0F, 0x01] = some (.unmatchedOpcode [0x80, 0x0F, 0x01]) := by decide

theorem test_V16_segment_bit_is_unmatched : decodeErrorOf [0x8E, 0xF0] = some (.unmatchedOpcode [0x8E, 0xF0]) := by decide

theorem test_V17_segment_override_is_unmatched : decodeErrorOf [0x26, 0xA1, 0x00, 0x00] = some (.unmatchedOpcode [0x26, 0xA1, 0x00, 0x00]) := by decide

theorem test_V18_nop_is_unmatched : decodeErrorOf [0x90] = some (.unmatchedOpcode [0x90]) := by decide

theorem test_V19_immediate_is_truncated : decodeErrorOf [0xB8, 0x34] = some (.truncated) := by decide

theorem test_V20_displacement_is_truncated : decodeErrorOf [0x8B, 0x46] = some (.truncated) := by decide

/-! ## Display text (R102 to R105) -/

theorem test_text_V3 : text (.movRmR true .w16 1 (.mem .bp (.byte 0xFE))) = "mov cx, [bp - 2]" := by decide

theorem test_text_V12 : text (.addImmRm (.mem .bx .none) (.byte false 10)) = "add byte [bx], 10" := by decide

theorem test_text_V13 : text (.movImmRm (.mem .bx .none) (.byte 10)) = "mov [bx], byte 10" := by decide

theorem test_text_V14 : text (.jne 0) = "jne $+2+0" := by decide

/-! ## One step -/

/-- Small capacities and the default timing table. -/
def testParams : Params := ⟨1000, 1000, baseClocksTable⟩

/-- The engine about to execute record 0 of a program. -/
def start (code : List Byte) : State :=
  match engineStep testParams (State.atRunStart ⟨code, true, true, some (0xFFFF, 2)⟩) with
  | .next t => t
  | .fault _ => State.reset
  | .refused _ => State.reset

/-- The state after one step from a start state. -/
def after (s : State) : Option State :=
  match step s with
  | .next t => some t
  | .fault _ => none
  | .refused _ => none

/-- The fault of one step from a start state. -/
def faultOf (s : State) : Option Fault :=
  match step s with
  | .next _ => none
  | .fault f => some f
  | .refused _ => none

/-- V32. -/
theorem test_step_movRmR_loads_a_word :
    (after { start [0x8B, 0x5E, 0x04] with regs.BP := 0x10, mem := ⟨[(0x14, 0x34), (0x15, 0x12)]⟩ }).map (fun t => (t.regs.BX, t.clocks)) = some (0x1234, 17) := by decide

/-- V29. -/
theorem test_step_movRmR_wraps_at_the_top :
    (after { start [0x8B, 0x1E, 0xFF, 0xFF] with mem := ⟨[(0, 0x56), (0xFFFF, 0x78)]⟩ }).map (fun t => (t.regs.BX, t.clocks)) = some (0x5678, 18) := by decide

/-- V33. -/
theorem test_step_movImmRm :
    (after (start [0xC7, 0x85, 0x85, 0x03, 0x5B, 0x01])).map (fun t => (t.mem.cells, t.clocks)) = some ([(901, 0x5B), (902, 0x01)], 23) := by decide

/-- V34. -/
theorem test_step_movImmR_word :
    (after (start [0xB9, 0xF4, 0xFF])).map (fun t => (t.regs.CX, t.clocks)) = some (0xFFF4, 4) := by decide

/-- V26. -/
theorem test_step_movImmR_high_byte :
    (after { start [0xB7, 0x00] with regs.BX := 0xABCD }).map (fun t => t.regs.BX) = some (0x00CD) := by decide

/-- V35. -/
theorem test_step_movAccMem :
    (after { start [0xA1, 0xFB, 0x09] with mem := ⟨[(2555, 0x78), (2556, 0x56)]⟩ }).map (fun t => (t.regs.AX, t.clocks)) = some (0x5678, 14) := by decide

/-- V28. -/
theorem test_step_movMemAcc_wraps_at_the_top :
    (after { start [0xA3, 0xFF, 0xFF] with regs.AX := 0x1234 }).map (fun t => (t.mem.cells, t.clocks)) = some ([(0, 0x12), (0xFFFF, 0x34)], 14) := by decide

/-- V38. -/
theorem test_step_movRmSr :
    (after { start [0x8E, 0x1E, 0x05, 0x00] with mem := ⟨[(5, 0x11), (6, 0x22)]⟩ }).map (fun t => (t.segs.DS, t.clocks)) = some (0x2211, 18) := by decide

/-- V40. -/
theorem test_step_movSrRm :
    (after { start [0x8C, 0x5F, 0x02] with segs.DS := 0xBEEF }).map (fun t => (t.mem.cells, t.clocks)) = some ([(2, 0xEF), (3, 0xBE)], 18) := by decide

/-- V42: flags PF. -/
theorem test_step_addRmR :
    (after { start [0x01, 0xCB] with regs.BX := 1, regs.CX := 100 }).map (fun t => (t.regs.BX, t.flags.pack, t.clocks)) = some (0x65, 0x0004, 3) := by decide

/-- V54: flags PF SF, one penalty. -/
theorem test_step_addRmR_in_memory :
    (after { start [0x01, 0x07] with regs.BX := 1, mem := ⟨[(1, 0xFF), (2, 0xFF)]⟩ }).map (fun t => (t.mem.cells, t.flags.pack, t.clocks)) = some ([(1, 0xFF), (2, 0xFF)], 0x0084, 25) := by decide

/-- V43: flags CF PF AF ZF. -/
theorem test_step_addImmRm :
    (after { start [0x83, 0xC1, 0xA6] with regs.CX := 90 }).map (fun t => (t.regs.CX, t.flags.pack)) = some (0, 0x0055) := by decide

/-- V48: flags PF AF. -/
theorem test_step_addImmRm_byte_in_memory :
    (after { start [0x80, 0x07, 0x0A] with regs.BX := 10, mem := ⟨[(10, 10)]⟩ }).map (fun t => (t.mem.cells, t.flags.pack)) = some ([(10, 0x14)], 0x0014) := by decide

/-- V44: flags CF PF AF ZF. -/
theorem test_step_addImmAcc_keeps_ah :
    (after { start [0x04, 0x01] with regs.AX := 0x12FF }).map (fun t => (t.regs.AX, t.flags.pack)) = some (0x1200, 0x0055) := by decide

/-- V47: flags PF AF. -/
theorem test_step_subRmR :
    (after { start [0x29, 0xD1] with regs.CX := 100, regs.DX := 10 }).map (fun t => (t.regs.CX, t.flags.pack)) = some (0x5A, 0x0014) := by decide

/-- R174: flags CF PF AF SF. -/
theorem test_step_subRmR_from_memory :
    (after { start [0x2B, 0x1E, 0x00, 0x10] with regs.BX := 5, mem := ⟨[(4096, 6)]⟩ }).map (fun t => (t.regs.BX, t.flags.pack, t.clocks)) = some (0xFFFF, 0x0095, 15) := by decide

/-- R175: flags PF AF OF. -/
theorem test_step_subImmRm :
    (after { start [0x83, 0x6F, 0x02, 0x01] with regs.BX := 0x100, mem := ⟨[(259, 0x80)]⟩ }).map (fun t => (t.mem.cells, t.flags.pack, t.clocks)) = some ([(258, 0xFF), (259, 0x7F)], 0x0814, 26) := by decide

/-- V49: flags CF PF AF SF. -/
theorem test_step_subImmAcc_keeps_ah :
    (after (start [0x2C, 0x01])).map (fun t => (t.regs.AX, t.flags.pack)) = some (0x00FF, 0x0095) := by decide

/-- V50: flags CF PF AF SF. -/
theorem test_step_cmpRmR :
    (after { start [0x39, 0xE5] with regs.BP := 98, regs.SP := 99 }).map (fun t => (t.regs.BP, t.flags.pack)) = some (98, 0x0095) := by decide

/-- R177: AL minus the byte in memory, flags AF OF. -/
theorem test_step_cmpRmR_minuend :
    (after { start [0x3A, 0x46, 0x02] with regs.AX := 0x80, regs.BP := 0x10, mem := ⟨[(18, 1)]⟩ }).map (fun t => (t.regs.AX, t.flags.pack, t.clocks)) = some (0x80, 0x0810, 18) := by decide

/-- V53: flags CF PF SF OF. -/
theorem test_step_cmpImmRm :
    (after { start [0x80, 0xFC, 0x80] with regs.AX := 0x7F00 }).map (fun t => (t.regs.AX, t.flags.pack)) = some (0x7F00, 0x0885) := by decide

/-- V52: flags CF AF. -/
theorem test_step_cmpImmAcc :
    (after (start [0x3D, 0xFF, 0xFF])).map (fun t => (t.regs.AX, t.flags.pack)) = some (0, 0x0011) := by decide

/-- Whether `op 02 B0 01 B3 01` jumps, over the flags CF ZF SF OF PF. -/
def jumps (op : Byte) (cx : Word) (f : Flags) : Option Nat :=
  (after { start [op, 0x02, 0xB0, 0x01, 0xB3, 0x01] with flags := f, regs.CX := cx }).map (·.idx)

/-- The columns of the predicate table of 95_test_vectors.md, 2.6: none, CF, ZF, SF, OF, PF, SF+OF, CF+ZF; the
next record is 2 where the jump is taken and 1 where it is not. -/
def jumpRow (op : Byte) : List (Option Nat) :=
  [jumps op 0 .zero, jumps op 0 { Flags.zero with CF := true }, jumps op 0 { Flags.zero with ZF := true },
    jumps op 0 { Flags.zero with SF := true }, jumps op 0 { Flags.zero with OF := true },
    jumps op 0 { Flags.zero with PF := true }, jumps op 0 { Flags.zero with SF := true, OF := true },
    jumps op 0 { Flags.zero with CF := true, ZF := true }]

/-- A row of that table: T for taken, n for not taken. -/
def row (s : List Char) : List (Option Nat) := s.map (fun c => if c = 'T' then some 2 else some 1)

theorem test_row_jo : jumpRow 0x70 = row ['n', 'n', 'n', 'n', 'T', 'n', 'T', 'n'] := by decide

theorem test_row_jno : jumpRow 0x71 = row ['T', 'T', 'T', 'T', 'n', 'T', 'n', 'T'] := by decide

theorem test_row_jb : jumpRow 0x72 = row ['n', 'T', 'n', 'n', 'n', 'n', 'n', 'T'] := by decide

theorem test_row_jnb : jumpRow 0x73 = row ['T', 'n', 'T', 'T', 'T', 'T', 'T', 'n'] := by decide

theorem test_row_je : jumpRow 0x74 = row ['n', 'n', 'T', 'n', 'n', 'n', 'n', 'T'] := by decide

theorem test_row_jne : jumpRow 0x75 = row ['T', 'T', 'n', 'T', 'T', 'T', 'T', 'n'] := by decide

theorem test_row_jbe : jumpRow 0x76 = row ['n', 'T', 'T', 'n', 'n', 'n', 'n', 'T'] := by decide

theorem test_row_ja : jumpRow 0x77 = row ['T', 'n', 'n', 'T', 'T', 'T', 'T', 'n'] := by decide

theorem test_row_js : jumpRow 0x78 = row ['n', 'n', 'n', 'T', 'n', 'n', 'T', 'n'] := by decide

theorem test_row_jns : jumpRow 0x79 = row ['T', 'T', 'T', 'n', 'T', 'T', 'n', 'T'] := by decide

theorem test_row_jp : jumpRow 0x7A = row ['n', 'n', 'n', 'n', 'n', 'T', 'n', 'n'] := by decide

theorem test_row_jnp : jumpRow 0x7B = row ['T', 'T', 'T', 'T', 'T', 'n', 'T', 'T'] := by decide

theorem test_row_jl : jumpRow 0x7C = row ['n', 'n', 'n', 'T', 'T', 'n', 'n', 'n'] := by decide

theorem test_row_jnl : jumpRow 0x7D = row ['T', 'T', 'T', 'n', 'n', 'T', 'T', 'T'] := by decide

theorem test_row_jle : jumpRow 0x7E = row ['n', 'n', 'T', 'T', 'T', 'n', 'n', 'T'] := by decide

theorem test_row_jg : jumpRow 0x7F = row ['T', 'T', 'n', 'n', 'n', 'T', 'T', 'n'] := by decide

/-- The columns of the loop table: CX = 0, 1, 2 with ZF = 0, then with ZF = 1. -/
def loopRow (op : Byte) : List (Option Nat) :=
  [jumps op 0 .zero, jumps op 1 .zero, jumps op 2 .zero, jumps op 0 { Flags.zero with ZF := true },
    jumps op 1 { Flags.zero with ZF := true }, jumps op 2 { Flags.zero with ZF := true }]

theorem test_row_loopnz : loopRow 0xE0 = row ['T', 'n', 'T', 'n', 'n', 'n'] := by decide

theorem test_row_loopz : loopRow 0xE1 = row ['n', 'n', 'n', 'T', 'n', 'T'] := by decide

theorem test_row_loop : loopRow 0xE2 = row ['T', 'n', 'T', 'T', 'n', 'T'] := by decide

theorem test_row_jcxz : loopRow 0xE3 = row ['T', 'n', 'n', 'T', 'n', 'n'] := by decide

/-- V63: the first decrement wraps CX. -/
theorem test_loop_wraps_cx : (after (start [0xE2, 0xFE])).map (fun t => (t.regs.CX, t.idx)) = some (0xFFFF, 0) := by
  decide

/-- V62: jcxz writes no CX and lands on itself. -/
theorem test_jcxz_lands_on_itself :
    (after (start [0xE3, 0xFE])).map (fun t => (t.regs.CX, t.idx, t.runState)) = some (0, 0, .running) := by decide

/-- V57. -/
theorem test_jump_into_a_record :
    faultOf (start [0x75, 0x01, 0xB8, 0x00, 0x00]) = some (.jumpMisaligned "jne $+2+1" 1) := by decide

/-- V58. -/
theorem test_jump_beyond_the_end : faultOf (start [0x75, 0x05]) = some (.jumpOverrun "jne $+2+5" 5) := by decide

/-- V59. -/
theorem test_jump_before_the_start : faultOf (start [0x75, 0xFB]) = some (.jumpOverrun "jne $+2-5" (-5)) := by decide

/-- V60: landing at the end halts. -/
theorem test_jump_to_the_end :
    (after (start [0x75, 0x00])).map (fun t => (t.idx, t.ipOffset, t.runState)) = some (1, 2, .halted) := by decide

/-- V61: a jump that is not taken does not walk. -/
theorem test_jump_not_taken : (after (start [0x74, 0x05])).map (fun t => (t.ipOffset, t.runState)) = some (2, .halted) := by
  decide

/-! ## Start of a run and outputs -/

/-- V21, P5: the decode pass faults before any record executes. -/
theorem test_decode_fault_at_offset :
    (match decodeAll testParams [0xB8, 0x00, 0x80, 0x2D, 0x01, 0x00, 0x70, 0x01, 0x90] with
      | .ok _ => none
      | .error f => some f) = some (.unmatchedOpcode 8 [0x90]) := by decide

/-- V22: the empty program halts at once. -/
theorem test_empty_program_halts :
    (match engineStep testParams (State.atRunStart ⟨[], false, true, none⟩) with
      | .next t => some (t.runState, t.clocks)
      | .fault _ => none
      | .refused _ => none) = some (.halted, 0) := by decide

/-- The host's way to place a word: the very next step runs it. -/
theorem test_withFetchWord : (after (State.reset.withFetchWord 24 0x1234B8)).map (·.regs.AX) = some 0x1234 := by decide

/-- V6: the listing line of an absolute operand shows its alignment clocks before execution. -/
theorem test_listing : listing (start [0x8B, 0x1E, 0xFF, 0xFF]) = [⟨"mov bx, [65535]", 0, 0, 4, 8, 6, 4⟩] := by decide

/-- V60: the final values the host reads of a halted run. -/
theorem test_report :
    ((after (start [0x75, 0x00])).bind (fun t => (report t).final)).map (fun f => (f.idx, f.ipOffset)) = some (1, 2) := by
  decide

/-- R293: the dump wraps at the top of memory. -/
theorem test_dump : dump { start [0xB0, 0x01] with mem := ⟨[(0, 0x12), (0xFFFF, 0x34)]⟩ } = [0x34, 0x12] := by decide

/-! ## Witnesses: for every obligation with hypotheses, a state and operands that meet them all -/

/-- A step that answers a next state, as the statements' hypotheses say it. -/
def answersNext (o : Host.Outcome State Fault Refusal) : Bool :=
  match o with
  | .next _ => true
  | .fault _ => false
  | .refused _ => false

theorem exists_next {o : Host.Outcome State Fault Refusal} (h : answersNext o = true) : ∃ t, o = .next t := by
  cases o with
  | next t => exact ⟨t, rfl⟩
  | fault f => cases h
  | refused x => cases h

/-- A step that faults so, as the statements' hypotheses say it. -/
def answersFault (f : Fault) (o : Host.Outcome State Fault Refusal) : Bool :=
  match o with
  | .next _ => false
  | .fault g => decide (g = f)
  | .refused _ => false

theorem eq_fault {o : Host.Outcome State Fault Refusal} {f : Fault} (h : answersFault f o = true) : o = .fault f := by
  cases o with
  | next t => cases h
  | fault g => exact congrArg _ (of_decide_eq_true h)
  | refused x => cases h

theorem of_toOption {α ε : Type} {x : Except ε α} {a : α} (h : x.toOption = some a) : x = .ok a := by
  cases x with
  | error e => cases h
  | ok b => cases h; rfl

/-- `mov bx, [bp + 4]` about to run on a memory that lists bytes. -/
def moveState : State :=
  { start [0x8B, 0x5E, 0x04] with regs.BP := 0x10, mem := ⟨[(0x14, 0x34), (0x15, 0x12)]⟩ }

/-- `add [bx], ax` about to run on a word at an odd address. -/
def addState : State := { start [0x01, 0x07] with regs.BX := 1, mem := ⟨[(1, 0xFF), (2, 0xFF)]⟩ }

/-- `jne $+2+2` over `mov al, 1`, with `mov bl, 1` after it. -/
def jumpState : State := start [0x75, 0x02, 0xB0, 0x01, 0xB3, 0x01]

/-- `jne` into the record that follows it. -/
def misalignedState : State := start [0x75, 0x01, 0xB8, 0x00, 0x00]

theorem witness_DecodeOfEncodeIsIdentity : (.movRmR true .w16 3 (.mem .bp (.byte 4)) : Instr).wf = true := by decide

theorem witness_EncodeOfDecodeIsIdentity :
    decodeInstr [0x8B, 0x5E, 0x04, 0x90] = .ok (.movRmR true .w16 3 (.mem .bp (.byte 4))) :=
  of_toOption (by decide)

theorem witness_LengthIsThatOfTheFormat :
    (.jo 0 : Instr).wf = true ∧ (.addImmRm (.mem .bp (.word 4)) (.word 5) : Instr).wf = true := by decide

theorem witness_DisplacementLengthByModAndRm : (0b111 : BitVec 3) ≠ 0b110 := by decide

theorem witness_AtMostOneDescriptorMatches : ∃ e ∈ catalog, fullMatch e [0x83, 0xF9, 0xA6] := by
  refine ⟨catalog[14], List.getElem_mem _, of_toOption (by decide), ?_⟩
  intro m hm
  cases hm
  exact of_toOption (by decide)

theorem witness_BytesOutsideTheMapAreUnmatched :
    ¬mappedFirstByte 0x06 ∧ ¬mappedFirstByte 0x27 ∧ ¬mappedFirstByte 0x8D ∧ ¬mappedFirstByte 0xE4 ∧
    refusedSecondByte 0x80 0x08 ∧ refusedSecondByte 0x83 0xF7 ∧ refusedSecondByte 0x8E 0x20 ∧
    refusedSecondByte 0x8C 0xFF ∧ refusedSecondByte 0xC6 0x08 ∧ refusedSecondByte 0xC7 0xFF := by
  simp [mappedFirstByte, refusedSecondByte]

theorem witness_CutInstructionIsTruncated :
    (.movImmR 0 (.word 0x1234) : Instr).wf = true ∧ 0 < (.movImmR 0 (.word 0x1234) : Instr).len ∧
    2 < (.movImmR 0 (.word 0x1234) : Instr).len := by decide

theorem witness_DecodePassCutsTheWholeBuffer :
    (decodeAll testParams [0xB9, 0x03, 0x00, 0xE2, 0xFE]).toOption.map (·.length) = some 2 := by decide

theorem witness_DecodePassReportsTheFirstFault :
    decodeAll testParams [0xB0, 0x01, 0x90] = .error (.unmatchedOpcode 2 [0x90]) ∧
    decodeAll ⟨1000, 1, baseClocksTable⟩ [0xB0, 0x01, 0x90] = .error (.capacity 2) := ⟨rfl, rfl⟩

theorem witness_EncodedProgramDecodesToItself :
    (∀ i ∈ [Instr.movImmR 1 (.word 3), .loop 0xFE], i.wf = true) ∧ testParams.timing = baseClocksTable ∧
    [Instr.movImmR 1 (.word 3), .loop 0xFE].length ≤ testParams.maxInstructions := ⟨by decide, rfl, by decide⟩

theorem witness_StartOfARun_capacity :
    (State.atRunStart ⟨[0xB0, 0x01], true, true, none⟩).runState = .notStarted ∧
    (⟨1, 1, baseClocksTable⟩ : Params).codeCapacityBytes <
      (State.atRunStart ⟨[0xB0, 0x01], true, true, none⟩).host.code.length := by decide

theorem witness_StartOfARun_decodes :
    [0xB0, 0x01].length ≤ testParams.codeCapacityBytes ∧
    (decodeAll testParams [0xB0, 0x01]).toOption.map (·.length) = some 1 ∧
    decodeAll testParams [] = .ok [] ∧ decodeAll testParams [0x90] = .error (.unmatchedOpcode 0 [0x90]) :=
  ⟨by decide, by decide, rfl, rfl⟩

theorem moveState_inv : Inv moveState :=
  ⟨by decide, by decide, by decide, by decide, by decide, by decide, by decide⟩

theorem witness_StepKeepsTheInvariant : Inv moveState ∧ ∃ t, step moveState = .next t :=
  ⟨moveState_inv, exists_next (by decide)⟩

theorem moveState_store : StoreIsDecoded testParams moveState :=
  fun _ => ⟨moveState.store, of_toOption (by decide), rfl, by decide, by decide, by decide⟩

theorem witness_StoreStaysTheDecodedCode :
    StoreIsDecoded testParams moveState ∧ ∃ t, engineStep testParams moveState = .next t :=
  ⟨moveState_store, exists_next (by decide)⟩

theorem witness_StepRunsTheFetchedRecord :
    moveState.runState = .running ∧
    moveState.store[moveState.idx]?.map (·.instr) = some (.movRmR true .w16 3 (.mem .bp (.byte 4))) ∧
    (∃ t, exec (.movRmR true .w16 3 (.mem .bp (.byte 4))) moveState = .next t) ∧
    misalignedState.runState = .running ∧ misalignedState.store[misalignedState.idx]?.map (·.instr) = some (.jne 1) ∧
    exec (.jne 1) misalignedState = .fault (.jumpMisaligned "jne $+2+1" 1) :=
  ⟨by decide, by decide, exists_next (by decide), by decide, by decide, eq_fault (by decide)⟩

theorem witness_StepRunsTheBytesAtThePointer :
    Inv moveState ∧ StoreIsDecoded testParams moveState ∧ moveState.runState = .running :=
  ⟨moveState_inv, moveState_store, by decide⟩

theorem witness_EndedEngineTakesNoStep :
    ({ moveState with runState := .halted } : State).runState = .halted ∧
    ({ moveState with runState := .aborted } : State).runState = .aborted := by decide

/-- An execution fault, and a fault of the decode pass at the engine's own parameters. -/
theorem witness_FaultsAbortTheRun :
    step misalignedState = .fault (.jumpMisaligned "jne $+2+1" 1) ∧
    step (State.atRunStart ⟨[0x90], true, true, none⟩) = .fault (.unmatchedOpcode 0 [0x90]) ∧
    (State.atRunStart ⟨[0x90], true, true, none⟩).runState = .notStarted := by
  refine ⟨eq_fault (by decide), ?_, by decide⟩
  have h : decodeOne baseClocksTable [0x90] 0 = .error (.unmatchedOpcode 0 [0x90]) := rfl
  simp [step, engineStep, State.atRunStart, startRun, params, Config.codeCapacityBytes, Config.maxInstructions,
    decodeAll, decodeFrom]
  rw [show decodeOne baseClocksTable [144#8] 0 = .error (.unmatchedOpcode 0 [0x90]) from h]
  rfl

theorem witness_ByteRegistersAreHalvesOfTheirParents :
    (3 : BitVec 3).toNat < 4 ∧ 4 ≤ (4 : BitVec 3).toNat ∧ (0 : BitVec 3) ≠ 1 ∧
    (4 : BitVec 3).toNat ≠ (0 : BitVec 3).toNat % 4 ∧ (4 : BitVec 3).toNat ≠ (7 : BitVec 3).toNat % 4 := by decide

theorem witness_MemoryIsLittleEndianAndWraps :
    moveState.mem.wf = true ∧ (5 : Word) ≠ 0xFFFF ∧ (5 : Word) ≠ 0xFFFF + 1 := by decide

theorem witness_MemoryIsCanonical :
    moveState.mem.wf = true ∧ addState.mem.wf = true ∧ ∀ a, moveState.mem.read a = moveState.mem.read a :=
  ⟨by decide, by decide, fun _ => rfl⟩

theorem witness_SegmentRegistersTakeNoPart :
    (∀ sr rm, Instr.addRmR false .w16 0 (.mem .bx .none) ≠ .movRmSr sr rm) ∧
    (∀ sr rm, Instr.addRmR false .w16 0 (.mem .bx .none) ≠ .movSrRm sr rm) ∧
    (∃ t, exec (.addRmR false .w16 0 (.mem .bx .none)) addState = .next t) ∧
    exec (.jne 1) misalignedState = .fault (.jumpMisaligned "jne $+2+1" 1) :=
  ⟨by simp, by simp, exists_next (by decide), eq_fault (by decide)⟩

theorem witness_OperandsByShape : jumpIncrement (.jo 5) = some 5 ∧ jumpIncrement (.jcxz 0x80) = some 0x80 := by decide

theorem witness_OperandReads : effectiveAddress moveState.regs (.mem .bp 4 .w16) = some 0x14 := by decide

theorem witness_MovesMoveSourceToDestination :
    moveState.mem.wf = true ∧ (.movRmR true .w16 3 (.mem .bp (.byte 4)) : Instr).action = .move := by decide

theorem witness_MovRmRMoves : moveState.mem.wf = true := by decide
theorem witness_MovImmediateMoves : moveState.mem.wf = true := by decide
theorem witness_MovAccumulatorMoves : moveState.mem.wf = true := by decide
theorem witness_MovSegmentRegisterMoves : moveState.mem.wf = true := by decide
theorem witness_AddAdds : addState.mem.wf = true := by decide
theorem witness_SubSubtracts : addState.mem.wf = true := by decide

theorem witness_ParityIsOfTheLowByte : (7 : Nat) < 8 ∧ 8 ≤ (8 : Nat) ∧ 8 ≤ (15 : Nat) := by decide

/-- Flags with only the named ones set. -/
def someFlags (cf pf zf sf of : Bool) : Flags :=
  { Flags.zero with CF := cf, PF := pf, ZF := zf, SF := sf, OF := of }

/-- Every condition is met by some flags and refused by others (the rows above run both); the jump's target is
record 2 for increment 2 and the end of the program for increment 4. -/
theorem witness_ConditionalJumps :
    (∀ f, ({ jumpState with flags := f } : State).idx < ({ jumpState with flags := f } : State).store.length) ∧
    (2 ≤ jumpState.store.length ∧ (offsetOf jumpState.store 2 : Int) = jumpTarget jumpState 2) ∧
    (3 ≤ jumpState.store.length ∧ (offsetOf jumpState.store 3 : Int) = jumpTarget jumpState 4) ∧
    (0 ≤ jumpState.store.length ∧ (offsetOf jumpState.store 0 : Int) = jumpTarget jumpState 0xFE) :=
  ⟨fun _ => show jumpState.idx < jumpState.store.length by decide, by decide, by decide, by decide⟩

theorem witness_ConditionalJumps_conditions (inc : Byte) :
    (jumpTaken (someFlags true true true true true) 0 (.jo inc) ∧ ¬jumpTaken .zero 0 (.jo inc)) ∧
    (jumpTaken .zero 0 (.jno inc) ∧ ¬jumpTaken (someFlags true true true true true) 0 (.jno inc)) ∧
    (jumpTaken (someFlags true true true true true) 0 (.jb inc) ∧ ¬jumpTaken .zero 0 (.jb inc)) ∧
    (jumpTaken .zero 0 (.jnb inc) ∧ ¬jumpTaken (someFlags true true true true true) 0 (.jnb inc)) ∧
    (jumpTaken (someFlags true true true true true) 0 (.je inc) ∧ ¬jumpTaken .zero 0 (.je inc)) ∧
    (jumpTaken .zero 0 (.jne inc) ∧ ¬jumpTaken (someFlags true true true true true) 0 (.jne inc)) ∧
    (jumpTaken (someFlags true false false false false) 0 (.jbe inc) ∧ ¬jumpTaken .zero 0 (.jbe inc)) ∧
    (jumpTaken .zero 0 (.ja inc) ∧ ¬jumpTaken (someFlags true false false false false) 0 (.ja inc)) ∧
    (jumpTaken (someFlags true true true true true) 0 (.js inc) ∧ ¬jumpTaken .zero 0 (.js inc)) ∧
    (jumpTaken .zero 0 (.jns inc) ∧ ¬jumpTaken (someFlags true true true true true) 0 (.jns inc)) ∧
    (jumpTaken (someFlags true true true true true) 0 (.jp inc) ∧ ¬jumpTaken .zero 0 (.jp inc)) ∧
    (jumpTaken .zero 0 (.jnp inc) ∧ ¬jumpTaken (someFlags true true true true true) 0 (.jnp inc)) ∧
    (jumpTaken (someFlags false false false true false) 0 (.jl inc) ∧ ¬jumpTaken .zero 0 (.jl inc)) ∧
    (jumpTaken .zero 0 (.jnl inc) ∧ ¬jumpTaken (someFlags false false false true false) 0 (.jnl inc)) ∧
    (jumpTaken (someFlags false false false false true) 0 (.jle inc) ∧ ¬jumpTaken .zero 0 (.jle inc)) ∧
    (jumpTaken .zero 0 (.jg inc) ∧ ¬jumpTaken (someFlags false false false false true) 0 (.jg inc)) := by
  simp [jumpTaken, someFlags, Flags.zero]

/-- The loop family's predicates at CX = 0, 1 and 2 before the decrement, and JCXZ's. -/
theorem witness_LoopFamilyAndJcxz :
    jumpState.idx < jumpState.store.length ∧ jumpState.regs.CX = 0 ∧ jumpState.flags.ZF = false ∧
    (2 ≤ jumpState.store.length ∧ (offsetOf jumpState.store 2 : Int) = jumpTarget jumpState 2) ∧
    (0 : Word) - 1 ≠ 0 ∧ (1 : Word) - 1 = 0 ∧ (2 : Word) - 1 ≠ 0 ∧
    ({ jumpState with regs.CX := 1 } : State).regs.CX ≠ 0 ∧
    ({ jumpState with flags.ZF := true } : State).flags.ZF = true := by decide

theorem witness_LandingIsTheUniqueBoundaryAtTheTarget :
    0 < jumpState.store.length ∧ 2 ≤ jumpState.store.length ∧
    (offsetOf jumpState.store 2 : Int) = offsetOf jumpState.store (0 + 1) + 2 := by decide

/-- Overrun just past the end and just before the start, a target inside a record, and a jump not taken. -/
theorem witness_TakenJumpToABadTargetFaults :
    (jumpTaken (start [0x75, 0x01]).flags (start [0x75, 0x01]).regs.CX (.jne 1) ∧
      (offsetOf (start [0x75, 0x01]).store (start [0x75, 0x01]).store.length : Int) < jumpTarget (start [0x75, 0x01]) 1) ∧
    (jumpTaken (start [0x75, 0xFD]).flags (start [0x75, 0xFD]).regs.CX (.jne 0xFD) ∧
      jumpTarget (start [0x75, 0xFD]) 0xFD < 0) ∧
    (jumpTaken misalignedState.flags misalignedState.regs.CX (.jne 1) ∧ 0 ≤ jumpTarget misalignedState 1 ∧
      jumpTarget misalignedState 1 ≤ offsetOf misalignedState.store misalignedState.store.length ∧
      ∀ j, j ≤ misalignedState.store.length →
        (offsetOf misalignedState.store j : Int) ≠ jumpTarget misalignedState 1) ∧
    (jumpIncrement (.je 5) = some 5 ∧ (start [0x74, 0x05]).idx < (start [0x74, 0x05]).store.length ∧
      ¬jumpTaken (start [0x74, 0x05]).flags (start [0x74, 0x05]).regs.CX (.je 5)) := by
  refine ⟨⟨by unfold jumpTaken; decide, by decide⟩, ⟨by unfold jumpTaken; decide, by decide⟩,
    ⟨by unfold jumpTaken; decide, by decide, by decide, by decide⟩, by decide, by decide, by unfold jumpTaken; decide⟩

theorem witness_EveryStepChargesItsClocks :
    ∃ t, exec (.addRmR false .w16 0 (.mem .bx .none)) addState = .next t := exists_next (by decide)

/-- A word at an odd address, a word at an even one, a byte at an odd one, and no memory operand. -/
theorem witness_AlignmentPenalty :
    effectiveAddress addState.regs (dst (.addRmR false .w16 0 (.mem .bx .none))) = some 1 ∧
    operandWidth (dst (.addRmR false .w16 0 (.mem .bx .none))) = some .w16 ∧
    effectiveAddress moveState.regs (src (.movRmR true .w16 3 (.mem .bp (.byte 4)))) = some 0x14 ∧
    operandWidth (dst (.addRmR false .w8 0 (.mem .bx .none))) = some .w8 ∧
    effectiveAddress addState.regs (src (.addRmR false .w16 1 (.reg 3))) = none ∧
    effectiveAddress addState.regs (dst (.addRmR false .w16 1 (.reg 3))) = none := by decide

theorem witness_AlignmentAtDecode :
    ((src (.movAccMem .w16 1)).kind ≠ .mem ∧ (dst (.movAccMem .w16 1)).kind ≠ .mem) ∧
    (dst (.addRmR false .w16 0 (.mem .bx .none))).kind = .mem := by decide

theorem witness_EffectiveAddressClocks : Base.bx ≠ .bp ∧ Base.bpDi ≠ .bp := by decide

theorem witness_BaseClocksOfTheTable :
    Rm.mod (.direct 5) ≠ 0b11 ∧ Rm.mod (.mem .bx .none) ≠ 0b11 ∧ jumpIncrement (.jo 5) = some 5 := by decide

theorem witness_JumpClocksAreOneOpenValue : jumpIncrement (.loop 0xFE) = some 0xFE := by decide

theorem witness_OnlyTakenJumpsFault : exec (.jne 1) misalignedState = .fault (.jumpMisaligned "jne $+2+1" 1) :=
  eq_fault (by decide)

theorem witness_FlagsAreWrittenByArithmeticOnly :
    (∃ t, exec (.movRmR true .w16 3 (.mem .bp (.byte 4))) moveState = .next t) ∧
    (.movRmR true .w16 3 (.mem .bp (.byte 4)) : Instr).action = .move ∧
    (∃ t, exec (.jne 2) jumpState = .next t) ∧ (.jne 2 : Instr).action = .jump :=
  ⟨exists_next (by decide), by decide, exists_next (by decide), by decide⟩

theorem witness_RegistersAreWrittenOnlyAsDestinations :
    (∃ t, exec (.movRmR true .w16 3 (.mem .bp (.byte 4))) moveState = .next t) ∧
    (∀ rm, Instr.movRmR true .w16 3 (.mem .bp (.byte 4)) ≠ .movRmSr 0 rm) ∧
    (1 : BitVec 3) ∉ destRegs (dst (.movRmR true .w16 3 (.mem .bp (.byte 4)))) ∧
    ∀ inc, Instr.movRmR true .w16 3 (.mem .bp (.byte 4)) ≠ .loop inc :=
  ⟨exists_next (by decide), by simp, by decide, by simp⟩

theorem witness_MemoryIsWrittenOnlyAtTheDestination :
    (∃ t, exec (.addRmR false .w16 0 (.mem .bx .none)) addState = .next t) ∧
    (3 : Word) ∉ operandStores addState.regs (dst (.addRmR false .w16 0 (.mem .bx .none))) ∧
    (∃ t, exec (.jne 2) jumpState = .next t) ∧ (.jne 2 : Instr).action = .jump :=
  ⟨exists_next (by decide), by decide, exists_next (by decide), by decide⟩

theorem witness_PointerAdvancesOrLands :
    (∃ t, exec (.jne 2) jumpState = .next t) ∧ jumpState.idx < jumpState.store.length :=
  ⟨exists_next (by decide), by decide⟩

theorem witness_HostInputsNeverChange : ∃ t, step moveState = .next t := exists_next (by decide)

theorem witness_EncodingIsTheLayoutOfTheFormats :
    (.subRmR true .w16 1 (.mem .bpDi (.word 0xFF00)) : Instr).wf = true ∧ (.jcxz 0 : Instr).wf = true := by decide

/-- A run that did not abort, with a pointer that fits; a latched fault, and none. -/
theorem witness_ReportTheHostReads :
    moveState.runState ≠ .aborted ∧ moveState.ipOffset < 65536 ∧ moveState.fault = none ∧
    (misalignedState.raise (.jumpMisaligned "jne $+2+1" 1)).fault = some (.jumpMisaligned "jne $+2+1" 1) := by
  decide

theorem witness_DumpAndListing :
    moveState.host.dumpRange = some (0xFFFF, 2) ∧ moveState.host.shouldExecute = true ∧ (1 : Nat) < 2 ∧
    moveState.host.shouldDisassemble = true ∧ moveState.store[0]? = some ⟨.movRmR true .w16 3 (.mem .bp (.byte 4)), 0, 8, 9, 0⟩ := by
  decide

end Sys2Proof.Tests
end

section
/-! The invariants of a run: the decode pass record by record, then what every step keeps of Inv and of the
decoded store, and which instruction a step runs. -/

namespace Sys2Proof.Machine

/-! ## What an answered decode pass has decoded (R80, R101) -/

/-- One turn of an answered pass at a record's first byte. -/
theorem decodeFrom_ok_cons {p : Params} {b : Byte} {bs : List Byte} {off n : Nat} {rs : List Record}
    (h : decodeFrom p (b :: bs) 0 off n = .ok rs) :
    n ≠ p.maxInstructions ∧ ∃ r rest, decodeOne p.timing (b :: bs) off = .ok r ∧
      decodeFrom p bs (r.len - 1) (off + 1) (n + 1) = .ok rest ∧ rs = r :: rest := by
  unfold decodeFrom at h
  split at h
  · cases h
  · rename_i hn
    refine ⟨hn, ?_⟩
    split at h
    · cases h
    · rename_i r hr
      split at h
      · cases h
      · rename_i rest hrest
        cases h
        exact ⟨r, rest, hr, hrest, rfl⟩

/-- R36: an answered pass stays within the record capacity. -/
theorem decodeFrom_ok_length {p : Params} : ∀ {bs : List Byte} {skip off n : Nat} {rs : List Record},
    n ≤ p.maxInstructions → decodeFrom p bs skip off n = .ok rs → n + rs.length ≤ p.maxInstructions
  | [], _, _, _, _, hn, h => by
    cases h
    simpa using hn
  | _ :: _, 0, _, n, _, hn, h => by
    obtain ⟨hne, r, rest, _, hrest, rfl⟩ := decodeFrom_ok_cons h
    have := decodeFrom_ok_length (by omega) hrest
    simp only [List.length_cons]
    omega
  | _ :: bs, k + 1, off, n, _, hn, h => decodeFrom_ok_length (bs := bs) (skip := k) (off := off + 1) hn h

/-- R101: record `j` of an answered pass is decoded at its own offset in the buffer. -/
theorem decodeFrom_ok_getElem? {p : Params} : ∀ {bs : List Byte} {skip off n : Nat} {rs : List Record}
    {j : Nat} {r : Record}, decodeFrom p bs skip off n = .ok rs → rs[j]? = some r →
    decodeOne p.timing (bs.drop (skip + offsetOf rs j)) (off + skip + offsetOf rs j) = .ok r
  | [], _, _, _, _, _, _, h, hj => by
    cases h
    simp at hj
  | b :: bs, 0, off, n, _, j, r, h, hj => by
    obtain ⟨_, r₀, rest, hr₀, hrest, rfl⟩ := decodeFrom_ok_cons h
    cases j with
    | zero =>
      cases hj
      simpa using hr₀
    | succ j =>
      have hlen := record_len_pos r₀
      have ih := decodeFrom_ok_getElem? hrest hj
      have hdrop : 0 + offsetOf (r₀ :: rest) (j + 1) = (r₀.len - 1 + offsetOf rest j) + 1 := by
        simp only [offsetOf_cons_succ]; omega
      have hoff : off + 0 + offsetOf (r₀ :: rest) (j + 1) = off + 1 + (r₀.len - 1) + offsetOf rest j := by
        simp only [offsetOf_cons_succ]; omega
      rw [hdrop, hoff, List.drop_succ_cons]
      exact ih
  | _ :: bs, k + 1, off, n, rs, j, r, h, hj => by
    have ih := decodeFrom_ok_getElem? (bs := bs) (skip := k) (off := off + 1) h hj
    rw [show k + 1 + offsetOf rs j = (k + offsetOf rs j) + 1 by omega, List.drop_succ_cons,
      show off + (k + 1) = off + 1 + k by omega]
    exact ih

theorem decodeAll_length_le {p : Params} {code : List Byte} {rs : List Record} (h : decodeAll p code = .ok rs) :
    rs.length ≤ p.maxInstructions := by
  simpa using decodeFrom_ok_length (Nat.zero_le _) h

theorem decodeOne_of_decodeAll {p : Params} {code : List Byte} {rs : List Record} {j : Nat} {r : Record}
    (h : decodeAll p code = .ok rs) (hj : rs[j]? = some r) :
    decodeOne p.timing (code.drop (offsetOf rs j)) (offsetOf rs j) = .ok r := by
  simpa using decodeFrom_ok_getElem? h hj

/-! ## The invariant -/

/-- The run loop's exit test (R120) turns a running state within its store into one that meets the invariant. -/
theorem inv_haltIfDone {u : State} (hmem : u.mem.wf = true) (hidx : u.idx ≤ u.store.length)
    (hip : u.ipOffset = offsetOf u.store u.idx)
    (hflags : u.flags.TF = false ∧ u.flags.IF = false ∧ u.flags.DF = false)
    (hrun : u.runState = .running) (hfault : u.fault = none) : Inv u.haltIfDone where
  mem := by simpa using hmem
  idx := by simpa using hidx
  ip := by simpa using hip
  controlFlags := by simpa using hflags
  running h := by
    by_cases hlt : u.idx < u.store.length
    · simpa using hlt
    · simp [hlt] at h
  halted h := by
    have hge : ¬ u.idx < u.store.length := by
      intro hlt
      simp [hlt, hrun] at h
    simpa using Nat.le_antisymm hidx (Nat.not_lt.mp hge)
  faultNone _ := by simpa using hfault

theorem inv_of_startRun {p : Params} {s t : State} (h : startRun p s = .next t) : Inv t := by
  obtain ⟨D, _, _, ⟨_, rfl⟩ | ⟨_, rfl⟩⟩ := startRun_next h
  · exact inv_haltIfDone rfl (Nat.zero_le _) rfl ⟨rfl, rfl, rfl⟩ rfl rfl
  · exact ⟨rfl, Nat.zero_le _, rfl, ⟨rfl, rfl, rfl⟩, by simp, by simp, fun _ => rfl⟩

/-- An executed instruction, followed by the exit test, keeps the invariant of a running engine. -/
theorem inv_of_exec {i : Instr} {s u : State} (hI : Inv s) (hrun : s.runState = .running)
    (h : exec i s = .next u) : Inv u.haltIfDone := by
  obtain ⟨_, hrs, hfault, _, hlen, hip⟩ := exec_keeps h
  obtain ⟨⟨next, u', rfl, _, hnext⟩, hmem, hTF, hIF, hDF⟩ := exec_effect h
  obtain ⟨hsTF, hsIF, hsDF⟩ := hI.controlFlags
  refine inv_haltIfDone (hmem hI.mem) ?_ hip ⟨hTF.trans hsTF, hIF.trans hsIF, hDF.trans hsDF⟩ (hrs.trans hrun)
    (hfault.trans (hI.faultNone (by simp [hrun])))
  rw [hlen]
  exact hnext (hI.running hrun)

/-- Settles O16, by the three things a step can do: start a run, execute a record, or halt, which Inv rules out. -/
theorem stepKeepsTheInvariant : Obligations.StepKeepsTheInvariant := by
  intro s t hI h
  obtain ⟨_, hstart⟩ | ⟨hrun, _, u, _, hexec, rfl⟩ | ⟨hrun, hge, _⟩ := engineStep_cases h
  · exact inv_of_startRun hstart
  · exact inv_of_exec hI hrun hexec
  · exact absurd (hI.running hrun) (Nat.not_lt.mpr hge)

/-! ## The decoded store -/

theorem storeIsDecoded_of_startRun {p : Params} {s t : State} (h : startRun p s = .next t) : StoreIsDecoded p t := by
  obtain ⟨D, hcode, hD, ⟨hx, rfl⟩ | ⟨_, rfl⟩⟩ := startRun_next h
  · exact fun _ => ⟨D, by simpa using hD, by simp, by simpa using hcode, by simpa using decodeAll_length_le hD,
      by simpa using hx⟩
  · simp [StoreIsDecoded]

/-- A state reached from a running one without a change to the host's inputs or to what is fixed in the store has
the same decoded code (R245). -/
theorem StoreIsDecoded.of_kept {p : Params} {s t : State} (hs : StoreIsDecoded p s) (hrun : s.runState = .running)
    (hhost : t.host = s.host) (hstore : t.store.map Record.fixed = s.store.map Record.fixed) :
    StoreIsDecoded p t := by
  intro _
  obtain ⟨records, hD, hfixed, hcode, hlen, hx⟩ := hs (.inl hrun)
  have hl : t.store.length = s.store.length := by simpa using congrArg List.length hstore
  rw [hhost, hl, hstore]
  exact ⟨records, hD, hfixed, hcode, hlen, hx⟩

/-- Settles O17, by the three things a step can do: a start decodes the code buffer, and an execution or a halt
keeps the buffer and what is fixed in the store. -/
theorem storeStaysTheDecodedCode : Obligations.StoreStaysTheDecodedCode := by
  intro p s t hs h
  obtain ⟨_, hstart⟩ | ⟨hrun, _, u, _, hexec, rfl⟩ | ⟨hrun, _, rfl⟩ := engineStep_cases h
  · exact storeIsDecoded_of_startRun hstart
  · obtain ⟨hhost, _, _, hstore, _⟩ := exec_keeps hexec
    exact hs.of_kept hrun (by simpa using hhost) (by simpa using hstore)
  · exact hs.of_kept hrun rfl rfl

/-! ## The instruction a step runs -/

/-- R40, R120: a running engine executes the record its pointer names, then makes the exit test. -/
theorem step_of_record {s : State} {r : Record} (hrun : s.runState = .running) (hr : s.store[s.idx]? = some r) :
    step s = afterExec (exec r.instr s) := by
  simp [step, engineStep, hrun, runRecord, State.current, hr]

/-- The record at a place of a decoded store stands, but for its alignment clocks, at that place of the pass. -/
theorem getElem?_of_map_fixed {store records : List Record} {j : Nat} {r : Record}
    (h : store.map Record.fixed = records.map Record.fixed) (hr : store[j]? = some r) :
    ∃ r', records[j]? = some r' ∧ r'.instr = r.instr := by
  have hj : (records.map Record.fixed)[j]? = some r.fixed := by simp [← h, hr]
  rw [List.getElem?_map, Option.map_eq_some_iff] at hj
  obtain ⟨r', hr', hf⟩ := hj
  have hinstr : r'.fixed.instr = r.fixed.instr := by rw [hf]
  exact ⟨r', hr', hinstr⟩

/-- R101: the record a running engine executes is decoded from the bytes at its byte pointer. -/
theorem current_decodes {p : Params} {s : State} {r : Record} (hI : Inv s) (hs : StoreIsDecoded p s)
    (hrun : s.runState = .running) (hr : s.store[s.idx]? = some r) :
    decodeInstr (s.host.code.drop s.ipOffset) = .ok r.instr := by
  obtain ⟨records, hD, hfixed, _⟩ := hs (.inl hrun)
  obtain ⟨r', hr', hinstr⟩ := getElem?_of_map_fixed hfixed hr
  obtain ⟨hdec, _⟩ := decodeOne_ok (decodeOne_of_decodeAll hD hr')
  rwa [hI.ip, offsetOf_congr hfixed, ← hinstr]

/-- Settles O19: the record at the pointer is decoded from the bytes there, and the step executes it. -/
theorem stepRunsTheBytesAtThePointer : Obligations.StepRunsTheBytesAtThePointer := by
  intro p s hI hs hrun
  obtain ⟨r, hr⟩ : ∃ r, s.store[s.idx]? = some r := ⟨_, List.getElem?_eq_getElem (hI.running hrun)⟩
  have hstep := step_of_record hrun hr
  refine ⟨r.instr, current_decodes hI hs hrun hr, fun t ht => ?_, fun f hf => ?_⟩
  · rw [hstep, ht, ← haltIfDone_eq, afterExec]
  · rw [hstep, hf, afterExec]

end Sys2Proof.Machine
end

section
/-! What an executed instruction writes beside memory: the flags, the registers, the pointer, and that the segment
registers take no part in any of it. -/

namespace Sys2Proof.Machine

/-! ## Moves and jumps write no flag -/

theorem moveStep_flags {i : Instr} {s t : State} (h : moveStep i s = .next t) : t.flags = s.flags := by
  obtain ⟨_, _, _, hu, rfl⟩ := moveStep_next h
  exact (writeOp_written hu).flags

theorem exec_flags_of_jump {i : Instr} {s t : State} (hj : i.action = .jump) (h : exec i s = .next t) :
    t.flags = s.flags := by
  obtain ⟨inc, hinc⟩ := jumpIncrement_of_action hj
  obtain ⟨taken, u, he, _, hu⟩ := exec_jumpStep hinc s
  obtain ⟨next, rfl, _⟩ := jumpStep_next (he ▸ h)
  rcases hu with rfl | rfl <;> rfl

/-- Settles O53: TF, IF and DF are kept by every effect, the other flags by the shared steps of moves and jumps. -/
theorem flagsAreWrittenByArithmeticOnly : Obligations.FlagsAreWrittenByArithmeticOnly := by
  intro i s t h
  refine ⟨(exec_effect h).control, ?_⟩
  rintro (hm | hj)
  · exact moveStep_flags (exec_moveStep hm s ▸ h)
  · exact exec_flags_of_jump hj h

/-! ## Registers -/

/-- The jumps that decrement CX (R196). -/
def loopFamily (i : Instr) : Prop := ∃ inc, i = .loop inc ∨ i = .loopz inc ∨ i = .loopnz inc

/-- R190: a jump outside the loop family writes no register. -/
theorem exec_regs_of_jump {i : Instr} {s t : State} (hj : i.action = .jump) (hl : ¬ loopFamily i)
    (h : exec i s = .next t) : t.regs = s.regs := by
  cases i with
  | loop inc => exact absurd ⟨inc, .inl rfl⟩ hl
  | loopz inc => exact absurd ⟨inc, .inr (.inl rfl)⟩ hl
  | loopnz inc => exact absurd ⟨inc, .inr (.inr rfl)⟩ hl
  | jo _ | jno _ | jb _ | jnb _ | je _ | jne _ | jbe _ | ja _ | js _ | jns _ | jp _ | jnp _ | jl _ | jnl _
  | jle _ | jg _ | jcxz _ =>
    obtain ⟨_, rfl, _⟩ := jumpStep_next h
    rfl
  | _ => cases hj

/-- A register that is neither the destination nor the CX of a loop is none the instruction writes. -/
theorem exec_get16_kept {i : Instr} {s t : State} {c : BitVec 3} (h : exec i s = .next t)
    (hd : c ∉ destRegs (dst i)) (hc : c = cxCode → ¬ loopFamily i) : t.regs.get16 c = s.regs.get16 c := by
  obtain ⟨_, _, hregs⟩ := exec_writes h
  by_cases hj : i.action = .jump
  · by_cases hl : loopFamily i
    · have hcx : c ≠ cxCode := fun e => hc e hl
      exact hregs c (by simp [writtenRegs, hj, hcx])
    · rw [exec_regs_of_jump hj hl h]
  · refine hregs c ?_
    by_cases hcmp : i.action = .compare <;> simp [writtenRegs, hj, hcmp, hd]

/-- Settles O54, from the frame of every instruction. That frame lets any jump write CX; `exec_regs_of_jump` rules it
out for the jumps outside the loop family. -/
theorem registersAreWrittenOnlyAsDestinations : Obligations.RegistersAreWrittenOnlyAsDestinations := by
  intro i s t h
  constructor
  · intro c hno
    obtain ⟨hsegs, _, _⟩ := exec_writes h
    refine hsegs c fun hc => ?_
    obtain ⟨rm, hi⟩ := of_mem_destSegs hc
    exact hno rm hi
  · intro c hd hc
    refine exec_get16_kept h hd fun e hl => ?_
    obtain ⟨hloop, hloopz, hloopnz⟩ := hc e
    obtain ⟨inc, hi | hi | hi⟩ := hl
    exacts [hloop inc hi, hloopz inc hi, hloopnz inc hi]

/-! ## The pointer -/

/-- R33, R140, R160: every instruction but a jump ends at the next record. -/
theorem exec_idx_of_not_jump {i : Instr} {s t : State} (hj : i.action ≠ .jump) (h : exec i s = .next t) :
    t.idx = s.idx + 1 := by
  by_cases hm : i.action = .move
  · obtain ⟨_, _, _, _, rfl⟩ := moveStep_next (exec_moveStep hm s ▸ h)
    rfl
  · obtain ⟨_, _, _, he, _⟩ := exec_arithStep hm hj s
    obtain ⟨_, _, _, _, _, _, rfl⟩ := arithStep_next (he ▸ h)
    rfl

/-- R190, R198: a jump falls through, or is taken and ends at the boundary at its target. -/
theorem exec_idx_of_jump {i : Instr} {inc : Byte} {s t : State} (hinc : jumpIncrement i = some inc)
    (h : exec i s = .next t) (hlt : s.idx < s.store.length) :
    t.idx = s.idx + 1 ∨
      (jumpTaken s.flags s.regs.CX i ∧ (offsetOf s.store t.idx : Int) = jumpTarget s inc) := by
  obtain ⟨taken, u, he, htaken, hu⟩ := exec_jumpStep hinc s
  have hF := framed_of_jump hu
  obtain ⟨next, rfl, ⟨_, rfl⟩ | ⟨ht, hland⟩⟩ := jumpStep_next (he ▸ h)
  · exact .inl (by simp [hF.idx])
  · rw [hF.store, hF.idx] at hland
    obtain ⟨_, htarget⟩ := landing_ok hlt hland
    exact .inr ⟨htaken.mp ht, htarget⟩

/-- Settles O56, by whether the instruction is a jump. -/
theorem pointerAdvancesOrLands : Obligations.PointerAdvancesOrLands := by
  intro i s t h hlt
  obtain ⟨_, _, _, _, _, hip⟩ := exec_keeps h
  refine ⟨hip, ?_⟩
  by_cases hj : i.action = .jump
  · obtain ⟨inc, hinc⟩ := jumpIncrement_of_action hj
    exact (exec_idx_of_jump hinc h hlt).imp_right fun hland => ⟨inc, hinc, hland⟩
  · exact .inl (exec_idx_of_not_jump hj h)

/-! ## The host's inputs -/

theorem startRun_host {p : Params} {s t : State} (h : startRun p s = .next t) : t.host = s.host := by
  obtain ⟨_, _, _, ⟨_, rfl⟩ | ⟨_, rfl⟩⟩ := startRun_next h <;> simp

/-- Settles O57, by the three things a step can do. -/
theorem hostInputsNeverChange : Obligations.HostInputsNeverChange := by
  intro s t h
  obtain ⟨_, hstart⟩ | ⟨_, _, u, _, hexec, rfl⟩ | ⟨_, _, rfl⟩ := engineStep_cases h
  · exact startRun_host hstart
  · obtain ⟨hhost, _⟩ := exec_keeps hexec
    simpa using hhost
  · rfl

/-! ## The segment registers take no part -/

/-- The state with other segment registers. -/
def State.withSegs (g : Segs) (s : State) : State := { s with segs := g }

/-- What a step answers, its next state put through `f`. -/
def mapNext (f : State → State) : Host.Outcome State Fault Refusal → Host.Outcome State Fault Refusal
  | .next t => .next (f t)
  | .fault e => .fault e
  | .refused r => .refused r

/-- An operand other than a segment register. -/
def notSreg : Operand → Bool
  | .sreg _ => false
  | .reg _ _ | .mem _ _ _ | .imm _ _ | .abs _ _ | .jmp _ _ | .none => true

theorem notSreg_rmOperand (rm : Rm) (w : Width) : notSreg (rmOperand rm w) = true := by
  cases rm <;> rfl

/-- R94: only the two segment moves have a segment register as an operand, as a form's shape says. -/
theorem Form.operands_notSreg {f : Form} (h : f.shape ≠ .segmentRm) :
    notSreg f.src = true ∧ notSreg f.dst = true := by
  cases f with
  | segmentRm d sr rm => exact absurd rfl h
  | shortJump inc => exact ⟨rfl, rfl⟩
  | accumulatorAbsolute isSource w addr => cases isSource <;> exact ⟨rfl, rfl⟩
  | registerRm d w reg rm => cases d; exacts [⟨rfl, notSreg_rmOperand rm w⟩, ⟨notSreg_rmOperand rm w, rfl⟩]
  | immediateRm w data rm => exact ⟨rfl, notSreg_rmOperand rm w⟩
  | immediateRegister w data reg => exact ⟨rfl, rfl⟩

theorem form_not_segmentRm {i : Instr} (h1 : ∀ sr rm, i ≠ .movRmSr sr rm) (h2 : ∀ sr rm, i ≠ .movSrRm sr rm) :
    (form i).shape ≠ .segmentRm := by
  cases i with
  | movRmSr sr rm => exact absurd rfl (h1 sr rm)
  | movSrRm sr rm => exact absurd rfl (h2 sr rm)
  | _ => intro e; cases e

section
variable (g : Segs)

@[simp] theorem withSegs_idx (s : State) : (s.withSegs g).idx = s.idx := rfl
@[simp] theorem withSegs_store (s : State) : (s.withSegs g).store = s.store := rfl

theorem readOp_withSegs {op : Operand} (h : notSreg op = true) (s : State) :
    readOp op (s.withSegs g) = readOp op s := by
  cases op with
  | sreg c => cases h
  | reg c w => cases w <;> rfl
  | _ => rfl

theorem writeOp_withSegs {op : Operand} (h : notSreg op = true) (v : Word) (s : State) :
    writeOp op v (s.withSegs g) = (writeOp op v s).map (State.withSegs g) := by
  cases op with
  | sreg c => cases h
  | reg c w => cases w <;> rfl
  | _ => rfl

theorem retire_withSegs (i : Instr) (s t : State) (next : Nat) :
    retire i (s.withSegs g) next (t.withSegs g) = (retire i s next t).withSegs g := rfl

theorem moveStep_withSegs {i : Instr} (hs : notSreg (src i) = true) (hd : notSreg (dst i) = true) (s : State) :
    moveStep i (s.withSegs g) = mapNext (State.withSegs g) (moveStep i s) := by
  unfold moveStep
  rw [readOp_withSegs g hs]
  cases readOp (src i) s with
  | none => rfl
  | some v =>
    simp only [writeOp_withSegs g hd]
    cases writeOp (dst i) v s <;> rfl

theorem arithStep_withSegs {i : Instr} (hs : notSreg (src i) = true) (hd : notSreg (dst i) = true)
    (p : ByteArithPolicy) (op : AluOp) (wb : Bool) (w : Width) (s : State) :
    arithStep p op wb w i (s.withSegs g) = mapNext (State.withSegs g) (arithStep p op wb w i s) := by
  unfold arithStep
  rw [readOp_withSegs g hs, readOp_withSegs g hd]
  cases byteRefused p w with
  | true => rfl
  | false =>
    cases readOp (dst i) s with
    | none => rfl
    | some old =>
      cases readOp (src i) s with
      | none => rfl
      | some v =>
        cases wb with
        | false => rfl
        | true =>
          simp only [writeOp_withSegs g hd]
          cases writeOp (dst i) (alu op old v w).1 s <;> rfl

theorem jumpStep_withSegs (i : Instr) (inc : Byte) (taken : Bool) (s t : State) :
    jumpStep i inc taken (s.withSegs g) (t.withSegs g) = mapNext (State.withSegs g) (jumpStep i inc taken s t) := by
  cases taken with
  | false => rfl
  | true => cases h : landing t.store t.idx inc.toInt <;> simp [jumpStep, mapNext, h, retire_withSegs]

/-- R27, R97: an instruction without a segment register as an operand does the same whatever these hold. -/
theorem exec_withSegs {i : Instr} (h : (form i).shape ≠ .segmentRm) (s : State) :
    exec i (s.withSegs g) = mapNext (State.withSegs g) (exec i s) := by
  obtain ⟨hs, hd⟩ := Form.operands_notSreg h
  cases i with
  | movRmR _ _ _ _ | movImmRm _ _ | movImmR _ _ | movAccMem _ _ | movMemAcc _ _ | movRmSr _ _ | movSrRm _ _ =>
    exact moveStep_withSegs g hs hd s
  | addRmR _ _ _ _ | addImmRm _ _ | addImmAcc _ =>
    exact arithStep_withSegs g hs hd Config.byteArithPolicy .add true _ s
  | subRmR _ _ _ _ | subImmRm _ _ | subImmAcc _ =>
    exact arithStep_withSegs g hs hd Config.byteArithPolicy .sub true _ s
  | cmpRmR _ _ _ _ | cmpImmRm _ _ | cmpImmAcc _ =>
    exact arithStep_withSegs g hs hd Config.byteArithPolicy .sub false _ s
  | loopnz _ | loopz _ | loop _ => exact jumpStep_withSegs g _ _ _ s (decCX s)
  | jo _ | jno _ | jb _ | jnb _ | je _ | jne _ | jbe _ | ja _ | js _ | jns _ | jp _ | jnp _ | jl _ | jnl _
  | jle _ | jg _ | jcxz _ => exact jumpStep_withSegs g _ _ _ s s

end

/-- Settles O27: exec commutes with the exchange of the segment registers; exchanging them for themselves shows that
the step keeps them. -/
theorem segmentRegistersTakeNoPart : Obligations.SegmentRegistersTakeNoPart := by
  intro i s g h1 h2
  have hex := fun g => exec_withSegs g (form_not_segmentRm h1 h2) s
  refine ⟨fun t ht => ⟨?_, ?_⟩, fun f hf => ?_⟩
  · simpa [State.withSegs, mapNext, ht] using hex g
  · have hself : exec i s = mapNext (State.withSegs s.segs) (exec i s) := hex s.segs
    rw [ht] at hself
    injection hself with hself
    rw [hself, State.withSegs]
  · simpa [State.withSegs, mapNext, hf] using hex g

end Sys2Proof.Machine
end

section
/-! The state at reset, the byte registers, the packed flags and the report the host reads. -/

namespace Sys2Proof.Machine

/-! ## Reset -/

/-- R42: every general register is zero at reset. -/
theorem zero_get16 (c : BitVec 3) : Regs.zero.get16 c = 0 := by
  revert c; decide

/-- R42: every segment register is zero at reset. -/
theorem zero_segs_get (c : BitVec 2) : Segs.zero.get c = 0 := by
  revert c; decide

/-- Settles O14, piece by piece; memory through `zero_read`. -/
theorem resetState : Obligations.ResetState :=
  ⟨zero_get16, zero_segs_get, by decide, zero_read, rfl, rfl, rfl, rfl, rfl, rfl⟩

/-- R280: a state that has just been reset, whatever the host's inputs, meets the invariant. -/
theorem inv_atRunStart (h : HostInputs) : Inv (State.atRunStart h) where
  mem := zero_wf
  idx := Nat.le_refl _
  ip := rfl
  controlFlags := ⟨rfl, rfl, rfl⟩
  running := by simp
  halted := by simp
  faultNone _ := rfl

/-- StoreIsDecoded speaks of running and halted engines only, and an engine at run start is neither. -/
theorem storeIsDecoded_atRunStart (p : Params) (h : HostInputs) : StoreIsDecoded p (State.atRunStart h) := by
  simp [StoreIsDecoded]

/-- Settles O15: reset is the run start with no host inputs. -/
theorem resetMeetsTheInvariant : Obligations.ResetMeetsTheInvariant :=
  ⟨inv_atRunStart .none, fun p => storeIsDecoded_atRunStart p .none⟩

/-! ## Byte registers -/

/-- R23: the codes below 4 are the low halves of the register of the same code, and the code 4 above is the high half
of the same register. -/
theorem low_code : ∀ c : BitVec 3, c.toNat < 4 →
    parent c = c ∧ isHigh c = false ∧ parent (c + 4) = c ∧ isHigh (c + 4) = true := by decide

/-- R23: the codes from 4 on are the high halves of the register 4 below. -/
theorem high_code : ∀ i : BitVec 3, 4 ≤ i.toNat → parent i = i - 4 ∧ isHigh i = true := by decide

theorem parent_toNat : ∀ i : BitVec 3, (parent i).toNat = i.toNat % 4 := by decide

theorem get8_low {i : BitVec 3} (h : i.toNat < 4) (r : Regs) : r.get8 i = loByte (r.get16 i) := by
  obtain ⟨hp, hh, _, _⟩ := low_code i h
  simp [Regs.get8, hp, hh]

theorem get8_high {i : BitVec 3} (h : 4 ≤ i.toNat) (r : Regs) : r.get8 i = hiByte (r.get16 (i - 4)) := by
  obtain ⟨hp, hh⟩ := high_code i h
  simp [Regs.get8, hp, hh]

/-- R24: a 16-bit write sets both halves. -/
theorem get8_set16 {c : BitVec 3} (h : c.toNat < 4) (r : Regs) (x : Word) :
    (r.set16 c x).get8 c = loByte x ∧ (r.set16 c x).get8 (c + 4) = hiByte x := by
  obtain ⟨hp, hh, hp', hh'⟩ := low_code c h
  constructor
  · simp [Regs.get8, hp, hh]
  · rw [Regs.get8, hp', hh']
    simp

/-- Settles O22, from the reads after writes of the register file. -/
theorem byteRegistersAreHalvesOfTheirParents : Obligations.ByteRegistersAreHalvesOfTheirParents := by
  intro r i v
  refine ⟨fun h => get8_low h r, fun h => get8_high h r, get8_set8_same r i v,
    fun j hj => get8_set8_other r i j v hj, fun c hc => get16_set8_other r i c v ?_,
    fun c x hc => get8_set16 hc r x⟩
  intro e
  exact hc (by rw [e, parent_toNat])

/-! ## The packed flags -/

/-- A flag placed at bit `k` of the word stands there and nowhere else. -/
theorem getLsbD_flagBit (b : Bool) {k : Nat} (hk : k < 16) (j : Nat) :
    (flagBit b k).getLsbD j = (b && decide (j = k)) := by
  cases b with
  | false => simp [flagBit]
  | true =>
    have h := BitVec.getLsbD_twoPow (w := 16) k j
    simpa [flagBit, BitVec.twoPow, hk, eq_comm] using h

/-- R31: bit `j` of the packed word is the flag whose place is `j`. -/
theorem getLsbD_pack (f : Flags) (j : Nat) : f.pack.getLsbD j =
    ((f.CF && decide (j = 0)) || (f.PF && decide (j = 2)) || (f.AF && decide (j = 4)) || (f.ZF && decide (j = 6)) ||
      (f.SF && decide (j = 7)) || (f.TF && decide (j = 8)) || (f.IF && decide (j = 9)) ||
      (f.DF && decide (j = 10)) || (f.OF && decide (j = 11))) := by
  simp [Flags.pack, getLsbD_flagBit]

/-- Settles O23, bit by bit. -/
theorem packedFlagsWord : Obligations.PackedFlagsWord := by
  intro f
  simp only [getLsbD_pack]
  simp

/-! ## The report -/

theorem outputOffset_toNat {n : Nat} (h : n < 65536) : (outputOffset n).toNat = n := by
  simp [outputOffset, h]

theorem report_final {s : State} (h : s.runState ≠ .aborted) : (report s).final = some (finalState s) := by
  unfold report
  cases hr : s.runState with
  | aborted => exact absurd hr h
  | _ => rfl

/-- Settles O59: the final values are those of the state, and the rest of the report is read off it. -/
theorem reportTheHostReads : Obligations.ReportTheHostReads := by
  refine ⟨fun s h => ?_, fun s => ?_, fun off id idx n bs k k' fk txt inc => ?_⟩
  · exact ⟨finalState s, report_final h, rfl, rfl, rfl, rfl, rfl, rfl, rfl, outputOffset_toNat⟩
  · exact ⟨rfl, rfl, rfl, fun h => congrArg faultCode h, fun f h => congrArg faultCode h⟩
  · exact ⟨rfl, rfl, rfl, rfl, rfl, rfl, rfl, rfl, rfl⟩

end Sys2Proof.Machine
end

section
/-! Data memory: what a byte and a word read and write (R51, R52), that canonical memories are told apart by their
reads, and where an executed instruction changes memory. -/

namespace Sys2Proof.Machine

/-! ## Byte order and wrap (R51, R52) -/

/-- A word write reads back as its low byte at its address and its high byte at the next, which `next_ne` keeps
apart at 0xFFFF too. -/
theorem read_memWrite_w16 {m : Memory} (hw : m.wf = true) (a v : Word) :
    (memWrite m a .w16 v).read a = loByte v ∧ (memWrite m a .w16 v).read (a + 1) = hiByte v := by
  constructor
  · exact (read_write_other _ _ _ _ (next_ne a).symm).trans (read_write_same m hw a _)
  · exact read_write_same _ (write_wf m hw a _) _ _

/-- Settles O24: the bytes a write names by `read_write_same`, the others by the frame of a write. -/
theorem memoryIsLittleEndianAndWraps : Obligations.MemoryIsLittleEndianAndWraps := by
  intro m a v hw
  obtain ⟨hlo, hhi⟩ := read_memWrite_w16 hw a v
  have hframe8 : ∀ b, b ≠ a → (memWrite m a .w8 v).read b = m.read b :=
    fun b hb => memWrite_frame m a .w8 v b (by simpa [storedBytes] using hb)
  have hframe16 : ∀ b, b ≠ a → b ≠ a + 1 → (memWrite m a .w16 v).read b = m.read b :=
    fun b hb hb' => memWrite_frame m a .w16 v b (by simpa [storedBytes, hb] using hb')
  exact ⟨rfl, rfl, read_write_same m hw a _, hframe8, hlo, hhi, hframe16, rfl⟩

/-! ## Canonical memories are determined by their reads -/

theorem cellsWf_cons {lo : Nat} {c : Host.Cell} {cs : List Host.Cell} : cellsWf lo (c :: cs) = true ↔
    lo ≤ c.1 ∧ c.1 < Config.memSize ∧ c.2 ≠ unlistedByte ∧ cellsWf (c.1 + 1) cs = true := by
  simp [cellsWf, and_assoc]

@[simp] theorem cellsRead_head (c : Host.Cell) (cs : List Host.Cell) : cellsRead c.1 (c :: cs) = c.2 := by
  simp [cellsRead]

theorem cellsRead_cons_other {a : Nat} {c : Host.Cell} (h : c.1 ≠ a) (cs : List Host.Cell) :
    cellsRead a (c :: cs) = cellsRead a cs := by
  simp [cellsRead, h]

/-- A list that holds a listed byte at an address is canonical above no higher bound: below its bound it reads the
unlisted byte. -/
theorem bound_le_of_listed {lo : Nat} {c : Host.Cell} {cs : List Host.Cell} (hw : cellsWf lo cs = true)
    (hc : c.2 ≠ unlistedByte) (hread : c.2 = cellsRead c.1 cs) : lo ≤ c.1 := by
  by_contra hlt
  exact hc (hread.trans (cellsRead_below (Nat.not_le.mp hlt) cs hw))

/-- Canonical lists that read alike start at the same cell, for neither can list an address below the other's first;
their tails then read alike, the unlisted byte up to that cell. -/
theorem cells_ext : ∀ {lo lo' : Nat} {cs cs' : List Host.Cell}, cellsWf lo cs = true → cellsWf lo' cs' = true →
    (∀ a, a < Config.memSize → cellsRead a cs = cellsRead a cs') → cs = cs'
  | _, _, [], [], _, _, _ => rfl
  | _, _, [], c :: _, _, hw', hread => by
    obtain ⟨_, hlt, hc, _⟩ := cellsWf_cons.mp hw'
    exact absurd (by simpa [cellsRead] using (hread c.1 hlt).symm) hc
  | _, _, c :: _, [], hw, _, hread => by
    obtain ⟨_, hlt, hc, _⟩ := cellsWf_cons.mp hw
    exact absurd (by simpa [cellsRead] using hread c.1 hlt) hc
  | _, _, c :: cs, c' :: cs', hw, hw', hread => by
    obtain ⟨_, hlt, hc, htail⟩ := cellsWf_cons.mp hw
    obtain ⟨_, hlt', hc', htail'⟩ := cellsWf_cons.mp hw'
    have haddr : c.1 = c'.1 := by
      apply Nat.le_antisymm
      · exact bound_le_of_listed (cellsWf_cons.mpr ⟨le_rfl, hlt, hc, htail⟩) hc' (by simp [hread c'.1 hlt'])
      · exact bound_le_of_listed (cellsWf_cons.mpr ⟨le_rfl, hlt', hc', htail'⟩) hc (by simp [← hread c.1 hlt])
    have hbyte : c.2 = c'.2 := by
      have := hread c.1 hlt
      rwa [cellsRead_head, haddr, cellsRead_head] at this
    have hrest : ∀ a, a < Config.memSize → cellsRead a cs = cellsRead a cs' := by
      intro a ha
      by_cases hne : c.1 = a
      · rw [cellsRead_below (by omega) cs htail, cellsRead_below (by omega) cs' htail']
      · have := hread a ha
        rwa [cellsRead_cons_other hne, cellsRead_cons_other (haddr ▸ hne)] at this
    rw [Prod.ext haddr hbyte, cells_ext htail htail' hrest]

theorem memory_ext {m m' : Memory} (hw : m.wf = true) (hw' : m'.wf = true) (h : ∀ a, m.read a = m'.read a) :
    m = m' := by
  have hcells : m.cells = m'.cells := cells_ext hw hw' fun a ha => by
    have hmod : a % 65536 = a := Nat.mod_eq_of_lt ha
    simpa [Memory.read, hmod] using h (BitVec.ofNat 16 a)
  cases m; cases m'
  exact congrArg Memory.mk hcells

/-- Settles O25, by `memWrite_wf` and `memory_ext`. -/
theorem memoryIsCanonical : Obligations.MemoryIsCanonical :=
  ⟨fun m a w v hw => memWrite_wf m hw a w v, fun _ _ => memory_ext⟩

/-! ## Where an instruction changes memory -/

theorem not_mem_writtenBytes {i : Instr} {r : Regs} {a : Word}
    (h : a ∉ operandStores r (dst i) ∨ i.action = .compare ∨ i.action = .jump) : a ∉ writtenBytes i r := by
  unfold writtenBytes
  split
  · exact List.not_mem_nil
  · rename_i hwrites
    exact h.resolve_right hwrites

/-- Settles O55, from the frame of every instruction. -/
theorem memoryIsWrittenOnlyAtTheDestination : Obligations.MemoryIsWrittenOnlyAtTheDestination := by
  intro i s t h a ha
  obtain ⟨_, hmem, _⟩ := exec_writes h
  exact hmem a (not_mem_writtenBytes ha)

end Sys2Proof.Machine
end

section
/-! The two directions of the encoding for every instruction, the bytes it writes and their number. -/

namespace Sys2Proof.Machine

/-! ## Decoding what the encoder writes -/

/-- Settles O2, by the format of the instruction. -/
theorem decodeOfEncodeIsIdentity : Obligations.DecodeOfEncodeIsIdentity := by
  intro i rest hwf
  cases i with
  | movRmR d w reg rm | addRmR d w reg rm | subRmR d w reg rm | cmpRmR d w reg rm =>
    exact decode_RM rfl rfl rfl (by decide) (by decide) (by decide) (fun _ => rfl) hwf rest
  | movImmRm rm imm => exact decode_movImmRm rm imm hwf rest
  | movImmR reg imm => exact decode_movImmR reg imm rest
  | movAccMem w addr => exact decode_movAccMem w addr rest
  | movMemAcc w addr => exact decode_movMemAcc w addr rest
  | movRmSr sr rm | movSrRm sr rm =>
    exact decode_SR rfl rfl rfl (by decide) (by decide) (by decide) (fun _ => rfl) hwf rest
  | addImmRm rm imm => exact decode_IMMRM (sub := 0) rfl rfl rfl (by decide) (fun _ => rfl) hwf rest
  | subImmRm rm imm => exact decode_IMMRM (sub := 5) rfl rfl rfl (by decide) (fun _ => rfl) hwf rest
  | cmpImmRm rm imm => exact decode_IMMRM (sub := 7) rfl rfl rfl (by decide) (fun _ => rfl) hwf rest
  | addImmAcc imm | subImmAcc imm | cmpImmAcc imm =>
    exact decode_ACCIMM rfl rfl rfl (by decide) (by decide) (fun _ => rfl) rest
  | jo inc | jno inc | jb inc | jnb inc | je inc | jne inc | jbe inc | ja inc
  | js inc | jns inc | jp inc | jnp inc | jl inc | jnl inc | jle inc | jg inc
  | loopnz inc | loopz inc | loop inc | jcxz inc =>
    exact decode_JMP rfl rfl rfl (by decide) (fun _ => rfl) rest

/-! ## Encoding what the decoder reads -/

/-- What a decode answers is well formed, and its encoding stands at the start of the bytes read. -/
theorem decodeInstr_readBack {bs : List Byte} {i : Instr} (h : decodeInstr bs = .ok i) : readBack bs i := by
  obtain ⟨e, F₀, F, hmem, hmatch, h₀, h₁, hi⟩ := decode_stages h
  obtain ⟨row, -, rfl⟩ := List.mem_map.mp hmem
  cases row with
  | movRmR _ _ _ _ | addRmR _ _ _ _ | subRmR _ _ _ _ | cmpRmR _ _ _ _ =>
    exact inv_RM hmatch.1 h₀ h₁ hi (fun _ _ _ _ => rfl) (fun _ _ _ _ => rfl) (fun _ _ _ _ => rfl) (by decide)
  | movImmRm _ _ => exact inv_movImmRm rfl hmatch h₀ h₁ hi
  | movImmR _ _ => exact inv_movImmR rfl hmatch h₀ h₁ hi
  | movAccMem _ _ => exact inv_ACCMEM rfl (.inl ⟨rfl, rfl⟩) hmatch h₀ h₁ hi
  | movMemAcc _ _ => exact inv_ACCMEM rfl (.inr ⟨rfl, rfl⟩) hmatch h₀ h₁ hi
  | movRmSr _ _ =>
    exact inv_SR (d := true) hmatch h₀ h₁ hi (fun _ _ => rfl) (fun _ _ => rfl) (by decide) (fun _ _ => rfl)
  | movSrRm _ _ =>
    exact inv_SR (d := false) hmatch h₀ h₁ hi (fun _ _ => rfl) (fun _ _ => rfl) (by decide) (fun _ _ => rfl)
  | addImmRm _ _ =>
    exact inv_IMMRM (sub := 0) hmatch h₀ h₁ hi (fun _ _ => rfl) (fun _ _ => rfl) (fun _ _ => rfl)
  | subImmRm _ _ =>
    exact inv_IMMRM (sub := 5) hmatch h₀ h₁ hi (fun _ _ => rfl) (fun _ _ => rfl) (fun _ _ => rfl)
  | cmpImmRm _ _ =>
    exact inv_IMMRM (sub := 7) hmatch h₀ h₁ hi (fun _ _ => rfl) (fun _ _ => rfl) (fun _ _ => rfl)
  | addImmAcc _ | subImmAcc _ | cmpImmAcc _ =>
    exact inv_ACCIMM hmatch h₀ h₁ hi (fun _ => rfl) (fun _ => rfl) (fun _ => rfl) (by decide)
  | jo _ | jno _ | jb _ | jnb _ | je _ | jne _ | jbe _ | ja _ | js _ | jns _ | jp _ | jnp _ | jl _ | jnl _
  | jle _ | jg _ | loopnz _ | loopz _ | loop _ | jcxz _ =>
    exact inv_JMP hmatch h₀ h₁ hi (fun _ => rfl) (fun _ => rfl) (fun _ => rfl)

/-- Settles O3, from what every format reads. -/
theorem encodeOfDecodeIsIdentity : Obligations.EncodeOfDecodeIsIdentity := by
  intro bs i h
  obtain ⟨hwf, rest, rfl⟩ := decodeInstr_readBack h
  refine ⟨hwf, ?_, ?_⟩
  · simp [encode_length]
  · simp [← encode_length]

/-! ## The length of every format -/

/-- R84: the displacement bytes of an operand that has an encoding. -/
theorem dispLength_eq_rmLength {rm : Rm} (hwf : rm.wf = true) : dispLength rm.mod rm.code = rmLength rm := by
  rcases rm with r | a | ⟨b, _ | v | v⟩
  · rfl
  · rfl
  · cases b with
    | bp => cases hwf
    | _ => rfl
  · cases b <;> rfl
  · cases b <;> rfl

/-- R88: an instruction that has an encoding is as long as its format says. -/
theorem len_eq_lengthByFormat {i : Instr} (hwf : i.wf = true) : i.len = lengthByFormat i := by
  cases i with
  | movRmR _ _ _ rm | addRmR _ _ _ rm | subRmR _ _ _ rm | cmpRmR _ _ _ rm | movRmSr _ rm | movSrRm _ rm =>
    exact congrArg (2 + ·) (dispLength_eq_rmLength hwf)
  | movImmRm rm imm =>
    rw [dataBytes_imm, dispLength_eq_rmLength hwf]
    cases imm <;> rfl
  | addImmRm rm imm | subImmRm rm imm | cmpImmRm rm imm =>
    refine (dataBytes_arith imm rm).trans ?_
    rw [dispLength_eq_rmLength hwf]
    cases imm <;> rfl
  | movImmR _ imm | addImmAcc imm | subImmAcc imm | cmpImmAcc imm => cases imm <;> rfl
  | _ => rfl

theorem rmLength_le (rm : Rm) : rmLength rm ≤ 2 := by
  unfold rmLength
  split <;> omega

theorem immLength_bounds (imm : Imm) : 1 ≤ immLength imm ∧ immLength imm ≤ 2 := by
  cases imm <;> simp [immLength]

theorem arithImmLength_bounds (imm : ArithImm) : 1 ≤ arithImmLength imm ∧ arithImmLength imm ≤ 2 := by
  cases imm <;> simp [arithImmLength]

/-- R88: every row of the length table is between 2 and 6. -/
theorem lengthByFormat_bounds (i : Instr) : 2 ≤ lengthByFormat i ∧ lengthByFormat i ≤ 6 := by
  cases i with
  | movRmR _ _ _ rm | addRmR _ _ _ rm | subRmR _ _ _ rm | cmpRmR _ _ _ rm | movRmSr _ rm | movSrRm _ rm =>
    have := rmLength_le rm
    simp only [lengthByFormat]
    omega
  | movImmRm rm imm =>
    have := rmLength_le rm
    have := immLength_bounds imm
    simp only [lengthByFormat]
    omega
  | addImmRm rm imm | subImmRm rm imm | cmpImmRm rm imm =>
    have := rmLength_le rm
    have := arithImmLength_bounds imm
    simp only [lengthByFormat]
    omega
  | movImmR _ imm | addImmAcc imm | subImmAcc imm | cmpImmAcc imm =>
    have := immLength_bounds imm
    simp only [lengthByFormat]
    omega
  | _ => simp [lengthByFormat]

/-- Settles O4, from the length of every format and the bounds of the table. -/
theorem lengthIsThatOfTheFormat : Obligations.LengthIsThatOfTheFormat := by
  intro i hwf
  have hlen := len_eq_lengthByFormat hwf
  have hbounds := lengthByFormat_bounds i
  rw [encode_length, hlen]
  exact ⟨rfl, rfl, hbounds⟩

/-! ## The bytes of every format -/

/-- The bytes of MOV_IMM_RM (R72, R86). -/
theorem encode_layout_movImmRm {rm : Rm} (imm : Imm) (hwf : rm.wf = true) :
    encode (.movImmRm rm imm) = layout (.movImmRm rm imm) := by
  have h : ∀ w : Bool, accByte 0x63 w = 0b1100011#7 ++ BitVec.ofBool w := by decide
  obtain ⟨htail, hw⟩ := immLayout_eq imm
  rw [encode_movImmRm, h, htail, hw, layout, ← rmLayout_eq _ _ hwf]
  rfl

/-- The bytes of format IMMREG (R72, R86). -/
theorem encode_layout_movImmR (reg : BitVec 3) (imm : Imm) :
    encode (.movImmR reg imm) = layout (.movImmR reg imm) := by
  have h : ∀ (w : Bool) (reg : BitVec 3), immRegByte w reg = 0b1011#4 ++ BitVec.ofBool w ++ reg := by decide
  obtain ⟨htail, hw⟩ := immLayout_eq imm
  rw [encode_movImmR, h, htail, hw, layout]

/-- The encoder writes the bytes of the formats (R72, R82). -/
theorem encode_eq_layout {i : Instr} (hwf : i.wf = true) : encode i = layout i := by
  cases i with
  | movRmR d w reg rm | addRmR d w reg rm | subRmR d w reg rm | cmpRmR d w reg rm =>
    exact encode_layoutRM _ rfl rfl hwf (by decide)
  | movImmRm rm imm => exact encode_layout_movImmRm imm hwf
  | movImmR reg imm => exact encode_layout_movImmR reg imm
  | movAccMem w addr => rw [encode_movAccMem]; cases w <;> rfl
  | movMemAcc w addr => rw [encode_movMemAcc]; cases w <;> rfl
  | movRmSr sr rm => rw [encode_SR (d := true) rfl rfl (by decide), rmLayout_eq _ _ hwf]; rfl
  | movSrRm sr rm => rw [encode_SR (d := false) rfl rfl (by decide), rmLayout_eq _ _ hwf]; rfl
  | addImmRm rm imm | subImmRm rm imm | cmpImmRm rm imm => exact encode_layoutIMMRM _ rfl rfl hwf
  | addImmAcc imm | subImmAcc imm | cmpImmAcc imm => exact encode_layoutACCIMM _ rfl rfl (by decide)
  | jo inc | jno inc | jb inc | jnb inc | je inc | jne inc | jbe inc | ja inc
  | js inc | jns inc | jp inc | jnp inc | jl inc | jnl inc | jle inc | jg inc
  | loopnz inc | loopz inc | loop inc | jcxz inc => exact encode_JMP rfl rfl

/-- Settles O60: the names by the row of each instruction, the bytes by its format. -/
theorem encodingIsTheLayoutOfTheFormats : Obligations.EncodingIsTheLayoutOfTheFormats :=
  fun i => ⟨by cases i <;> rfl, encode_eq_layout⟩

end Sys2Proof.Machine
end

section
/-! The opcode matcher: no two descriptors match one byte sequence, and what no descriptor matches. -/

namespace Sys2Proof.Machine

/-! ## What a match asks of its byte -/

/-- Whether a match accepts the byte at its location (R68). -/
def accepts (m : OpcodeMatch) (b : Byte) : Bool :=
  (b >>> m.location.shiftRight) &&& m.location.mask == m.expectedValue

theorem holds_of_byteAt {m : OpcodeMatch} {bs : List Byte} {b : Byte}
    (h : byteAt bs m.location.byteIndex = .ok b) : m.holds bs = .ok (accepts m b) := by
  simp [OpcodeMatch.holds, BitField.extract, h, accepts, bind, Except.bind, pure, Except.pure]

/-- A match that holds accepts the byte at its location. -/
theorem accepts_of_holds {m : OpcodeMatch} {bs : List Byte} (h : m.holds bs = .ok true) :
    ∃ b, byteAt bs m.location.byteIndex = .ok b ∧ accepts m b = true := by
  obtain ⟨_, hv, _⟩ := bind_ok h
  obtain ⟨b, hb, _⟩ := bind_ok hv
  rw [holds_of_byteAt hb] at h
  injection h with h
  exact ⟨b, hb, h⟩

/-! ## At most one descriptor matches -/

/-- The bits a match looks at, in place. -/
def bitsSeen (m : OpcodeMatch) : Byte := m.location.mask <<< m.location.shiftRight

/-- The bits a match asks for, in place. -/
def bitsAsked (m : OpcodeMatch) : Byte := m.expectedValue <<< m.location.shiftRight

theorem and_bitsSeen_of_accepts {m : OpcodeMatch} {b : Byte} (h : accepts m b = true) :
    b &&& bitsSeen m = bitsAsked m := by
  have hv : (b >>> m.location.shiftRight) &&& m.location.mask = m.expectedValue := by
    simpa [accepts] using h
  unfold bitsSeen bitsAsked
  rw [← hv]
  ext k hk
  by_cases hlt : k < m.location.shiftRight
  · simp [hlt]
  · simp [hlt, Nat.add_sub_cancel' (Nat.not_lt.mp hlt), hk]

/-- Two matches on the same byte that ask for different values of a bit both look at. -/
def exclude (m m' : OpcodeMatch) : Bool :=
  m.location.byteIndex == m'.location.byteIndex && bitsAsked m &&& bitsSeen m' != bitsAsked m' &&& bitsSeen m

theorem not_exclude {m m' : OpcodeMatch} {bs : List Byte} (h : m.holds bs = .ok true) (h' : m'.holds bs = .ok true) :
    exclude m m' = false := by
  obtain ⟨b, hb, hacc⟩ := accepts_of_holds h
  obtain ⟨b', hb', hacc'⟩ := accepts_of_holds h'
  by_cases hidx : m.location.byteIndex = m'.location.byteIndex
  · have hbb : b = b' := by
      rw [hidx, hb'] at hb
      exact (Except.ok.inj hb).symm
    subst hbb
    have hbits : bitsAsked m &&& bitsSeen m' = bitsAsked m' &&& bitsSeen m := by
      rw [← and_bitsSeen_of_accepts hacc, ← and_bitsSeen_of_accepts hacc', BitVec.and_assoc, BitVec.and_assoc,
        BitVec.and_comm (bitsSeen m)]
    simp [exclude, hbits]
  · simp [exclude, hidx]

/-- Two descriptors that no byte sequence matches both, by their primary or by their secondary matches. -/
def descriptorsExclude (e e' : Descriptor) : Bool :=
  exclude e.primaryMatch e'.primaryMatch ||
    match e.secondaryMatch, e'.secondaryMatch with
    | some m, some m' => exclude m m'
    | _, _ => false

theorem not_descriptorsExclude {e e' : Descriptor} {bs : List Byte} (h : fullMatch e bs) (h' : fullMatch e' bs) :
    descriptorsExclude e e' = false := by
  obtain ⟨hp, hs⟩ := h
  obtain ⟨hp', hs'⟩ := h'
  unfold descriptorsExclude
  rw [not_exclude hp hp']
  split
  · rename_i m m' hm hm'
    simpa using not_exclude (hs m hm) (hs' m' hm')
  · rfl

/-- R71, R74: any two rows of the catalog exclude each other. -/
theorem catalog_excludes : catalog.Pairwise (fun e e' => descriptorsExclude e e' = true) := by decide

/-- Settles O6: two different rows exclude each other. -/
theorem atMostOneDescriptorMatches : Obligations.AtMostOneDescriptorMatches := by
  intro bs e e' he he' h h'
  have hpair : catalog.Pairwise (fun x y => fullMatch x bs → fullMatch y bs → False) :=
    catalog_excludes.imp fun hxy hx hy => by simp [not_descriptorsExclude hx hy] at hxy
  have hsymm : Std.Symm (fun x y => fullMatch x bs → fullMatch y bs → False) := ⟨fun _ _ hxy hy hx => hxy hx hy⟩
  by_contra hne
  exact hpair.forall he he' hne h h'

/-! ## Bytes no descriptor matches -/

/-- R77: the scan finds nothing where every row's primary match, or the secondary match after it, is refused. -/
theorem matchIn_refused {bs : List Byte} : ∀ {es : List Descriptor},
    (∀ e ∈ es, e.primaryMatch.holds bs = .ok false ∨
      e.primaryMatch.holds bs = .ok true ∧ ∃ m, e.secondaryMatch = some m ∧ m.holds bs = .ok false) →
    matchIn bs es = .error (.unmatchedOpcode (bs.take maxLength))
  | [], _ => rfl
  | e :: es, h => by
    have ih := matchIn_refused (fun x hx => h x (List.mem_cons_of_mem _ hx))
    unfold matchIn
    obtain hp | ⟨hp, m, hm, hs⟩ := h e List.mem_cons_self
    · simpa [hp, bind, Except.bind] using ih
    · simpa [hp, hm, hs, bind, Except.bind] using ih

theorem decodeInstr_of_unmatched {bs : List Byte} {x : DecodeError} (h : matchOpcode bs = .error x) :
    decodeInstr bs = .error x := by
  simp [decodeInstr, h, bind, Except.bind]

/-- R74: primary matches are on byte 0 and secondary matches on byte 1. -/
theorem catalog_byteIndex : ∀ e ∈ catalog, e.primaryMatch.location.byteIndex = 0 ∧
    ∀ m ∈ e.secondaryMatch, m.location.byteIndex = 1 := by decide

theorem primary_holds {e : Descriptor} (he : e ∈ catalog) (b : Byte) (bs : List Byte) :
    e.primaryMatch.holds (b :: bs) = .ok (accepts e.primaryMatch b) := by
  refine holds_of_byteAt ?_
  rw [(catalog_byteIndex e he).1]
  rfl

theorem secondary_holds {e : Descriptor} {m : OpcodeMatch} (he : e ∈ catalog) (hm : e.secondaryMatch = some m)
    (b c : Byte) (bs : List Byte) : m.holds (b :: c :: bs) = .ok (accepts m c) := by
  refine holds_of_byteAt ?_
  rw [(catalog_byteIndex e he).2 m hm]
  rfl

/-- R75: a first byte a row's primary match accepts is in the opcode map. -/
theorem mappedFirstByte_of_accepts : ∀ e ∈ catalog, ∀ b : Byte, accepts e.primaryMatch b = true →
    mappedFirstByte b.toNat := by
  unfold mappedFirstByte
  decide

/-- The secondary matches that stand after a first byte, row by row. -/
def secondaries (b : Byte) : List (Option OpcodeMatch) :=
  (catalog.filter (fun e => accepts e.primaryMatch b)).map (·.secondaryMatch)

/-- R73, R75: after 0x80 to 0x83 the middle field of byte 1 is 0, 5 or 7. -/
theorem secondaries_arithImm : ∀ b : Byte, 0x80 ≤ b.toNat ∧ b.toNat ≤ 0x83 →
    secondaries b = [some (opcodeMatch 1 3 7 0), some (opcodeMatch 1 3 7 5), some (opcodeMatch 1 3 7 7)] := by
  decide

/-- R73, R75: after 0x8C and 0x8E bit 5 of byte 1 is 0. -/
theorem secondaries_segment : ∀ b : Byte, b.toNat = 0x8C ∨ b.toNat = 0x8E →
    secondaries b = [some (opcodeMatch 1 5 1 0)] := by decide

/-- R73, R75: after 0xC6 and 0xC7 the middle field of byte 1 is 0. -/
theorem secondaries_movImm : ∀ b : Byte, b.toNat = 0xC6 ∨ b.toNat = 0xC7 →
    secondaries b = [some (opcodeMatch 1 3 7 0)] := by decide

theorem middleField_toNat : ∀ c : Byte, ((c >>> 3) &&& 7).toNat = c.toNat / 8 % 8 := by decide

theorem bit5_toNat : ∀ c : Byte, ((c >>> 5) &&& 1).toNat = c.toNat / 32 % 2 := by decide

theorem middleField_refused {c v : Byte} (h : c.toNat / 8 % 8 ≠ v.toNat) :
    accepts (opcodeMatch 1 3 7 v) c = false := by
  have hne : (c >>> 3) &&& 7 ≠ v := fun he => h (by rw [← he, middleField_toNat])
  simpa [accepts, opcodeMatch] using hne

theorem bit5_refused {c : Byte} (h : c.toNat / 32 % 2 = 1) : accepts (opcodeMatch 1 5 1 0) c = false := by
  have hne : (c >>> 5) &&& 1 ≠ 0 := fun he => by
    have := bit5_toNat c
    rw [he, h] at this
    cases this
  simpa [accepts, opcodeMatch] using hne

/-- R75: every secondary match after the first byte refuses a refused second byte. -/
theorem secondaries_refuse {b c : Byte} (h : refusedSecondByte b.toNat c.toNat) :
    ∀ s ∈ secondaries b, ∃ m, s = some m ∧ accepts m c = false := by
  obtain ⟨hlo, hhi, h0, h5, h7⟩ | ⟨hb, h1⟩ | ⟨hb, h0⟩ := h
  · rw [secondaries_arithImm b ⟨hlo, hhi⟩]
    simpa using ⟨middleField_refused (v := 0) h0, middleField_refused (v := 5) h5, middleField_refused (v := 7) h7⟩
  · rw [secondaries_segment b hb]
    simpa using bit5_refused h1
  · rw [secondaries_movImm b hb]
    simpa using middleField_refused (v := 0) h0

theorem matchOpcode_unmapped {b : Byte} (bs : List Byte) (h : ¬mappedFirstByte b.toNat) :
    matchOpcode (b :: bs) = .error (.unmatchedOpcode ((b :: bs).take maxLength)) := by
  refine matchIn_refused fun e he => .inl ?_
  rw [primary_holds he]
  cases hacc : accepts e.primaryMatch b with
  | false => rfl
  | true => exact absurd (mappedFirstByte_of_accepts e he b hacc) h

theorem matchOpcode_refused {b c : Byte} (bs : List Byte) (h : refusedSecondByte b.toNat c.toNat) :
    matchOpcode (b :: c :: bs) = .error (.unmatchedOpcode ((b :: c :: bs).take maxLength)) := by
  refine matchIn_refused fun e he => ?_
  rw [primary_holds he]
  cases hacc : accepts e.primaryMatch b with
  | false => exact .inl rfl
  | true =>
    have hmem : e.secondaryMatch ∈ secondaries b :=
      List.mem_map_of_mem (List.mem_filter.mpr ⟨he, hacc⟩)
    obtain ⟨m, hm, hc⟩ := secondaries_refuse h _ hmem
    exact .inr ⟨rfl, m, hm, by rw [secondary_holds he hm, hc]⟩

/-- Settles O7: no primary match accepts an unmapped first byte, and no secondary match a refused second byte. -/
theorem bytesOutsideTheMapAreUnmatched : Obligations.BytesOutsideTheMapAreUnmatched :=
  ⟨fun _ bs h => decodeInstr_of_unmatched (matchOpcode_unmapped bs h),
    fun _ _ bs h => decodeInstr_of_unmatched (matchOpcode_refused bs h)⟩

end Sys2Proof.Machine
end

section
/-! Which bytes a decode reads: at most six, and where one of them is missing the answer is TRUNCATED. -/

namespace Sys2Proof.Machine

/-! ## Reading two byte sequences alike -/

/-- An answer `x` beside another answer `y`: the same, or, where `cut` allows it, that a byte is missing (R65). -/
def SameOrCut {α : Type} (cut : Prop) (x y : Except DecodeError α) : Prop := x = y ∨ cut ∧ x = .error .truncated

theorem SameOrCut.refl {α : Type} {cut : Prop} (x : Except DecodeError α) : SameOrCut cut x x := .inl rfl

theorem SameOrCut.bind {α β : Type} {cut : Prop} {x y : Except DecodeError α} {f g : α → Except DecodeError β}
    (h : SameOrCut cut x y) (hfg : ∀ a, SameOrCut cut (f a) (g a)) : SameOrCut cut (x >>= f) (y >>= g) := by
  obtain rfl | ⟨hcut, rfl⟩ := h
  · cases x with
    | error _ => exact .inl rfl
    | ok a => exact hfg a
  · exact .inr ⟨hcut, rfl⟩

theorem SameOrCut.bind_ok {α β : Type} {cut : Prop} {x y : Except DecodeError α} {f g : α → Except DecodeError β}
    {b : β} (h : SameOrCut cut x y) (hy : (y >>= g) = .ok b)
    (hfg : ∀ a, g a = .ok b → SameOrCut cut (f a) (.ok b)) : SameOrCut cut (x >>= f) (.ok b) := by
  obtain rfl | ⟨hcut, rfl⟩ := h
  · obtain ⟨a, rfl, ha⟩ := Sys2Proof.bind_ok hy
    exact hfg a ha
  · exact .inr ⟨hcut, rfl⟩

/-- A trailing value read where the descriptor declares it, and what is done with it. -/
theorem SameOrCut.declared {α β : Type} {cut : Prop} {x y : Except DecodeError α}
    {f g : Option α → Except DecodeError β} (b : Bool) (h : SameOrCut cut x y)
    (hfg : ∀ o, SameOrCut cut (f o) (g o)) :
    SameOrCut cut (if b then (x >>= fun v => pure (some v)) >>= f else Except.ok none >>= f)
      (if b then (y >>= fun v => pure (some v)) >>= g else Except.ok none >>= g) := by
  cases b with
  | false => exact hfg none
  | true => exact (h.bind fun _ => .refl _).bind hfg

/-- The first six bytes of `p` are those of `q`, or, where `cut` allows it, missing. -/
def ReadsAlike (cut : Prop) (p q : List Byte) : Prop :=
  ∀ k, k < maxLength → SameOrCut cut (byteAt p k) (byteAt q k)

theorem readsAlike_take (bs : List Byte) : ReadsAlike False (bs.take maxLength) bs := by
  intro k hk
  left
  simp [byteAt, hk]

theorem readsAlike_append (p rest : List Byte) : ReadsAlike True p (p ++ rest) := by
  intro k _
  by_cases hk : k < p.length
  · exact .inl (by simp [byteAt, List.getElem?_append_left hk])
  · exact .inr ⟨trivial, by simp [byteAt, List.getElem?_eq_none (Nat.not_lt.mp hk)]⟩

/-! ## Each stage of the decoder -/

theorem catalog_fields : ∀ e ∈ catalog, ∀ bf ∈ e.fields, bf.byteIndex ≤ 1 := by decide

section
variable {cut : Prop} {p q : List Byte} (h : ReadsAlike cut p q)
include h

theorem extract_alike {bf : BitField} (hb : bf.byteIndex ≤ 1) : SameOrCut cut (bf.extract p) (bf.extract q) :=
  (h _ (by unfold maxLength; omega)).bind fun _ => .refl _

theorem holds_alike {m : OpcodeMatch} (hb : m.location.byteIndex ≤ 1) : SameOrCut cut (m.holds p) (m.holds q) :=
  (extract_alike h hb).bind fun _ => .refl _

theorem extractField_alike {e : Descriptor} (hb : ∀ bf ∈ e.fields, bf.byteIndex ≤ 1) (k : FieldKind) :
    SameOrCut cut (extractField e k p) (extractField e k q) := by
  unfold extractField
  split
  · exact .refl _
  · rename_i bf hbf
    exact (extract_alike h (hb bf (List.mem_of_find?_eq_some hbf))).bind fun _ => .refl _

theorem extractDeclared_alike {e : Descriptor} (hb : ∀ bf ∈ e.fields, bf.byteIndex ≤ 1) :
    SameOrCut cut (extractDeclared e p) (extractDeclared e q) := by
  have hfield := extractField_alike h hb
  unfold extractDeclared
  exact (hfield _).bind fun _ => (hfield _).bind fun _ => (hfield _).bind fun _ => (hfield _).bind fun _ =>
    (hfield _).bind fun _ => (hfield _).bind fun _ => (hfield _).bind fun _ => .refl _

theorem wordAt_alike {k : Nat} (hk : k + 1 < maxLength) : SameOrCut cut (wordAt p k) (wordAt q k) :=
  (h k (by omega)).bind fun _ => (h (k + 1) hk).bind fun _ => .refl _

theorem readDisp_alike {k : Nat} (n : Nat) (hk : k + 1 < maxLength) :
    SameOrCut cut (readDisp p k n) (readDisp q k n) := by
  unfold readDisp
  split
  · exact .refl _
  · exact (h k (by omega)).bind fun _ => .refl _
  · exact wordAt_alike h hk

theorem readData_alike {k : Nat} (n : Nat) (w s : Bool) (hk : k + 1 < maxLength) :
    SameOrCut cut (readData p k n w s) (readData q k n w s) := by
  unfold readData
  split
  · exact wordAt_alike h hk
  · exact (h k (by omega)).bind fun _ => .refl _

/-- R82, R84, R86: two opcode bytes, two displacement bytes and two immediate bytes at most. -/
theorem extractTrailing_alike {e : Descriptor} (he : e.opcodeBytes ≤ 2) (F : RawFields) :
    SameOrCut cut (extractTrailing e F p) (extractTrailing e F q) := by
  have hdisp := dispBytes_le e F
  have hk : e.opcodeBytes + 1 < maxLength := by unfold maxLength; omega
  have hkd : e.opcodeBytes + dispBytes e F + 1 < maxLength := by unfold maxLength; omega
  unfold extractTrailing
  exact .declared _ (readDisp_alike h _ hk) fun _ => .declared _ (readData_alike h _ _ _ hkd) fun _ =>
    .declared _ (wordAt_alike h hk) fun _ => .declared _ (h _ (by omega)) fun _ => .refl _

/-- A scan that finds a row in `q` finds it in `p`, or meets a missing byte. -/
theorem matchIn_alike {e : Descriptor} : ∀ {es : List Descriptor},
    (∀ x ∈ es, x.primaryMatch.location.byteIndex ≤ 1 ∧ ∀ m ∈ x.secondaryMatch, m.location.byteIndex ≤ 1) →
    matchIn q es = .ok e → SameOrCut cut (matchIn p es) (.ok e)
  | [], _, hq => by cases hq
  | x :: xs, hes, hq => by
    obtain ⟨hp, hs⟩ := hes x List.mem_cons_self
    have ih := matchIn_alike (e := e) (es := xs) fun y hy => hes y (List.mem_cons_of_mem _ hy)
    unfold matchIn at hq ⊢
    refine (holds_alike h hp).bind_ok hq fun v hq => ?_
    cases v with
    | false => exact ih hq
    | true =>
      cases hsec : x.secondaryMatch with
      | none =>
        rw [hsec] at hq
        exact .inl hq
      | some m =>
        rw [hsec] at hq
        refine (holds_alike h (hs m hsec)).bind_ok hq fun u hq => ?_
        cases u with
        | false => exact ih hq
        | true => exact .inl hq

/-- Where a row matches `q`, the decoder answers on `p` as on `q`, or meets a missing byte. -/
theorem decodeInstr_alike {e : Descriptor} (hq : matchOpcode q = .ok e) :
    SameOrCut cut (decodeInstr p) (decodeInstr q) := by
  obtain ⟨he, _⟩ := matchIn_ok hq
  have hbytes : e.opcodeBytes ≤ 2 := by
    have := catalog_opcodeBytes e he
    omega
  unfold decodeInstr
  obtain hp | ⟨hcut, hp⟩ := matchIn_alike h catalog_matches hq
  · rw [show matchOpcode p = .ok e from hp, hq]
    exact (extractDeclared_alike h (catalog_fields e he)).bind fun F =>
      (extractTrailing_alike h hbytes F).bind fun _ => .refl _
  · exact .inr ⟨hcut, by rw [show matchOpcode p = .error .truncated from hp]; rfl⟩

end

/-! ## At most six bytes -/

/-- R76, R77: the scan reads two bytes and reports at most six. -/
theorem matchOpcode_take (bs : List Byte) : matchOpcode (bs.take maxLength) = matchOpcode bs := by
  match bs with
  | [] => rfl
  | [_] => rfl
  | b :: c :: rest =>
    have htake : (b :: c :: rest).take maxLength = b :: c :: rest.take 4 := rfl
    rw [htake]
    obtain ⟨e, h2, hrest⟩ | ⟨h2, hrest⟩ := matchOpcode_two b c rest
    · rw [matchOpcode_of_two h2, hrest]
    · obtain ⟨e, h2', _⟩ | ⟨_, htail⟩ := matchOpcode_two b c (rest.take 4)
      · rw [h2] at h2'
        cases h2'
      · rw [htail, hrest, htake, ← htake, List.take_take, Nat.min_self]

/-- Settles O9: the scan reports at most six bytes, and once a row matches, every byte read is one of the first
six. -/
theorem decodeReadsAtMostSixBytes : Obligations.DecodeReadsAtMostSixBytes := by
  intro bs
  cases hm : matchOpcode bs with
  | error x =>
    have htake := (matchOpcode_take bs).trans hm
    exact (decodeInstr_of_unmatched hm).trans (decodeInstr_of_unmatched htake).symm
  | ok e => exact ((decodeInstr_alike (readsAlike_take bs) hm).resolve_right fun h => h.1).symm

/-! ## Missing bytes -/

/-- A decode of the first bytes of a sequence that decodes answers the same, or that a byte is missing. -/
theorem decodeInstr_of_append {p rest : List Byte} {i : Instr} (h : decodeInstr (p ++ rest) = .ok i) :
    decodeInstr p = .ok i ∨ decodeInstr p = .error .truncated := by
  obtain ⟨e, hm, _⟩ := bind_ok h
  obtain heq | ⟨_, hcut⟩ := decodeInstr_alike (readsAlike_append p rest) hm
  · exact .inl (heq.trans h)
  · exact .inr hcut

/-- Settles O8: a cut encoding does not decode to its instruction, whose length it has not, and so it is missing a
byte. -/
theorem cutInstructionIsTruncated : Obligations.CutInstructionIsTruncated := by
  intro i k hwf hk
  have hwhole : decodeInstr ((encode i).take k ++ (encode i).drop k) = .ok i := by
    simpa using decodeOfEncodeIsIdentity i [] hwf
  refine (decodeInstr_of_append hwhole).resolve_left fun hcut => ?_
  obtain ⟨_, hlen, _⟩ := encodeOfDecodeIsIdentity _ _ hcut
  rw [List.length_take] at hlen
  omega

end Sys2Proof.Machine
end

section
/-! The decode pass: what it makes of a program written as encodings, how an answered pass covers the buffer, and
which fault a faulting pass reports. -/

namespace Sys2Proof.Machine

/-! ## One record -/

/-- R235: the default timing table has a row for every instruction, one with EA clocks only where there is a
register-or-memory operand. -/
theorem clockDecode_baseClocksTable (i : Instr) (off : Nat) : ∃ r, clockDecode baseClocksTable i off = .ok r := by
  cases i with
  | movRmR d w reg rm | addRmR d w reg rm | subRmR d w reg rm | cmpRmR d w reg rm =>
    cases d <;> cases rm <;> exact ⟨_, rfl⟩
  | movImmRm rm imm | addImmRm rm imm | subImmRm rm imm | cmpImmRm rm imm => cases rm <;> exact ⟨_, rfl⟩
  | movRmSr sr rm | movSrRm sr rm => cases rm <;> exact ⟨_, rfl⟩
  | _ => exact ⟨_, rfl⟩

/-- The record of an encoding is that of its instruction (R74, R99). -/
theorem decodeOne_encode {i : Instr} (hwf : i.wf = true) (rest : List Byte) (off : Nat) :
    ∃ r, decodeOne baseClocksTable (encode i ++ rest) off = .ok r ∧ r.instr = i := by
  have hdec := decodeOfEncodeIsIdentity i rest hwf
  obtain ⟨r, hr⟩ := clockDecode_baseClocksTable i off
  have hone : decodeOne baseClocksTable (encode i ++ rest) off = .ok r := by
    simp only [decodeOne, hdec, hr]
  obtain ⟨hinstr, _⟩ := decodeOne_ok hone
  rw [hdec] at hinstr
  exact ⟨r, hone, (Except.ok.inj hinstr).symm⟩

/-- A decoded record lies within the bytes it was read from. -/
theorem decodeOne_len_le {table : List TimingRow} {bs : List Byte} {off : Nat} {r : Record}
    (h : decodeOne table bs off = .ok r) : r.len ≤ bs.length := by
  obtain ⟨hdec, _⟩ := decodeOne_ok h
  obtain ⟨_, hlen, _⟩ := encodeOfDecodeIsIdentity bs r.instr hdec
  exact hlen

/-! ## A program written as encodings -/

theorem decodeFrom_encoded {p : Params} (htiming : p.timing = baseClocksTable) : ∀ {is : List Instr} (off n : Nat),
    (∀ i ∈ is, i.wf = true) → n + is.length ≤ p.maxInstructions →
    ∃ records, decodeFrom p (is.flatMap encode) 0 off n = .ok records ∧ records.map (·.instr) = is
  | [], _, _, _, _ => ⟨[], rfl, rfl⟩
  | i :: is, off, n, hwf, hn => by
    rw [List.length_cons] at hn
    obtain ⟨r, hr, rfl⟩ := decodeOne_encode (hwf i List.mem_cons_self) (is.flatMap encode) off
    obtain ⟨records, hrest, hinstrs⟩ := decodeFrom_encoded htiming (is := is) (off + r.len) (n + 1)
      (fun j hj => hwf j (List.mem_cons_of_mem _ hj)) (by omega)
    have hlen : (encode r.instr).length = r.len := encode_length r.instr
    have hdrop : (encode r.instr ++ is.flatMap encode).drop r.len = is.flatMap encode := List.drop_left' hlen
    have hle := decodeOne_len_le hr
    have hpos := record_len_pos r
    obtain ⟨b, bs, hbs⟩ : ∃ b bs, encode r.instr ++ is.flatMap encode = b :: bs :=
      List.exists_cons_of_length_pos (by omega)
    rw [List.flatMap_cons]
    rw [hbs] at hr hle hdrop ⊢
    refine ⟨r :: records, ?_, by simp [hinstrs]⟩
    rw [decodeFrom_cons (by omega) (htiming ▸ hr) hle, hdrop, hrest]

/-- Settles O12, record by record: each encoding decodes to its instruction and leaves the encodings after it. -/
theorem encodedProgramDecodesToItself : Obligations.EncodedProgramDecodesToItself :=
  fun _ _ hwf htiming hlen => decodeFrom_encoded htiming 0 0 hwf (by omega)

/-! ## An answered pass -/

/-- R101: the records of an answered pass take up all the bytes after those skipped. -/
theorem decodeFrom_ok_offsetOf {p : Params} : ∀ {bs : List Byte} {skip off n : Nat} {rs : List Record},
    skip ≤ bs.length → decodeFrom p bs skip off n = .ok rs → skip + offsetOf rs rs.length = bs.length
  | [], _, _, _, _, hskip, h => by
    cases h
    simpa using hskip
  | b :: bs, 0, off, n, _, _, h => by
    obtain ⟨_, r, rest, hr, hrest, rfl⟩ := decodeFrom_ok_cons h
    have hle := decodeOne_len_le hr
    have hpos := record_len_pos r
    rw [List.length_cons] at hle
    have ih := decodeFrom_ok_offsetOf (by omega) hrest
    simp only [List.length_cons, offsetOf_cons_succ]
    omega
  | _ :: bs, k + 1, off, n, _, hskip, h => by
    rw [List.length_cons] at hskip ⊢
    have ih := decodeFrom_ok_offsetOf (bs := bs) (skip := k) (off := off + 1) (by omega) h
    omega

/-- Settles O10, from what an answered pass has decoded. -/
theorem decodePassCutsTheWholeBuffer : Obligations.DecodePassCutsTheWholeBuffer := by
  intro p code records h
  refine ⟨by simpa using decodeFrom_ok_offsetOf (Nat.zero_le _) h, decodeAll_length_le h, fun j r hj => ?_⟩
  have hr := decodeOne_of_decodeAll h hj
  obtain ⟨_, hoff, _⟩ := decodeOne_ok hr
  exact ⟨hoff, hr⟩

/-! ## A faulting pass -/

/-- R80, R265: from record number `n` at offset `off`, the records `good` decode one after the other, and the fault
is at the byte after them: the record capacity is reached there, or the record there does not decode. -/
def FirstFault (p : Params) (bs : List Byte) (off n : Nat) (f : Fault) (good : List Record) : Prop :=
  offsetOf good good.length < bs.length ∧
  (∀ j r, good[j]? = some r →
    decodeOne p.timing (bs.drop (offsetOf good j)) (off + offsetOf good j) = .ok r) ∧
  ((n + good.length = p.maxInstructions ∧ f = .capacity (off + offsetOf good good.length)) ∨
   (n + good.length < p.maxInstructions ∧
     decodeOne p.timing (bs.drop (offsetOf good good.length)) (off + offsetOf good good.length) = .error f))

theorem firstFault_nil {p : Params} {b : Byte} {bs : List Byte} {off n : Nat} {f : Fault}
    (h : (n = p.maxInstructions ∧ f = .capacity off) ∨
      (n < p.maxInstructions ∧ decodeOne p.timing (b :: bs) off = .error f)) :
    FirstFault p (b :: bs) off n f [] :=
  ⟨by simp, by simp, by simpa using h⟩

theorem FirstFault.cons {p : Params} {bs : List Byte} {off n : Nat} {f : Fault} {r : Record} {good : List Record}
    (hr : decodeOne p.timing bs off = .ok r) (h : FirstFault p (bs.drop r.len) (off + r.len) (n + 1) f good) :
    FirstFault p bs off n f (r :: good) := by
  obtain ⟨hlt, hgood, hfault⟩ := h
  simp only [List.drop_drop, List.length_drop, Nat.add_assoc, Nat.add_comm 1] at hlt hgood hfault
  refine ⟨?_, fun j r' hj => ?_, ?_⟩
  · simp only [List.length_cons, offsetOf_cons_succ]
    omega
  · cases j with
    | zero =>
      cases hj
      simpa using hr
    | succ j => simpa using hgood j r' hj
  · simpa using hfault

theorem exists_firstFault {p : Params} {f : Fault} (bs : List Byte) (off n : Nat) (hn : n ≤ p.maxInstructions)
    (h : decodeFrom p bs 0 off n = .error f) : ∃ good, FirstFault p bs off n f good := by
  match bs with
  | [] => cases h
  | b :: bs =>
    by_cases hfull : n = p.maxInstructions
    · subst hfull
      rw [decodeFrom_full] at h
      cases h
      exact ⟨[], firstFault_nil (.inl ⟨rfl, rfl⟩)⟩
    · cases hr : decodeOne p.timing (b :: bs) off with
      | error g =>
        rw [decodeFrom_error hfull hr] at h
        cases h
        exact ⟨[], firstFault_nil (.inr ⟨by omega, hr⟩)⟩
      | ok r =>
        have hpos := record_len_pos r
        rw [decodeFrom_cons hfull hr (decodeOne_len_le hr)] at h
        cases hrest : decodeFrom p ((b :: bs).drop r.len) 0 (off + r.len) (n + 1) with
        | ok rs =>
          rw [hrest] at h
          cases h
        | error g =>
          rw [hrest] at h
          cases h
          obtain ⟨good, hgood⟩ := exists_firstFault _ _ _ (by omega) hrest
          exact ⟨r :: good, hgood.cons hr⟩
termination_by bs.length
decreasing_by simp only [List.length_drop, List.length_cons]; omega

/-- Settles O11, from the first fault of the pass over the whole buffer. -/
theorem decodePassReportsTheFirstFault : Obligations.DecodePassReportsTheFirstFault := by
  intro p code f h
  obtain ⟨good, hlt, hgood, hfault⟩ := exists_firstFault code 0 0 (Nat.zero_le _) h
  simp only [Nat.zero_add] at hgood hfault
  exact ⟨good, hlt, hgood, hfault⟩

end Sys2Proof.Machine
end

section
/-! What the fields of an instruction stand for: words of every format, the displacement length, the source and
destination operands and the effective address. -/

namespace Sys2Proof.Machine

/-! ## Words and lengths -/

/-- Settles O1, by running the decoder on each word. -/
theorem decodesWordsOfEveryFormat : Obligations.DecodesWordsOfEveryFormat :=
  ⟨rfl, rfl, rfl, rfl, rfl, rfl, rfl, rfl, rfl, rfl, rfl, rfl, rfl, rfl, rfl, rfl, rfl, rfl⟩

/-- Settles O5, over the four values of mod and the eight of rm. -/
theorem displacementLengthByModAndRm : Obligations.DisplacementLengthByModAndRm := by
  unfold Obligations.DisplacementLengthByModAndRm
  decide

/-! ## Operands -/

/-- Settles O26, base by base. -/
theorem effectiveAddressByBase : Obligations.EffectiveAddressByBase :=
  fun _ _ _ _ => ⟨rfl, rfl, rfl, rfl, rfl, rfl, rfl, rfl, rfl⟩

/-- R94: a jump has no source, and its increment with length 2 as destination. -/
theorem operands_of_jumpIncrement {i : Instr} {inc : Byte} (h : jumpIncrement i = some inc) :
    src i = .none ∧ dst i = .jmp inc 2 := by
  have hform : form i = .shortJump inc := by
    cases i <;> cases h <;> rfl
  exact ⟨congrArg Form.src hform, congrArg Form.dst hform⟩

/-- Settles O28, shape by shape, then the register-or-memory operands and the immediates form by form. -/
theorem operandsByShape : Obligations.OperandsByShape := by
  refine ⟨?registerRm, ?segmentRm, ?accumulatorAbsolute, ?movImmediateRm, ?immediateRm, ?movImmediateRegister,
    ?immediateAccumulator, ?shortJump, ?rmOperand, ?immediates⟩
  case registerRm =>
    rintro mk w reg rm (rfl | rfl | rfl | rfl) <;> exact ⟨rfl, rfl, rfl, rfl⟩
  case segmentRm => exact fun _ _ => ⟨rfl, rfl, rfl, rfl⟩
  case accumulatorAbsolute => exact fun _ _ => ⟨rfl, rfl, rfl, rfl⟩
  case movImmediateRm => exact fun _ _ => ⟨rfl, rfl⟩
  case immediateRm =>
    rintro mk rm imm (rfl | rfl | rfl) <;> exact ⟨rfl, rfl⟩
  case movImmediateRegister => exact fun _ _ => ⟨rfl, rfl⟩
  case immediateAccumulator =>
    rintro mk imm (rfl | rfl | rfl) <;> exact ⟨rfl, rfl⟩
  case shortJump => exact fun _ _ => operands_of_jumpIncrement
  case rmOperand => exact fun _ _ _ _ _ _ => ⟨rfl, rfl, rfl, rfl, rfl⟩
  case immediates => exact fun _ _ _ => ⟨rfl, rfl, rfl, rfl, rfl, rfl, rfl, rfl, rfl, rfl⟩

end Sys2Proof.Machine
end

section
/-! The executor: what a step answers in each run state, and the value of every operand kind. -/

namespace Sys2Proof.Machine

/-! ## The step by run state -/

/-- Settles O18: the step is the exit test after the execution of the record at the pointer. -/
theorem stepRunsTheFetchedRecord : Obligations.StepRunsTheFetchedRecord := by
  intro s r hrun hr
  have hstep := step_of_record hrun hr
  refine ⟨fun t ht => ?_, fun f hf => ?_⟩
  · rw [hstep, ht, ← haltIfDone_eq, afterExec]
  · rw [hstep, hf, afterExec]

/-- R128 (log entry 8): at any parameters, a halted engine answers a refusal. -/
theorem engineStep_of_halted (p : Params) {s : State} (h : s.runState = .halted) :
    engineStep p s = .refused .runHalted := by
  simp [engineStep, h]

/-- R260 (log entry 8): at any parameters, an aborted engine answers a refusal. -/
theorem engineStep_of_aborted (p : Params) {s : State} (h : s.runState = .aborted) :
    engineStep p s = .refused .runAborted := by
  simp [engineStep, h]

/-- Settles O20, by the two run states that have ended. -/
theorem endedEngineTakesNoStep : Obligations.EndedEngineTakesNoStep :=
  fun _ => ⟨engineStep_of_halted params, engineStep_of_aborted params⟩

/-! ## The value of an operand -/

/-- R97, R98, R125: an operand with an effective address reads the memory there, at its width. -/
theorem readOp_of_effectiveAddress {op : Operand} {s : State} {ea : Word} {w : Width}
    (hea : effectiveAddress s.regs op = some ea) (hw : operandWidth op = some w) :
    readOp op s = some (memRead s.mem ea w) := by
  cases op with
  | mem b d w' => cases hea; cases hw; rfl
  | abs a w' => cases hea; cases hw; rfl
  | reg | sreg | imm | jmp | none => cases hea

/-- Settles O29, kind by kind; the two memory kinds through their effective address. -/
theorem operandReads : Obligations.OperandReads := by
  intro s c g b d a v w inc n
  refine ⟨?word, ?byte, ?segment, ?memory, ?absolute, ?wordImmediate, ?byteImmediate, ?jump, ?none⟩
  case memory => exact fun _ hea => readOp_of_effectiveAddress hea rfl
  case absolute => exact readOp_of_effectiveAddress rfl rfl
  case word | byte | segment | wordImmediate | byteImmediate | jump | none => rfl

end Sys2Proof.Machine
end

section
/-! The moves: source and destination of a record have one width, so the shared move step puts every source's value
whole into its destination. -/

namespace Sys2Proof.Machine

/-! ## The width of a record's operands -/

/-- R89, R94: source and destination of every form but a short jump have the same width. -/
theorem Form.operands_width {f : Form} (h : f.shape ≠ .shortJump) :
    ∃ w, operandWidth f.src = some w ∧ operandWidth f.dst = some w := by
  cases f with
  | shortJump inc => exact absurd rfl h
  | accumulatorAbsolute isSource w addr => cases isSource <;> exact ⟨w, rfl, rfl⟩
  | segmentRm d sr rm =>
    have hrm := operandWidth_rmOperand rm .w16
    cases d
    exacts [⟨.w16, rfl, hrm⟩, ⟨.w16, hrm, rfl⟩]
  | registerRm d w reg rm =>
    have hrm := operandWidth_rmOperand rm w
    cases d
    exacts [⟨w, rfl, hrm⟩, ⟨w, hrm, rfl⟩]
  | immediateRm w data rm => exact ⟨w, rfl, operandWidth_rmOperand rm w⟩
  | immediateRegister w data reg => exact ⟨w, rfl, rfl⟩

/-- R86: an immediate without an s field already fits its width. -/
@[simp] theorem immValue_imm (imm : Imm) : immValue imm.value imm.width = imm.value := by
  cases imm with
  | byte v => simp [immValue, Imm.value, Imm.width]
  | word v => rfl

/-! ## The moves -/

/-- Settles O30: every move runs the shared move step, at one width for both operands. -/
theorem movesMoveSourceToDestination : Obligations.MovesMoveSourceToDestination := by
  intro i s hm hmove
  have hjump : i.action ≠ .jump := by simp [hmove]
  obtain ⟨w, hsrc, hdst⟩ := Form.operands_width (form_shortJump hjump)
  exact movesTo_of_moveStep hjump (exec_moveStep hmove s) w hsrc hdst hm

/-- Settles O31: a move at the operands R94 gives each direction. -/
theorem movRmRMoves : Obligations.MovRmRMoves := fun w reg rm s hm =>
  ⟨movesMoveSourceToDestination (.movRmR true w reg rm) s hm rfl,
    movesMoveSourceToDestination (.movRmR false w reg rm) s hm rfl⟩

/-- Settles O32: a move whose source is the immediate, which reads back as itself. -/
theorem movImmediateMoves : Obligations.MovImmediateMoves := fun reg rm imm s hm =>
  ⟨movesMoveSourceToDestination (.movImmRm rm imm) s hm rfl,
    movesMoveSourceToDestination (.movImmR reg imm) s hm rfl,
    congrArg some (immValue_imm imm)⟩

/-- Settles O33: a move between the accumulator and the absolute address. -/
theorem movAccumulatorMoves : Obligations.MovAccumulatorMoves := fun w addr s hm =>
  ⟨movesMoveSourceToDestination (.movAccMem w addr) s hm rfl,
    movesMoveSourceToDestination (.movMemAcc w addr) s hm rfl⟩

/-- Settles O34: a move at width 16; CS is written like any other segment register. -/
theorem movSegmentRegisterMoves : Obligations.MovSegmentRegisterMoves := fun sr rm s hm =>
  ⟨movesMoveSourceToDestination (.movRmSr sr rm) s hm rfl,
    movesMoveSourceToDestination (.movSrRm sr rm) s hm rfl⟩

end Sys2Proof.Machine
end

section
/-! The arithmetic family: the operands of every ADD, SUB and CMP have the width of its record, so the shared steps
of R160 to R162 apply; a byte record is refused under BYTE_ARITH_POLICY = refuse only. -/

namespace Sys2Proof.Machine

/-! ## ADD, SUB and CMP -/

/-- Settles O35: each form runs the shared ADD step at the operands R94 gives it. -/
theorem addAdds : Obligations.AddAdds := fun w reg rm aimm imm _ hm =>
  ⟨addsTo_of_addStep (i := .addRmR true w reg rm) nofun w rfl rfl hm,
    addsTo_of_addStep (i := .addRmR false w reg rm) nofun w rfl (operandWidth_rmOperand rm w) hm,
    addsTo_of_addStep (i := .addImmRm rm aimm) nofun aimm.width rfl (operandWidth_rmOperand rm aimm.width) hm,
    addsTo_of_addStep (i := .addImmAcc imm) nofun imm.width rfl rfl hm⟩

/-- Settles O36: each form runs the shared SUB step at the operands R94 gives it. -/
theorem subSubtracts : Obligations.SubSubtracts := fun w reg rm aimm imm _ hm =>
  ⟨subtractsFrom_of_subStep (i := .subRmR true w reg rm) nofun w rfl (operandWidth_rmOperand rm w) rfl hm,
    subtractsFrom_of_subStep (i := .subRmR false w reg rm) nofun w rfl rfl (operandWidth_rmOperand rm w) hm,
    subtractsFrom_of_subStep (i := .subImmRm rm aimm) nofun aimm.width rfl rfl
      (operandWidth_rmOperand rm aimm.width) hm,
    subtractsFrom_of_subStep (i := .subImmAcc imm) nofun imm.width rfl rfl rfl hm⟩

/-- Settles O37: each form runs the shared CMP step at the operands R94 gives it. -/
theorem cmpComparesWithoutWriting : Obligations.CmpComparesWithoutWriting := fun w reg rm aimm imm _ =>
  ⟨compares_of_cmpStep (i := .cmpRmR true w reg rm) nofun w rfl (operandWidth_rmOperand rm w) rfl,
    compares_of_cmpStep (i := .cmpRmR false w reg rm) nofun w rfl rfl (operandWidth_rmOperand rm w),
    compares_of_cmpStep (i := .cmpImmRm rm aimm) nofun aimm.width rfl rfl (operandWidth_rmOperand rm aimm.width),
    compares_of_cmpStep (i := .cmpImmAcc imm) nofun imm.width rfl rfl rfl⟩

/-! ## The byte policy -/

/-- R166: what the policy does not decline is not refused. -/
theorem arithStep_not_refused {p : ByteArithPolicy} {w : Width} (hp : byteRefused p w = false) (op : AluOp)
    (wb : Bool) (i : Instr) (s : State) (x : Refusal) : arithStep p op wb w i s ≠ .refused x := by
  intro h
  simp only [arithStep, hp, Bool.false_eq_true, if_false] at h
  split at h
  · split at h <;> cases h
  · cases h

/-- Settles O40: the policy enters the arithmetic step through `byteRefused` alone. -/
theorem byteArithmeticPolicy : Obligations.ByteArithmeticPolicy := fun op wb _ i s =>
  ⟨rfl, rfl, arithStep_not_refused (p := .operandWidth) rfl op wb i s⟩

end Sys2Proof.Machine
end

section
/-! The ALU's carry and overflow flags against exact arithmetic, at both widths at once: a W-bit value is a word
below 2^W, and its signed value is `immSigned` at its width. -/

namespace Sys2Proof.Machine

/-! ## W-bit values, unsigned and signed -/

/-- The low byte of an 8-bit value is all of it. -/
theorem loByte_toNat_of_lt {v : Word} (h : v.toNat < 2 ^ Width.w8.bits) : (loByte v).toNat = v.toNat := by
  simpa [loByte, Width.bits] using h

/-- The sign bit of a W-bit value. -/
theorem topBit_eq_decide {w : Width} {v : Word} (hv : v.toNat < 2 ^ w.bits) :
    topBit w v = decide (2 ^ (w.bits - 1) ≤ v.toNat) := by
  cases w with
  | w8 =>
    have hmsb : topBit .w8 v = (loByte v).msb := by simp [topBit, loByte, BitVec.msb_eq_getLsbD_last, Width.bits]
    rw [hmsb, BitVec.msb_eq_decide, loByte_toNat_of_lt hv]
    rfl
  | w16 => exact (BitVec.msb_eq_getLsbD_last v).symm.trans (BitVec.msb_eq_decide v)

/-- Two W-bit values have one sign when both or neither reach 2^(W-1). -/
theorem topBit_eq_iff {w : Width} {u v : Word} (hu : u.toNat < 2 ^ w.bits) (hv : v.toNat < 2 ^ w.bits) :
    topBit w u = topBit w v ↔ (2 ^ (w.bits - 1) ≤ u.toNat ↔ 2 ^ (w.bits - 1) ≤ v.toNat) := by
  rw [topBit_eq_decide hu, topBit_eq_decide hv, decide_eq_decide]

/-- The two's-complement value of a W-bit value. -/
theorem immSigned_eq {w : Width} {v : Word} (hv : v.toNat < 2 ^ w.bits) :
    immSigned v w = if 2 ^ (w.bits - 1) ≤ v.toNat then (v.toNat : Int) - 2 ^ w.bits else v.toNat := by
  cases w with
  | w8 =>
    simp only [immSigned, BitVec.toInt_eq_toNat_cond, loByte_toNat_of_lt hv, Width.bits]
    omega
  | w16 =>
    simp only [immSigned, BitVec.toInt_eq_toNat_cond, Width.bits]
    omega

/-! ## The results -/

/-- A number reduced modulo 2^W fits a word. -/
theorem toNat_ofNat_mod (n : Nat) (w : Width) : (BitVec.ofNat 16 (n % 2 ^ w.bits)).toNat = n % 2 ^ w.bits := by
  have hword : 2 ^ w.bits ≤ 2 ^ 16 := by cases w <;> decide
  exact Nat.mod_eq_of_lt ((Nat.mod_lt n (Nat.two_pow_pos _)).trans_le hword)

theorem aluAdd_toNat (old v : Word) (w : Width) :
    (aluAdd old v w).1.toNat = (old.toNat + v.toNat) % 2 ^ w.bits := toNat_ofNat_mod _ w

theorem aluSub_toNat (old v : Word) (w : Width) :
    (aluSub old v w).1.toNat = (old.toNat + 2 ^ w.bits - v.toNat) % 2 ^ w.bits := toNat_ofNat_mod _ w

/-- The result of the ALU is a W-bit value. -/
theorem alu_lt (op : AluOp) (old v : Word) (w : Width) : (alu op old v w).1.toNat < 2 ^ w.bits :=
  fits_lt (alu_fits op old v w)

/-! ## Carry and overflow -/

section
variable {w : Width} {old v : Word} (ho : old.toNat < 2 ^ w.bits) (hv : v.toNat < 2 ^ w.bits)
include ho hv

/-- R167: CF of a sum reports that the exact unsigned sum does not fit. -/
theorem aluAdd_CF_iff : (aluAdd old v w).2.CF = true ↔ (aluAdd old v w).1.toNat ≠ old.toNat + v.toNat := by
  rw [aluAdd_toNat]
  simp only [aluAdd, decide_eq_true_eq]
  cases w <;> simp only [Width.bits] at * <;> omega

/-- R167: CF of a difference reports that the exact unsigned difference is negative. -/
theorem aluSub_CF_iff :
    (aluSub old v w).2.CF = true ↔ ((aluSub old v w).1.toNat : Int) ≠ (old.toNat : Int) - v.toNat := by
  rw [aluSub_toNat]
  simp only [aluSub, decide_eq_true_eq]
  cases w <;> simp only [Width.bits] at * <;> omega

/-- R167: OF of a sum reports that the exact signed sum does not fit. -/
theorem aluAdd_OF_iff :
    (aluAdd old v w).2.OF = true ↔ immSigned (aluAdd old v w).1 w ≠ immSigned old w + immSigned v w := by
  have hr : (aluAdd old v w).1.toNat < 2 ^ w.bits := alu_lt .add old v w
  have hOF : (aluAdd old v w).2.OF = true ↔
      topBit w old = topBit w v ∧ ¬topBit w (aluAdd old v w).1 = topBit w old := by simp [aluAdd]
  rw [hOF, topBit_eq_iff ho hv, topBit_eq_iff hr ho, immSigned_eq ho, immSigned_eq hv, immSigned_eq hr, aluAdd_toNat]
  cases w <;> simp only [Width.bits] at * <;> omega

/-- R167: OF of a difference reports that the exact signed difference does not fit. -/
theorem aluSub_OF_iff :
    (aluSub old v w).2.OF = true ↔ immSigned (aluSub old v w).1 w ≠ immSigned old w - immSigned v w := by
  have hr : (aluSub old v w).1.toNat < 2 ^ w.bits := alu_lt .sub old v w
  have hOF : (aluSub old v w).2.OF = true ↔
      ¬topBit w old = topBit w v ∧ ¬topBit w (aluSub old v w).1 = topBit w old := by simp [aluSub]
  rw [hOF, topBit_eq_iff ho hv, topBit_eq_iff hr ho, immSigned_eq ho, immSigned_eq hv, immSigned_eq hr, aluSub_toNat]
  cases w <;> simp only [Width.bits] at * <;> omega

end

@[simp] theorem zext8_toNat (b : Byte) : (zext8 b).toNat = b.toNat :=
  BitVec.toNat_setWidth_of_le (by decide)

/-- Settles O38: words are 16-bit values, zero-extended bytes 8-bit values. -/
theorem carryAndOverflowReportWrapping : Obligations.CarryAndOverflowReportWrapping := by
  constructor
  · intro old v
    have ho : old.toNat < 2 ^ Width.w16.bits := old.isLt
    have hv : v.toNat < 2 ^ Width.w16.bits := v.isLt
    exact ⟨aluAdd_CF_iff ho hv, aluAdd_OF_iff ho hv, aluSub_CF_iff ho hv, aluSub_OF_iff ho hv⟩
  · intro old v
    have ho : (zext8 old).toNat < 2 ^ Width.w8.bits := zext8_toNat_lt old
    have hv : (zext8 v).toNat < 2 ^ Width.w8.bits := zext8_toNat_lt v
    refine ⟨?_, ?_, ?_, ?_⟩
    · simpa using aluAdd_CF_iff ho hv
    · simpa [immSigned] using aluAdd_OF_iff ho hv
    · simpa using aluSub_CF_iff ho hv
    · simpa [immSigned] using aluSub_OF_iff ho hv

end Sys2Proof.Machine
end

section
/-! The parity flag: flipping one of the bits counted turns an even count odd and an odd one even. -/

namespace Sys2Proof.Machine

/-- Flipping a predicate at one place of a range changes the parity of its count there. -/
theorem countP_range_flip {p q : Nat → Bool} {k n : Nat} (hk : k < n) (hq : q k = !p k)
    (hsame : ∀ j, j ≠ k → q j = p j) :
    (List.range n).countP q % 2 = 0 ↔ ¬ (List.range n).countP p % 2 = 0 := by
  induction n with
  | zero => cases hk
  | succ n ih =>
    simp only [List.range_succ, List.countP_append, List.countP_singleton]
    by_cases hkn : k = n
    · subst hkn
      have hbelow : (List.range k).countP q = (List.range k).countP p :=
        List.countP_congr fun j hj => by rw [hsame j (List.mem_range.mp hj).ne]
      rw [hbelow, hq]
      cases p k <;> simp <;> omega
    · have := ih (by omega)
      rw [hsame n (Ne.symm hkn)]
      split <;> omega

/-- R165: PF as a count of the low eight bits. -/
theorem parity_iff (v : Word) : parity v = true ↔ (List.range 8).countP (fun k => v.getLsbD k) % 2 = 0 := by
  simp [parity, popcountLow, List.countP_eq_length_filter]

/-- Two words that agree in the low eight bits have one parity. -/
theorem parity_congr {u v : Word} (h : ∀ j, j < 8 → u.getLsbD j = v.getLsbD j) : parity u = parity v := by
  rw [Bool.eq_iff_iff, parity_iff, parity_iff,
    List.countP_congr fun j hj => by rw [h j (List.mem_range.mp hj)]]

theorem getLsbD_flip_same (v : Word) {k : Nat} (hk : k < 16) :
    (v ^^^ ((1 : Word) <<< k)).getLsbD k = !v.getLsbD k := by
  simp [hk]

theorem getLsbD_flip_other (v : Word) {j k : Nat} (h : j ≠ k) :
    (v ^^^ ((1 : Word) <<< k)).getLsbD j = v.getLsbD j := by
  have hbit : ((1 : Word) <<< k).getLsbD j = false := by
    have hpos : k ≤ j → j - k ≠ 0 := by omega
    simpa using fun _ => hpos
  rw [BitVec.getLsbD_xor, hbit, Bool.xor_false]

/-- Settles O39: a flip within the low byte changes the count by one, a flip above it changes no bit counted. -/
theorem parityIsOfTheLowByte : Obligations.ParityIsOfTheLowByte := by
  refine ⟨parity_iff, by decide, fun v k hk => ?_, fun v k hk => ?_⟩
  · have hflip := countP_range_flip hk (getLsbD_flip_same v (by omega)) (fun j hj => getLsbD_flip_other v hj)
    rw [Bool.eq_iff_iff, parity_iff, hflip, ← parity_iff, Bool.not_eq_true, Bool.not_eq_true']
  · exact parity_congr fun j hj => getLsbD_flip_other v (by omega)

end Sys2Proof.Machine
end

section
/-! The jumps: the catalog row behind each row of R195 and R196, the predicate of each, and the landing of a taken
jump, which is the one record boundary at the target or a fault of the kind R199 names. -/

namespace Sys2Proof.Machine

/-! ## Numbers and bytes -/

/-- A table of jumps whose rows are rows of the catalog has their numbers, names and bytes (R72, R87). -/
theorem numberedAs_of_catalog {rows : List JumpRow}
    (h : ∀ r ∈ rows, ∀ inc, (r.instr inc).descriptor = rowJMP r.id r.mnemonic r.firstByte ∧
      (r.instr inc).fields = fieldsOfJMP inc) : numberedAs rows := by
  intro r hr inc
  obtain ⟨hrow, hfields⟩ := h r hr inc
  exact ⟨congrArg Descriptor.id hrow, congrArg Descriptor.mnemonic hrow, encode_JMP hrow hfields⟩

theorem conditionalJumpRows_numbered : numberedAs conditionalJumpRows :=
  numberedAs_of_catalog fun r hr _ => by fin_cases hr <;> exact ⟨rfl, rfl⟩

theorem loopRows_numbered : numberedAs loopRows :=
  numberedAs_of_catalog fun r hr _ => by fin_cases hr <;> exact ⟨rfl, rfl⟩

/-! ## When a jump is taken -/

/-- Settles O41: each row runs the shared jump step of R190 with the predicate of its row of R195. -/
theorem conditionalJumps : Obligations.ConditionalJumps :=
  ⟨conditionalJumpRows_numbered, fun _ _ hi =>
    ⟨jumpsWhen_of_jumpStep rfl (by simp [takenO]) hi, jumpsWhen_of_jumpStep rfl (by simp [takenO]) hi,
      jumpsWhen_of_jumpStep rfl (by simp [takenB]) hi, jumpsWhen_of_jumpStep rfl (by simp [takenB]) hi,
      jumpsWhen_of_jumpStep rfl (by simp [takenE]) hi, jumpsWhen_of_jumpStep rfl (by simp [takenE]) hi,
      jumpsWhen_of_jumpStep rfl (by simp [takenBE]) hi, jumpsWhen_of_jumpStep rfl (by simp [takenBE]) hi,
      jumpsWhen_of_jumpStep rfl (by simp [takenS]) hi, jumpsWhen_of_jumpStep rfl (by simp [takenS]) hi,
      jumpsWhen_of_jumpStep rfl (by simp [takenP]) hi, jumpsWhen_of_jumpStep rfl (by simp [takenP]) hi,
      jumpsWhen_of_jumpStep rfl (by simp [takenL]) hi, jumpsWhen_of_jumpStep rfl (by simp [takenL]) hi,
      jumpsWhen_of_jumpStep rfl (by simp [takenLE]) hi, jumpsWhen_of_jumpStep rfl (by simp [takenLE]) hi⟩⟩

/-- Settles O42: the loop family runs the shared jump step after DEC_CX, JCXZ on the state itself. -/
theorem loopFamilyAndJcxz : Obligations.LoopFamilyAndJcxz :=
  ⟨loopRows_numbered, fun _ _ hi =>
    ⟨loopsWhen_of_jumpStep rfl (by simp [takenLoopnz, cx_eq]) hi,
      loopsWhen_of_jumpStep rfl (by simp [takenLoopz, cx_eq]) hi,
      loopsWhen_of_jumpStep rfl (by simp [takenLoop, cx_eq]) hi,
      jumpsWhen_of_jumpStep rfl (by simp [takenCxz, cx_eq]) hi⟩⟩

/-! ## Where a taken jump lands -/

/-- Settles O43: the walk answers exactly at a boundary (R198), and offsets rise strictly along the store. -/
theorem landingIsTheUniqueBoundaryAtTheTarget : Obligations.LandingIsTheUniqueBoundaryAtTheTarget :=
  fun _ _ _ hi =>
    ⟨fun _ => ⟨landing_ok hi, fun ⟨hj, htarget⟩ => landing_of_target hi hj htarget⟩, fun _ _ => offsetOf_inj⟩

section
variable {store : List Record} {i : Nat} {inc : Int} (hi : i < store.length)
include hi

/-- R199: a target outside the program is an overrun. -/
theorem landing_of_outside
    (h : offsetOf store (i + 1) + inc < 0 ∨ (offsetOf store store.length : Int) < offsetOf store (i + 1) + inc) :
    landing store i inc = .error .overrun := by
  cases hl : landing store i inc with
  | ok j =>
    obtain ⟨hj, htarget⟩ := landing_ok hi hl
    have := offsetOf_le hj (Nat.le_refl _)
    omega
  | error e =>
    cases e with
    | overrun => rfl
    | misaligned =>
      have := landing_misaligned hi hl
      omega

/-- R199: a target within the program that is no record boundary is misaligned. -/
theorem landing_of_inside (h0 : 0 ≤ offsetOf store (i + 1) + inc)
    (hn : offsetOf store (i + 1) + inc ≤ (offsetOf store store.length : Int))
    (hno : ∀ j, j ≤ store.length → (offsetOf store j : Int) ≠ offsetOf store (i + 1) + inc) :
    landing store i inc = .error .misaligned := by
  cases hl : landing store i inc with
  | ok j =>
    obtain ⟨hj, htarget⟩ := landing_ok hi hl
    exact absurd htarget (hno j hj)
  | error e =>
    cases e with
    | misaligned => rfl
    | overrun =>
      have := landing_overrun hi hl
      omega

end

/-! ## Faults -/

section
variable {i : Instr} {inc : Byte} {s : State} (hinc : jumpIncrement i = some inc)
include hinc

/-- R199: a taken jump faults as its walk does. -/
theorem exec_fault_of_landing {e : WalkFault} (ht : jumpTaken s.flags s.regs.CX i)
    (hl : landing s.store s.idx inc.toInt = .error e) : exec i s = .fault (walkFault i inc.toInt e) := by
  obtain ⟨taken, u, he, htaken, hu⟩ := exec_jumpStep hinc s
  have hF := framed_of_jump hu
  simp [he, jumpStep, htaken.mpr ht, hF.store, hF.idx, hl]

/-- R190: a jump that is not taken falls through. -/
theorem exec_next_of_not_taken (ht : ¬ jumpTaken s.flags s.regs.CX i) : ∃ t, exec i s = .next t := by
  obtain ⟨taken, u, he, htaken, _⟩ := exec_jumpStep hinc s
  exact ⟨retire i s (u.idx + 1) u, by simp [he, jumpStep, mt htaken.mp ht]⟩

end

/-- Settles O44, by where the target lies. -/
theorem takenJumpToABadTargetFaults : Obligations.TakenJumpToABadTargetFaults := fun _ _ _ hinc hi =>
  ⟨fun ht =>
    ⟨fun hout => exec_fault_of_landing hinc ht (landing_of_outside hi hout),
      fun h0 hn hno => exec_fault_of_landing hinc ht (landing_of_inside hi h0 hn hno)⟩,
    exec_next_of_not_taken hinc⟩

end Sys2Proof.Machine
end

section
/-! The clocks: what the end of every step charges, the alignment penalty before and at the execution, and the
default timing table row by row. -/

namespace Sys2Proof.Machine

/-! ## The end of a step -/

/-- Settles O45: every instruction's writes are framed, and the end of the step charges the clocks. -/
theorem everyStepChargesItsClocks : Obligations.EveryStepChargesItsClocks := by
  intro i s t h
  obtain ⟨⟨next, u, rfl, hframed, _⟩, _, _⟩ := exec_effect h
  exact retire_retired i next hframed

/-! ## The alignment penalty -/

/-- R240: an operand incurs the penalty when it is a word at an odd effective address. -/
theorem oddWord_iff {r : Regs} {op : Operand} : oddWord r op = true ↔
    ∃ ea, effectiveAddress r op = some ea ∧ operandWidth op = some .w16 ∧ ea.toNat % 2 = 1 := by
  unfold oddWord
  cases effectiveAddress r op with
  | none => simp
  | some a => simp [BitVec.getElem_eq_testBit_toNat]

/-- R240: the penalty is charged once, whichever operand incurs it. -/
theorem alignClocks_of_odd {i : Instr} {r : Regs} (h : ∃ op, (op = src i ∨ op = dst i) ∧ oddWord r op = true) :
    alignClocks i r = 4 := by
  obtain ⟨op, rfl | rfl, hodd⟩ := h <;> simp [alignClocks, hodd]

theorem alignClocks_of_even {i : Instr} {r : Regs} (hs : oddWord r (src i) = false)
    (hd : oddWord r (dst i) = false) : alignClocks i r = 0 := by
  simp [alignClocks, hs, hd]

/-- Settles O46: an operand is no odd word exactly when its address, if it is a word in memory, is even. -/
theorem alignmentPenalty : Obligations.AlignmentPenalty := by
  intro i r
  constructor
  · rintro ⟨op, ea, hop, hodd⟩
    exact alignClocks_of_odd ⟨op, hop, oddWord_iff.mpr ⟨ea, hodd⟩⟩
  · intro heven
    have hfalse : ∀ op, op = src i ∨ op = dst i → oddWord r op = false := by
      intro op hop
      rw [← Bool.not_eq_true, oddWord_iff]
      rintro ⟨ea, hea, hw, hodd⟩
      have := heven op ea hop hea hw
      omega
    exact alignClocks_of_even (hfalse _ (.inl rfl)) (hfalse _ (.inr rfl))

/-! ## The alignment penalty at decode -/

/-- R242: at decode an operand other than an effective address is judged as it is at execution. -/
theorem oddAbsWord_eq_oddWord {op : Operand} (h : op.kind ≠ .mem) (r : Regs) : oddAbsWord op = oddWord r op := by
  cases op with
  | abs a w => cases w <;> rfl
  | mem b d w => exact absurd rfl h
  | reg | sreg | imm | jmp | none => rfl

/-- R242: only an absolute address is judged odd at decode. -/
theorem oddAbsWord_of_kind {op : Operand} (h : op.kind ≠ .abs) : oddAbsWord op = false := by
  cases op with
  | abs a w => exact absurd rfl h
  | mem | reg | sreg | imm | jmp | none => rfl

/-- R94: no form has an effective address on one side and an absolute address on the other. -/
theorem Form.mem_excludes_abs {f : Form} (h : f.src.kind = .mem ∨ f.dst.kind = .mem) :
    f.src.kind ≠ .abs ∧ f.dst.kind ≠ .abs := by
  cases f with
  | shortJump | immediateRegister => simp [Form.src, Form.dst, Operand.kind] at h
  | accumulatorAbsolute isSource => cases isSource <;> simp [Form.src, Form.dst, Operand.kind] at h
  | segmentRm d _ rm | registerRm d _ _ rm =>
    cases d <;> cases rm <;> simp [Form.src, Form.dst, rmOperand, Operand.kind] at h ⊢
  | immediateRm _ _ rm => cases rm <;> simp [Form.src, Form.dst, rmOperand, Operand.kind] at h ⊢

/-- Settles O47: without an effective address both operands are judged alike at decode and at execution; with one,
neither operand is an absolute address. -/
theorem alignmentAtDecode : Obligations.AlignmentAtDecode := by
  intro i r
  constructor
  · intro hs hd
    simp only [alignAtDecode, alignClocks, oddAbsWord_eq_oddWord hs r, oddAbsWord_eq_oddWord hd r]
  · intro hmem
    obtain ⟨hs, hd⟩ := Form.mem_excludes_abs hmem
    have hsrc : oddAbsWord (src i) = false := oddAbsWord_of_kind hs
    have hdst : oddAbsWord (dst i) = false := oddAbsWord_of_kind hd
    simp [alignAtDecode, hsrc, hdst]

/-! ## The effective-address table -/

theorem sext8_eq_zero_iff (v : Byte) : sext8 v = 0 ↔ v = 0 := by
  constructor
  · intro h
    rw [← loByte_sext8 v, h]
    rfl
  · rintro rfl
    rfl

/-- R238: BP with an 8-bit displacement is the one path whose clocks depend on the displacement. -/
theorem eaClocks_bp_byte (v : Byte) : eaClocks (.mem .bp (.byte v)) = if v = 0 then 5 else 9 := by
  have htable : eaClocks (.mem .bp (.byte v)) = if Base.bp.code = 0b110 ∧ sext8 v = 0 then 5 else 9 := rfl
  have hcode : Base.bp.code = 0b110 := rfl
  simp only [htable, hcode, sext8_eq_zero_iff, true_and]

/-- Settles O48, base by base at each displacement. -/
theorem effectiveAddressClocks : Obligations.EffectiveAddressClocks := by
  refine ⟨fun b hb => ?none, fun _ => rfl, fun b v hb => ?byte, fun b v => ?word, eaClocks_bp_byte⟩
  case none | byte =>
    cases b with
    | bp => exact absurd rfl hb
    | _ => rfl
  case word => cases b <;> rfl

/-! ## The default timing table -/

/-- R230, R243: what a decoded record holds beside its base and EA clocks. -/
theorem clockDecode_ok {table : List TimingRow} {i : Instr} {off : Nat} {r : Record}
    (h : clockDecode table i off = .ok r) : r.instr = i ∧ r.off = off ∧ r.alignClocks = alignAtDecode i := by
  unfold clockDecode at h
  split at h
  · cases h
  · split at h
    · split at h <;> cases h
      exact ⟨rfl, rfl, rfl⟩
    · cases h
      exact ⟨rfl, rfl, rfl⟩

/-- Settles O49: every instruction has a row, and every decoded record holds what it was decoded from. -/
theorem timingTableIsExhaustive : Obligations.TimingTableIsExhaustive := by
  intro i off
  obtain ⟨r, hr⟩ := clockDecode_baseClocksTable i off
  exact ⟨r, hr, clockDecode_ok hr⟩

/-- R236: the record of a jump holds the open value of its descriptor. -/
theorem clockDecode_jump {i : Instr} {inc : Byte} (h : jumpIncrement i = some inc) (off : Nat) :
    clockDecode baseClocksTable i off = .ok ⟨i, off, Config.jumpBaseClocks i.id, 0, 0⟩ := by
  cases i <;> cases h <;> rfl

/-- Settles O51: a jump's row, and operands of which none is in memory. -/
theorem jumpClocksAreOneOpenValue : Obligations.JumpClocksAreOneOpenValue := by
  intro i inc off regs h
  obtain ⟨hs, hd⟩ := operands_of_jumpIncrement h
  exact ⟨clockDecode_jump h off, alignClocks_of_even (by rw [hs]; rfl) (by rw [hd]; rfl)⟩

/-- Settles O50: the row of each key, those of a memory operand for an absolute and for an effective address. -/
theorem baseClocksOfTheTable : Obligations.BaseClocksOfTheTable := by
  intro w reg c sr m imm aimm a off hm
  cases m with
  | reg c' => exact absurd rfl hm
  | direct | mem =>
    refine ⟨fun d => by cases d <;> rfl, rfl, rfl, rfl, rfl, rfl, rfl, rfl, rfl, rfl, rfl, rfl,
      fun d => by cases d <;> exact ⟨rfl, rfl, rfl⟩, rfl, rfl, rfl, rfl, fun d => by cases d <;> rfl,
      rfl, rfl, rfl, rfl, rfl, rfl, rfl, rfl, rfl, fun i inc h => ?jump⟩
    case jump => simp only [clockDecode_jump h off]

end Sys2Proof.Machine
end

section
/-! The faults and refusals of one instruction (R263): only a jump's step leaves the path to a next state, and only
through its walk. -/

namespace Sys2Proof.Machine

/-- R199: an execution fault is that of a taken jump's walk. -/
theorem exec_fault {i : Instr} {s : State} {f : Fault} (h : exec i s = .fault f) :
    ∃ inc e, jumpIncrement i = some inc ∧ jumpTaken s.flags s.regs.CX i ∧ f = walkFault i inc.toInt e := by
  by_cases hj : i.action = .jump
  · obtain ⟨inc, hinc⟩ := jumpIncrement_of_action hj
    obtain ⟨taken, u, he, htaken, _⟩ := exec_jumpStep hinc s
    obtain ⟨ht, e, _, hf⟩ := jumpStep_fault (he ▸ h)
    exact ⟨inc, e, hinc, htaken.mp ht, hf⟩
  · obtain ⟨t, ht⟩ := exec_completes hj s
    cases ht.symm.trans h

/-- R166: at the default policy no instruction is refused. -/
theorem exec_not_refused (i : Instr) (s : State) (x : Refusal) : exec i s ≠ .refused x := by
  by_cases hj : i.action = .jump
  · obtain ⟨inc, hinc⟩ := jumpIncrement_of_action hj
    obtain ⟨taken, u, he, _⟩ := exec_jumpStep hinc s
    exact he ▸ jumpStep_not_refused x
  · obtain ⟨t, ht⟩ := exec_completes hj s
    simp [ht]

/-- Settles O52: every execution fault is a walk fault, of which there are two; no instruction is refused. -/
theorem onlyTakenJumpsFault : Obligations.OnlyTakenJumpsFault := by
  intro i s
  refine ⟨fun f h => ?_, exec_not_refused i s⟩
  obtain ⟨inc, e, hinc, ht, rfl⟩ := exec_fault h
  refine ⟨inc, hinc, ht, ?_⟩
  cases e with
  | misaligned => exact .inl rfl
  | overrun => exact .inr rfl

end Sys2Proof.Machine
end

section
/-! The start of a run at any parameters (R282), the state a fault leaves behind (R260), and the dump and the
listing the host reads (R293, R107). -/

namespace Sys2Proof.Machine

/-! ## The start of a run -/

/-- R40: a not-started engine starts the run. -/
theorem engineStep_of_notStarted (p : Params) {s : State} (h : s.runState = .notStarted) :
    engineStep p s = startRun p s := by
  simp [engineStep, h]

/-- R265: a buffer over the capacity faults before anything is decoded. -/
theorem startRun_of_overCapacity {p : Params} {s : State} (h : p.codeCapacityBytes < s.host.code.length) :
    startRun p s = .fault (.capacity s.host.code.length) :=
  if_pos h

theorem startRun_of_decodeFault {p : Params} {s : State} {f : Fault} (hcap : s.host.code.length ≤ p.codeCapacityBytes)
    (hf : decodeAll p s.host.code = .error f) : startRun p s = .fault f := by
  simp [startRun, Nat.not_lt.mpr hcap, hf]

/-- R120: a run that starts with no record is halted by the loop's first exit test. -/
theorem haltIfDone_loaded (s : State) (D : List Record) :
    (loaded s D .running).haltIfDone = loaded s D (if D = [] then .halted else .running) := by
  cases D <;> rfl

theorem startRun_of_decoded {p : Params} {s : State} {D : List Record}
    (hcap : s.host.code.length ≤ p.codeCapacityBytes) (hD : decodeAll p s.host.code = .ok D) :
    startRun p s = .next (loaded s D (if s.host.shouldExecute = false then .notStarted
      else if D = [] then .halted else .running)) := by
  cases hx : s.host.shouldExecute <;> simp [startRun, Nat.not_lt.mpr hcap, hD, hx, haltIfDone_loaded]

/-- Settles O13, by what the capacity check and the decode pass answer. -/
theorem startOfARun : Obligations.StartOfARun := by
  intro p s hs
  rw [engineStep_of_notStarted p hs]
  exact ⟨startRun_of_overCapacity, fun hcap =>
    ⟨fun _ => startRun_of_decodeFault hcap, fun _ => startRun_of_decoded hcap⟩⟩

/-! ## The listing and the dump -/

theorem listing_of_shouldDisassemble {s : State} (h : s.host.shouldDisassemble = true) :
    listing s = s.store.mapIdx listingLine :=
  if_pos h

theorem listing_of_empty_store {s : State} (h : s.store = []) : listing s = [] := by
  simp [listing, h]

theorem dump_of_range {s : State} {start : Word} {count : Nat} (hrange : s.host.dumpRange = some (start, count))
    (hx : s.host.shouldExecute = true) :
    dump s = (List.range count).map (fun k => s.mem.read (start + BitVec.ofNat 16 k)) := by
  simp [dump, hrange, hx]

/-- R293: the addresses of a range wrap modulo 2^16. -/
theorem add_ofNat_eq_mod (start : Word) (k : Nat) :
    start + BitVec.ofNat 16 k = BitVec.ofNat 16 ((start.toNat + k) % 65536) := by
  apply BitVec.eq_of_toNat_eq
  simp

/-- Settles O58: byte `k` of the dump is read at the wrapped address, line `k` of the listing off record `k`. -/
theorem dumpAndListing : Obligations.DumpAndListing := by
  refine fun s start count => ⟨fun hrange hx => ?dump, fun hd => ?listing⟩
  case dump =>
    rw [dump_of_range hrange hx]
    exact ⟨by simp, fun k hk => by simp [hk, add_ofNat_eq_mod]⟩
  case listing =>
    rw [listing_of_shouldDisassemble hd]
    exact ⟨by simp, fun k r hr => by simp [hr, listingLine]⟩

/-! ## What a fault leaves behind -/

/-- R260, R261: a fault is raised into the state, into the reset state when the start of the run faulted. -/
theorem tick_of_fault {s : State} {f : Fault} (h : step s = .fault f) :
    ∃ u : State, tick s = u.raise f ∧ (s.runState = .notStarted → u = s.restart) := by
  unfold tick
  rw [h]
  cases hr : s.runState with
  | notStarted => exact ⟨s.restart, rfl, fun _ => rfl⟩
  | running | halted | aborted => exact ⟨s, rfl, nofun⟩

/-- R122 (log entry 7): the report of an aborted run has no final values. -/
theorem report_final_of_aborted {s : State} (h : s.runState = .aborted) : (report s).final = none := by
  simp [report, h]

/-- Settles O21: what the host finds is a state the fault was raised into; where the start of the run faulted, that
is the reset state, whose store is empty. -/
theorem faultsAbortTheRun : Obligations.FaultsAbortTheRun := by
  intro s f h
  obtain ⟨u, hu, hrestart⟩ := tick_of_fault h
  rw [hu]
  refine ⟨rfl, rfl, rfl, report_final_of_aborted rfl, engineStep_of_aborted params rfl, fun hs => ?_⟩
  rw [hrestart hs]
  exact ⟨rfl, rfl, rfl, rfl, listing_of_empty_store rfl⟩

end Sys2Proof.Machine
end
